-- ==== Sys2Proof/Word.lean ====
section
/-! DEFINITION. The word types of WIA-1 (00_scope.md R8; 30_encoding.md R80, R86; 20_memory.md R50). -/

namespace Sys2Proof

/-- A command word: 32 bits (30_encoding.md R80). -/
abbrev Word := BitVec 32

/-- A limb, a datum of the port, `IMM` and `RES`: 64 bits (00_scope.md R8). -/
abbrev Limb := BitVec 64

/-- A byte offset into the register space: 16 bits (20_memory.md R50). -/
abbrev Offset := BitVec 16

/-- A byte of the exported buffer (20_memory.md R60). -/
abbrev Byte := BitVec 8

/-- The index of a wide register, W0 to W15 (30_encoding.md R86). -/
abbrev Reg := Fin 16

end Sys2Proof
end

