-- ==== Sys2Proof/Config.lean ====
section
/-! DEFINITION. The parameters of WIA-1 (00_scope.md R8) and its one free value (40_construct.md R104). -/

namespace Sys2Proof.Config

/-- `MAXLIMBS`, 1 to 255; the value WIA-1 takes is 64 (00_scope.md R8). The decoder, the port and
`Machine.stepWith` take it as an argument; only `Machine.step` and `decodeTableWord` use this value
(log 5, DESIGN CHOICE). -/
def maxLimbs : Nat := 64

/-- `NREG` (00_scope.md R8). -/
def nreg : Nat := 16

/-- `LIMB_BITS` (00_scope.md R8). -/
def limbBits : Nat := 64

/-- `VERSION`, the interface version (00_scope.md R2, 10_state.md R33). -/
def version : Nat := 1

/-- The word number `n` that the entropy input supplies, where the state lists no word: a free value
under no law (40_construct.md R104, 93_implementation_defined.md U8; log 3). -/
opaque draw64 : Nat → Limb

end Sys2Proof.Config
end

