-- ==== Sys2Proof/Syntax.lean ====
section
/-! DEFINITION. The 21 commands of WIA-1, one constructor per row of the opcode table
(30_encoding.md R83), with the operands the command's format uses (R82, R86). -/

namespace Sys2Proof

/-- A command. `rd`, `ra`, `rb`, `rc` are register indexes (30_encoding.md R86); `wl` is a width in
limbs (R85). The scalar operand of LDI, EQ64, SHL and SHR is `IMM`, not part of the word (R84). -/
inductive Instr where
  /-- LDI, format C (40_construct.md R101). -/
  | ldi (rd : Reg) (wl : Nat)
  /-- LDW64, format C (40_construct.md R102). -/
  | ldw64 (rd : Reg) (wl : Nat)
  /-- LDW32, format C (40_construct.md R103). -/
  | ldw32 (rd : Reg) (wl : Nat)
  /-- LDRND, format C (40_construct.md R104). -/
  | ldrnd (rd : Reg) (wl : Nat)
  /-- CVT, format V (40_construct.md R105). -/
  | cvt (rd ra : Reg) (wl : Nat)
  /-- ISZERO, format P1 (41_predicates.md R121). -/
  | iszero (ra : Reg)
  /-- ISODD, format P1 (41_predicates.md R122). -/
  | isodd (ra : Reg)
  /-- CMP, format P2 (41_predicates.md R123). -/
  | cmp (ra rb : Reg)
  /-- EQ64, format P1 (41_predicates.md R124). -/
  | eq64 (ra : Reg)
  /-- FHB, format P1 (41_predicates.md R125). -/
  | fhb (ra : Reg)
  /-- FULC, format P1 (41_predicates.md R126). -/
  | fulc (ra : Reg)
  /-- SHL, format U (42_bitwise.md R141). -/
  | shl (rd ra : Reg)
  /-- SHR, format U (42_bitwise.md R142). -/
  | shr (rd ra : Reg)
  /-- NOT, format U (42_bitwise.md R143). -/
  | not (rd ra : Reg)
  /-- ADD, format B (43_arith.md R161). -/
  | add (rd ra rb : Reg)
  /-- SUB, format B (43_arith.md R163). -/
  | sub (rd ra rb : Reg)
  /-- MUL, format B (43_arith.md R165). -/
  | mul (rd ra rb : Reg)
  /-- DIV, format Q: quotient `rd`, remainder `rc` (43_arith.md R167). -/
  | div (rd ra rb rc : Reg)
  /-- POW, format B (43_arith.md R169). -/
  | pow (rd ra rb : Reg)
  /-- MULMOD, format M: modulus `rc` (44_modular.md R210). -/
  | mulmod (rd ra rb rc : Reg) (wl : Nat)
  /-- POWMOD, format M: exponent `rb`, modulus `rc` (44_modular.md R211). -/
  | powmod (rd ra rb rc : Reg) (wl : Nat)
deriving DecidableEq, Repr

end Sys2Proof
end

