-- ==== Sys2Proof/Machine/State.lean ====
section
/-! DEFINITION. The state of WIA-1 as plain data: the block, which is the whole architectural state of
10_state.md R20, and beside it the inputs a step reads and what the port has answered; the state after
reset (R42). -/

namespace Sys2Proof.Machine

/-- Why a step would stop. WIA-1 has no such reason: the fault of a command is an entry into the FAULT
phase, a next state (60_exceptions.md R232), so this type has no member (log 14; safe). -/
inductive Fault where
deriving DecidableEq, Repr

/-- Why a step would have no meaning. -/
inductive Refusal where
  /-- A command without a meaning, refused by its mnemonic; raised by an arm of `exec` only, and no arm
  of this model raises it (safe). -/
  | notModelled (mnemonic : String)
deriving DecidableEq, Repr

/-- The six fault causes (60_exceptions.md R231). -/
inductive FaultCode where
  | illegal | unconstructed | widthMismatch | divZero | modZero | widthSafety
deriving DecidableEq, Repr

/-- The engine's control state (10_state.md R30). -/
inductive Phase where
  | idle | run | load | fault
deriving DecidableEq, Repr

/-- A wide value: the limb count `L` and the value, which is below `2^(64·L)` (00_scope.md R10;
`Safety.Inv` says so of every register; log 11). -/
structure Wide where
  len : Nat
  val : Nat
deriving DecidableEq, Repr

/-- An access the host presents: a direction, a 16-bit byte offset, a size in bytes, and for a write
64 bits of data (20_memory.md R50). -/
inductive Access where
  | read (off : Offset) (size : Nat)
  | write (off : Offset) (size : Nat) (data : Limb)
deriving DecidableEq, Repr

/-- What the port answers (20_memory.md R50, R52, R53). A refused read carries no data (R51; log 9). -/
inductive Answer where
  /-- `OKAY` with the data of a read. -/
  | data (v : Limb)
  /-- `OKAY` of a write. -/
  | okay
  /-- `SLVERR`, the access is refused. -/
  | slverr
  /-- No answer: `rst` is asserted (70_reset_and_hazards.md R260; log 8). -/
  | unanswered
deriving DecidableEq, Repr

/-- One entry of the total order of accesses, engine steps and resets (20_memory.md R67, R68; log 1). -/
inductive Move where
  /-- The host presents an access. -/
  | access (a : Access)
  /-- The input `rst` takes a level (70_reset_and_hazards.md R260). -/
  | rst (level : Bool)
  /-- The engine's step has its place here, if the phase is RUN (20_memory.md R68). -/
  | engine
deriving DecidableEq, Repr

/-- The whole architectural state of the block (10_state.md R20): what the spec calls state, and nothing
of what 00_scope.md R14 says is none. -/
structure Block where
  /-- `W[0..15]`; `none` is an unconstructed register (R21, R23). -/
  w : Vector (Option Wide) 16
  /-- `IMM` (R28). -/
  imm : Limb
  /-- `RES` (R29). -/
  res : Limb
  /-- `PHASE` (R30). -/
  phase : Phase
  /-- `DONE` (R37). -/
  done : Bool
  /-- `ERRCODE` (R36). -/
  errcode : BitVec 8
  /-- `CMDR` (R34). -/
  cmdr : Word
  /-- `LCNT` (R38). -/
  lcnt : BitVec 16
  /-- `LBUF`, limb 0 first (R38). -/
  lbuf : List Limb
deriving DecidableEq, Repr

/-- What a step of the model starts from: the block, and beside it what stands outside the block. The
spec makes the host's moves and the entropy words parameters of the step relation (00_scope.md R14), and
`State.move` takes the move so; the interface of a machine gives a step its state alone, so the moves and
words to come are listed here, as data of the environment and not of the block (log 17). -/
structure State extends Block where
  /-- The level of the input `rst` (70_reset_and_hazards.md R260). -/
  rst : Bool
  /-- The words the input `rnd` supplies next (40_construct.md R104; log 3). -/
  rnd : List Limb
  /-- How many words have been taken from `rnd`: the model's own counter (log 3). -/
  drawn : Nat
  /-- The moves still to happen, in their total order (20_memory.md R67; log 1). -/
  pending : List Move
  /-- What the port has answered, newest first: the model's own record (log 9). -/
  answers : List Answer
deriving DecidableEq, Repr

/-- The block right after reset (10_state.md R42). -/
def Block.reset : Block where
  w := Vector.replicate 16 none
  imm := 0
  res := 0
  phase := .idle
  done := false
  errcode := 0
  cmdr := 0
  lcnt := 0
  lbuf := []

/-- The machine right after reset: the block at its reset values, `rst` released, with no move
pending. -/
def State.reset : State where
  toBlock := Block.reset
  rst := false
  rnd := []
  drawn := 0
  pending := []
  answers := []

end Sys2Proof.Machine
end

