-- ==== Sys2Proof/Machine/Ops.lean ====
section
/-! DEFINITION. The shared operations on the state: the wide registers (00_scope.md R11), completion of
a command (60_exceptions.md R230), taking a fault (R232) and the reset that is the only way back
(R236; 70_reset_and_hazards.md R261), acceptance of a command (20_memory.md R62), the entropy input
(40_construct.md R104), and the limbs of a value (00_scope.md R10). -/

namespace Sys2Proof.Machine

/-- `2^N`, N = 64·L: the number of values of `L` limbs (00_scope.md R10). -/
def ringSize (len : Nat) : Nat := 2 ^ (64 * len)

/-- `limb(v, j)` (00_scope.md R10). -/
def limbOf (v j : Nat) : Nat := v / 2 ^ (64 * j) % 2 ^ 64

/-- The number whose limbs, least significant first, are the listed ones (00_scope.md R10). -/
def limbsVal : List Limb → Nat
  | [] => 0
  | l :: ls => l.toNat + 2 ^ 64 * limbsVal ls

/-- `bitlen(v)` (00_scope.md R9). -/
def bitlen (v : Nat) : Nat := if v = 0 then 0 else Nat.log2 v + 1

/-- The content of `W[i]` (10_state.md R21). -/
def State.reg (s : State) (i : Reg) : Option Wide := s.w[i.val]

/-- `W[i] <- v`, and with `none` the register becomes unconstructed (00_scope.md R11). -/
def State.setReg (s : State) (i : Reg) (v : Option Wide) : State :=
  { s with w := s.w.set i.val v }

/-- Every listed register becomes unconstructed. -/
def State.clearRegs (s : State) : List Reg → State
  | [] => s
  | r :: rs => (s.setReg r none).clearRegs rs

/-- `RES <- v` (10_state.md R29). -/
def State.setRes (s : State) (v : Limb) : State := { s with res := v }

/-- Completion of a command: `DONE <- 1`, `PHASE <- IDLE` (60_exceptions.md R230). -/
def State.complete (s : State) : State := { s with done := true, phase := .idle }

/-- The code of a fault (60_exceptions.md R231). -/
def FaultCode.code : FaultCode → BitVec 8
  | .illegal => 0x01
  | .unconstructed => 0x02
  | .widthMismatch => 0x03
  | .divZero => 0x04
  | .modZero => 0x05
  | .widthSafety => 0x06

/-- Fault entry (60_exceptions.md R232): the code, the FAULT phase, and, unless the fault is ILLEGAL,
the command's destination registers unconstructed. `DONE` stays as it is, 0 since the acceptance
(log 16). -/
def State.takeFault (s : State) (f : FaultCode) (dests : List Reg) : State :=
  match f with
  | .illegal => { s with errcode := f.code, phase := .fault }
  | _ => { s.clearRegs dests with errcode := f.code, phase := .fault }

/-- The effect of a reset, hard or soft (70_reset_and_hazards.md R261, 10_state.md R42). It is the only
return from the FAULT phase (60_exceptions.md R236). What is outside the block stays (log 15). -/
def State.applyReset (s : State) : State := { s with toBlock := Block.reset }

/-- Acceptance of a command word: `CMDR <- c`, `DONE <- 0`, `PHASE <- RUN` (20_memory.md R62). -/
def State.accept (s : State) (c : Word) : State :=
  { s with cmdr := c, done := false, phase := .run }

/-- Entry to the LOAD phase (40_construct.md R102, R103). -/
def State.enterLoad (s : State) (rd : Reg) : State :=
  { s.setReg rd none with lcnt := 0, lbuf := [], phase := .load }

/-- The word the entropy input supplies at its `j`-th use from now: a listed one while there is one,
then a free value (40_construct.md R104; log 3). -/
def State.entropyWord (s : State) (j : Nat) : Limb :=
  match s.rnd[j]? with
  | some l => l
  | none => Config.draw64 (s.drawn + j)

/-- `draw64()` (00_scope.md R11, 40_construct.md R104): the word, and the state after taking it. -/
def State.draw (s : State) : Limb × State :=
  (s.entropyWord 0, { s with rnd := s.rnd.tail, drawn := s.drawn + 1 })

/-- `n` draws in order, the first listed first (40_construct.md R104). -/
def State.drawLimbs (s : State) : Nat → List Limb × State
  | 0 => ([], s)
  | n + 1 =>
    let first := s.draw
    let more := first.2.drawLimbs n
    (first.1 :: more.1, more.2)

/-- How a command ends in the engine's step (60_exceptions.md R230, R235): completed with all its
effects, or with the fault's effects on the state it started from and nothing else. -/
def commit (dests : List Reg) (s : State) (r : Except FaultCode State) :
    Host.Outcome State Fault Refusal :=
  match r with
  | .ok t => .next t.complete
  | .error f => .next (s.takeFault f dests)

end Sys2Proof.Machine
end

