-- ==== Sys2Proof/Machine/Algorithms.lean ====
section
/-! DEFINITION. The algorithms the spec gives beside each command's value, as functions on natural
numbers: the limb loops of comparison, shifts and addition (41_predicates.md R123, 42_bitwise.md R141,
R142, R144, 43_arith.md R162, R164), multiplication, division and power (R166, R168, R170), the reducer
and the modular engine (44_modular.md R201, R202, R212). Every loop is given as many turns as it can
take at most. POW and POWMOD run `powLoop`; the other meanings are given by value (log 11). -/

namespace Sys2Proof.Machine

/-- The number with the listed limbs, least significant first (00_scope.md R10). -/
def ofLimbs : List Nat → Nat
  | [] => 0
  | r :: rs => r + 2 ^ 64 * ofLimbs rs

/-- The limb comparison of CMP, from limb `n - 1` down to limb 0; the answer is -1, 0 or 1
(41_predicates.md R123). -/
def compareLimbs (a b : Nat) : Nat → Int
  | 0 => 0
  | j + 1 =>
    if limbOf a j < limbOf b j then -1
    else if limbOf b j < limbOf a j then 1
    else compareLimbs a b j

/-- `limb(v, i)` with 0 for an index below 0, which is `i - 1 < 0` written with `i + 1`
(42_bitwise.md R141). -/
def limbBelow (v j q : Nat) : Nat := if q ≤ j then limbOf v (j - q) else 0

/-- `limb(v, i)` of an `L`-limb value with 0 for an index at or above `L` (42_bitwise.md R142). -/
def limbAbove (len v i : Nat) : Nat := if i < len then limbOf v i else 0

/-- Limb `j` of the left shift of `a` by `k` (42_bitwise.md R141). -/
def shlLimb (a k j : Nat) : Nat :=
  let q := k / 64
  let s := k % 64
  let lo := if 0 < s then limbBelow a j (q + 1) / 2 ^ (64 - s) else 0
  (limbBelow a j q * 2 ^ s % 2 ^ 64) ||| lo

/-- Limb `j` of the right shift of an `L`-limb `a` by `k` (42_bitwise.md R142). -/
def shrLimb (len a k j : Nat) : Nat :=
  let q := k / 64
  let s := k % 64
  let hi := if 0 < s then limbAbove len a (j + q + 1) * 2 ^ (64 - s) % 2 ^ 64 else 0
  (limbAbove len a (j + q) / 2 ^ s) ||| hi

/-- The left shift limb by limb (42_bitwise.md R141). -/
def shlByLimbs (len a k : Nat) : Nat := ofLimbs ((List.range len).map (shlLimb a k))

/-- The right shift limb by limb (42_bitwise.md R142). -/
def shrByLimbs (len a k : Nat) : Nat := ofLimbs ((List.range len).map (shrLimb len a k))

/-- The ripple-carry adder's limbs from limb `j` on, with carry `c` in (43_arith.md R162). -/
def rippleLimbs (a b : Nat) (j c : Nat) : Nat → List Nat
  | 0 => []
  | n + 1 =>
    let s := limbOf a j + limbOf b j + c
    (s % 2 ^ 64) :: rippleLimbs a b (j + 1) (s / 2 ^ 64) n

/-- The ripple-carry adder with a carry in; the last carry is discarded (43_arith.md R162). -/
def rippleAdd (len a b c : Nat) : Nat := ofLimbs (rippleLimbs a b 0 c len)

/-- Subtraction by the two's complement of the subtrahend, with the short-circuit for 0
(43_arith.md R164). -/
def subByComplement (len a b : Nat) : Nat :=
  if b = 0 then a else rippleAdd len a (rippleAdd len (ringSize len - 1 - b) 1 0) 0

/-- The shift-and-add multiplier, at most `n` turns (43_arith.md R166). -/
def mulLoop (size : Nat) : Nat → Nat → Nat → Nat → Nat
  | 0, _, _, acc => acc
  | n + 1, x, y, acc =>
    if y = 0 then acc
    else mulLoop size n (x * 2 % size) (y / 2) (if y % 2 = 1 then (acc + x) % size else acc)

/-- Long multiplication of `L`-limb values (43_arith.md R166). -/
def longMul (len a b : Nat) : Nat := mulLoop (ringSize len) (bitlen b) a b 0

/-- The compare-subtract-and-shift loop of the divider; `d` is the aligned divisor, `r` the remaining
dividend, `q` the quotient so far (43_arith.md R168). -/
def divLoop : Nat → Nat → Nat → Nat → Nat × Nat
  | 0, _, r, q => (q, r)
  | n + 1, d, r, q =>
    if d ≤ r then divLoop n (d / 2) (r - d) (q * 2 + 1) else divLoop n (d / 2) r (q * 2)

/-- Binary long division: quotient and remainder (43_arith.md R168). -/
def longDiv (a b : Nat) : Nat × Nat :=
  let s := bitlen a - bitlen b
  divLoop (s + 1) (b * 2 ^ s) a 0

/-- Square-and-multiply, exponent bits from the least significant up, at most `n` turns: `p` the
running base power, `acc` the accumulator (43_arith.md R170, 44_modular.md R212). -/
def powLoop (mul : Nat → Nat → Nat) : Nat → Nat → Nat → Nat → Nat
  | 0, _, _, acc => acc
  | n + 1, e, p, acc =>
    if e = 0 then acc
    else powLoop mul n (e / 2) (mul p p) (if e % 2 = 1 then mul acc p else acc)

/-- Square-and-multiply from the multiplicative identity (43_arith.md R170, 44_modular.md R212). -/
def squareMultiply (mul : Nat → Nat → Nat) (base e : Nat) : Nat := powLoop mul (bitlen e) e base 1

/-- The non-modular power over the long multiplier (43_arith.md R170). -/
def longPow (len a e : Nat) : Nat := squareMultiply (longMul len) a e

/-- The subtract-until-below loop, at most `n` turns, with `>=` (44_modular.md R201,
90_conflicts.md C1). -/
def reduceLoop (m : Nat) : Nat → Nat → Nat
  | 0, x => x
  | n + 1, x => if m ≤ x then reduceLoop m n (x - m) else x

/-- `Reduce(x, m)` for `m > 0` (44_modular.md R201). -/
def reduce (x m : Nat) : Nat := reduceLoop m x x

/-- The loop of `MulModCore`: `x` the shifting operand, `y` the multiplier (44_modular.md R202). -/
def mulModLoop (m : Nat) : Nat → Nat → Nat → Nat → Nat
  | 0, _, _, acc => acc
  | n + 1, x, y, acc =>
    if y = 0 then acc
    else mulModLoop m n (reduce (x * 2) m) (y / 2) (if y % 2 = 1 then reduce (acc + x) m else acc)

/-- `MulModCore(a, b, m)` (44_modular.md R202). -/
def mulModCore (m a b : Nat) : Nat := mulModLoop m (bitlen b) (reduce a m) b 0

/-- `PowModCore(base, e, m)` (44_modular.md R212). -/
def powModCore (m base e : Nat) : Nat := squareMultiply (mulModCore m) base e

/-- Multiplication modulo `k`, by value. -/
def mulMod (k x y : Nat) : Nat := x * y % k

end Sys2Proof.Machine
end

