-- ==== Sys2Proof/Machine/Operands.lean ====
section
/-! DEFINITION. The operand forms of the commands (30_encoding.md R84, R85, R86, R90) and the checks a
command makes on them before it writes anything (60_exceptions.md R231, R233). -/

namespace Sys2Proof.Machine

/-- `W[i]` read as a source: UNCONSTRUCTED if it holds no value (10_state.md R23). -/
def State.source (s : State) (i : Reg) : Except FaultCode Wide :=
  match s.reg i with
  | some v => .ok v
  | none => .error .unconstructed

/-- The scalar operand: `IMM`, all 64 bits, unsigned (30_encoding.md R84). -/
def State.scalar (s : State) : Nat := s.imm.toNat

/-- A check made before any destination is written: the fault `f` unless `ok` (60_exceptions.md R235). -/
def require (f : FaultCode) (ok : Bool) : Except FaultCode Unit :=
  if ok then .ok () else .error f

/-- The same-width rule (43_arith.md R173, 41_predicates.md R123). -/
def sameWidth (a b : Wide) : Except FaultCode Unit :=
  require .widthMismatch (decide (a.len = b.len))

/-- The divisor must not be zero (43_arith.md R167). -/
def divisorNonzero (b : Wide) : Except FaultCode Unit :=
  require .divZero (decide (b.val ≠ 0))

/-- The modulus must not be zero (44_modular.md R214). -/
def modulusNonzero (m : Wide) : Except FaultCode Unit :=
  require .modZero (decide (m.val ≠ 0))

/-- MULMOD's width-safety check, `2·(m - 1) <= 2^Wbits - 1` (44_modular.md R203). -/
def mulWidthSafe (m : Wide) (wl : Nat) : Except FaultCode Unit :=
  require .widthSafety (decide (2 * (m.val - 1) < ringSize wl))

/-- POWMOD's width-safety check, `(m - 1)^2 <= 2^Wbits - 1` (44_modular.md R203). -/
def powWidthSafe (m : Wide) (wl : Nat) : Except FaultCode Unit :=
  require .widthSafety (decide ((m.val - 1) ^ 2 < ringSize wl))

end Sys2Proof.Machine
end

