-- ==== Sys2Proof/Machine/Arith.lean ====
section
/-! DEFINITION. The ring arithmetic commands (43_arith.md R160 to R173). -/

namespace Sys2Proof.Machine

/-- ADD (43_arith.md R161). -/
def execAdd (rd ra rb : Reg) (s : State) : Host.Outcome State Fault Refusal :=
  commit [rd] s do
    let a ← s.source ra
    let b ← s.source rb
    sameWidth a b
    return s.setReg rd (some ⟨a.len, (a.val + b.val) % ringSize a.len⟩)

/-- SUB (43_arith.md R163): the exact difference modulo `2^N`. -/
def execSub (rd ra rb : Reg) (s : State) : Host.Outcome State Fault Refusal :=
  commit [rd] s do
    let a ← s.source ra
    let b ← s.source rb
    sameWidth a b
    return s.setReg rd (some ⟨a.len, (((a.val : Int) - b.val) % (ringSize a.len : Int)).toNat⟩)

/-- MUL (43_arith.md R165). -/
def execMul (rd ra rb : Reg) (s : State) : Host.Outcome State Fault Refusal :=
  commit [rd] s do
    let a ← s.source ra
    let b ← s.source rb
    sameWidth a b
    return s.setReg rd (some ⟨a.len, a.val * b.val % ringSize a.len⟩)

/-- DIV (43_arith.md R167): quotient to `rd`, remainder to `rc`, both at the dividend's width. -/
def execDiv (rd ra rb rc : Reg) (s : State) : Host.Outcome State Fault Refusal :=
  commit [rd, rc] s do
    let a ← s.source ra
    let b ← s.source rb
    divisorNonzero b
    return (s.setReg rd (some ⟨a.len, a.val / b.val⟩)).setReg rc (some ⟨a.len, a.val % b.val⟩)

/-- POW (43_arith.md R169), computed by square-and-multiply (R170). -/
def execPow (rd ra rb : Reg) (s : State) : Host.Outcome State Fault Refusal :=
  commit [rd] s do
    let a ← s.source ra
    let e ← s.source rb
    return s.setReg rd (some ⟨a.len, squareMultiply (mulMod (ringSize a.len)) a.val e.val⟩)

end Sys2Proof.Machine
end

