-- ==== Sys2Proof/Machine/Bitwise.lean ====
section
/-! DEFINITION. The shift and complement commands (42_bitwise.md R140 to R144). -/

namespace Sys2Proof.Machine

/-- The value of a left shift: every bit shifted beyond the width is lost, so a count of the width or
more gives 0 (42_bitwise.md R141). -/
def shlValue (a : Wide) (k : Nat) : Nat :=
  if 64 * a.len ≤ k then 0 else a.val * 2 ^ k % ringSize a.len

/-- The value of a right shift; a count of the width or more gives 0 (42_bitwise.md R142). -/
def shrValue (a : Wide) (k : Nat) : Nat :=
  if 64 * a.len ≤ k then 0 else a.val / 2 ^ k

/-- SHL (42_bitwise.md R141). -/
def execShl (rd ra : Reg) (s : State) : Host.Outcome State Fault Refusal :=
  commit [rd] s do
    let a ← s.source ra
    return s.setReg rd (some ⟨a.len, shlValue a s.scalar⟩)

/-- SHR (42_bitwise.md R142). -/
def execShr (rd ra : Reg) (s : State) : Host.Outcome State Fault Refusal :=
  commit [rd] s do
    let a ← s.source ra
    return s.setReg rd (some ⟨a.len, shrValue a s.scalar⟩)

/-- NOT (42_bitwise.md R143). -/
def execNot (rd ra : Reg) (s : State) : Host.Outcome State Fault Refusal :=
  commit [rd] s do
    let a ← s.source ra
    return s.setReg rd (some ⟨a.len, ringSize a.len - 1 - a.val⟩)

end Sys2Proof.Machine
end

