-- ==== Sys2Proof/Machine/Construct.lean ====
section
/-! DEFINITION. The construction and conversion commands (40_construct.md R100 to R105): the engine's
step of each, and the beats of LDW64 and LDW32. -/

namespace Sys2Proof.Machine

/-- LDI (40_construct.md R101): the literal `IMM`, zero-extended. -/
def execLdi (rd : Reg) (wl : Nat) (s : State) : Host.Outcome State Fault Refusal :=
  commit [rd] s (.ok (s.setReg rd (some ⟨wl, s.scalar⟩)))

/-- LDW64, the engine's step (40_construct.md R102): entry to LOAD. The beats follow on `DIN`. -/
def execLdw64 (rd : Reg) (s : State) : Host.Outcome State Fault Refusal :=
  .next (s.enterLoad rd)

/-- LDW32, the engine's step (40_construct.md R103): entry to LOAD. The beats follow on `DIN`. -/
def execLdw32 (rd : Reg) (s : State) : Host.Outcome State Fault Refusal :=
  .next (s.enterLoad rd)

/-- LDRND (40_construct.md R104): `wl` draws, the first to limb 0. -/
def execLdrnd (rd : Reg) (wl : Nat) (s : State) : Host.Outcome State Fault Refusal :=
  let drawn := s.drawLimbs wl
  commit [rd] s (.ok (drawn.2.setReg rd (some ⟨wl, limbsVal drawn.1⟩)))

/-- CVT (40_construct.md R105): the source modulo `2^(64·wl)`. -/
def execCvt (rd ra : Reg) (wl : Nat) (s : State) : Host.Outcome State Fault Refusal :=
  commit [rd] s do
    let a ← s.source ra
    return s.setReg rd (some ⟨wl, a.val % ringSize wl⟩)

/-- `LBUF[i] <- v` (40_construct.md R102, R103). -/
def putLimb (buf : List Limb) (i : Nat) (v : Limb) : List Limb :=
  if i < buf.length then buf.set i v else buf ++ [v]

/-- The end of a beat: at the last of `total` beats the register takes the whole value and the command
completes (40_construct.md R102, R103); the buffer has no content afterwards (10_state.md R38; log 6). -/
def State.endBeat (s : State) (rd : Reg) (wl total : Nat) : State :=
  if s.lcnt.toNat = total then
    { (s.setReg rd (some ⟨wl, limbsVal s.lbuf⟩)).complete with lcnt := 0, lbuf := [] }
  else s

/-- A beat of LDW64 (40_construct.md R102). -/
def State.beat64 (s : State) (rd : Reg) (wl : Nat) (v : Limb) : State :=
  State.endBeat { s with lbuf := putLimb s.lbuf s.lcnt.toNat v, lcnt := s.lcnt + 1 } rd wl wl

/-- Whether a beat of LDW32 carries a 32-bit word: `v[63:32] = 0` (40_construct.md R103). -/
def upperHalfZero (v : Limb) : Bool := decide (v.toNat < 2 ^ 32)

/-- `LBUF` after beat number `t` of LDW32: the first word of a pair is the high half of the limb, the
second is ORed into the low half (40_construct.md R103). -/
def put32 (buf : List Limb) (t : Nat) (v : Limb) : List Limb :=
  if t % 2 = 0 then putLimb buf (t / 2) (v <<< 32)
  else putLimb buf (t / 2) (buf.getD (t / 2) 0 ||| v)

/-- A beat of LDW32 whose upper half is zero (40_construct.md R103). -/
def State.beat32 (s : State) (rd : Reg) (wl : Nat) (v : Limb) : State :=
  State.endBeat { s with lbuf := put32 s.lbuf s.lcnt.toNat v, lcnt := s.lcnt + 1 } rd wl (2 * wl)

end Sys2Proof.Machine
end

