-- ==== Sys2Proof/Machine/Modular.lean ====
section
/-! DEFINITION. The modular commands (44_modular.md R200 to R214). -/

namespace Sys2Proof.Machine

/-- MULMOD (44_modular.md R210). -/
def execMulmod (rd ra rb rc : Reg) (wl : Nat) (s : State) : Host.Outcome State Fault Refusal :=
  commit [rd] s do
    let a ← s.source ra
    let b ← s.source rb
    let m ← s.source rc
    modulusNonzero m
    mulWidthSafe m wl
    return s.setReg rd (some ⟨wl, mulMod m.val a.val b.val⟩)

/-- POWMOD (44_modular.md R211), computed by the square-and-multiply of R212: the identity, not
reduced, when the exponent is 0 (R213). -/
def execPowmod (rd ra rb rc : Reg) (wl : Nat) (s : State) : Host.Outcome State Fault Refusal :=
  commit [rd] s do
    let a ← s.source ra
    let e ← s.source rb
    let m ← s.source rc
    modulusNonzero m
    powWidthSafe m wl
    return s.setReg rd (some ⟨wl, squareMultiply (mulMod m.val) a.val e.val⟩)

end Sys2Proof.Machine
end

