-- ==== Sys2Proof/Machine/Flags.lean ====
section
/-! DEFINITION. WIA-1 has no condition flags (10_state.md R27). What stands in their place: the words
the predicates write to `RES` (41_predicates.md R120 to R126), and the read-only views `STATUS`, `CAP`
and `WLEN` (10_state.md R31, R33, R35). -/

namespace Sys2Proof.Machine

/-- True is 1, false 0 (41_predicates.md R121). -/
def boolWord (b : Bool) : Limb := if b then 1 else 0

/-- The result of Compare: all ones for less, 0 for equal, 1 for greater (41_predicates.md R123). -/
def cmpWord (a b : Nat) : Limb :=
  if a < b then 0xFFFFFFFFFFFFFFFF#64 else if a = b then 0 else 1

/-- FindUsedLimbCount: `ceil(bitlen(a) / 64)` (41_predicates.md R126). -/
def usedLimbs (a : Nat) : Nat := (bitlen a + 63) / 64

/-- `BUSY`: the phase is RUN or LOAD (10_state.md R31). -/
def Phase.busy : Phase → Bool
  | .run | .load => true
  | .idle | .fault => false

/-- The value of `STATUS` (10_state.md R31). -/
def State.status (s : State) : Limb :=
  BitVec.ofNat 64
    (s.phase.busy.toNat + 2 * s.done.toNat + 4 * (decide (s.phase = .fault)).toNat +
      8 * (decide (s.phase = .load)).toNat + 2 ^ 8 * s.errcode.toNat + 2 ^ 16 * s.lcnt.toNat)

/-- The value of `CAP` (10_state.md R33). -/
def capWord (maxLimbs : Nat) : Limb :=
  BitVec.ofNat 64
    (Config.nreg + 2 ^ 8 * maxLimbs + 2 ^ 16 * Config.limbBits + 2 ^ 24 * Config.version)

/-- The value of `WLEN[i]`: the limb count, 0 for an unconstructed register (10_state.md R35). -/
def State.wlen (s : State) (i : Reg) : Limb :=
  match s.reg i with
  | some v => BitVec.ofNat 64 v.len
  | none => 0

end Sys2Proof.Machine
end

