-- ==== Sys2Proof/Machine/Predicates.lean ====
section
/-! DEFINITION. The predicate and measurement commands (41_predicates.md R120 to R126). Each writes
`RES` and no wide register. -/

namespace Sys2Proof.Machine

/-- ISZERO (41_predicates.md R121). -/
def execIszero (ra : Reg) (s : State) : Host.Outcome State Fault Refusal :=
  commit [] s do
    let a ← s.source ra
    return s.setRes (boolWord (decide (a.val = 0)))

/-- ISODD (41_predicates.md R122). -/
def execIsodd (ra : Reg) (s : State) : Host.Outcome State Fault Refusal :=
  commit [] s do
    let a ← s.source ra
    return s.setRes (BitVec.ofNat 64 (a.val % 2))

/-- CMP (41_predicates.md R123). -/
def execCmp (ra rb : Reg) (s : State) : Host.Outcome State Fault Refusal :=
  commit [] s do
    let a ← s.source ra
    let b ← s.source rb
    sameWidth a b
    return s.setRes (cmpWord a.val b.val)

/-- EQ64 (41_predicates.md R124). -/
def execEq64 (ra : Reg) (s : State) : Host.Outcome State Fault Refusal :=
  commit [] s do
    let a ← s.source ra
    return s.setRes (boolWord (decide (a.val = s.scalar)))

/-- FHB (41_predicates.md R125). -/
def execFhb (ra : Reg) (s : State) : Host.Outcome State Fault Refusal :=
  commit [] s do
    let a ← s.source ra
    return s.setRes (BitVec.ofNat 64 (bitlen a.val))

/-- FULC (41_predicates.md R126). -/
def execFulc (ra : Reg) (s : State) : Host.Outcome State Fault Refusal :=
  commit [] s do
    let a ← s.source ra
    return s.setRes (BitVec.ofNat 64 (usedLimbs a.val))

end Sys2Proof.Machine
end

