-- ==== Sys2Proof/Machine/Dispatch.lean ====
section
/-! DEFINITION. The meaning of every command, one arm each. -/

namespace Sys2Proof.Machine

def exec (i : Instr) (s : State) : Host.Outcome State Fault Refusal :=
  match i with
  -- construct
  | .ldi rd wl => Sys2Proof.Machine.execLdi rd wl s
  | .ldw64 rd _ => Sys2Proof.Machine.execLdw64 rd s
  | .ldw32 rd _ => Sys2Proof.Machine.execLdw32 rd s
  | .ldrnd rd wl => Sys2Proof.Machine.execLdrnd rd wl s
  | .cvt rd ra wl => Sys2Proof.Machine.execCvt rd ra wl s
  -- predicates
  | .iszero ra => Sys2Proof.Machine.execIszero ra s
  | .isodd ra => Sys2Proof.Machine.execIsodd ra s
  | .cmp ra rb => Sys2Proof.Machine.execCmp ra rb s
  | .eq64 ra => Sys2Proof.Machine.execEq64 ra s
  | .fhb ra => Sys2Proof.Machine.execFhb ra s
  | .fulc ra => Sys2Proof.Machine.execFulc ra s
  -- bitwise
  | .shl rd ra => Sys2Proof.Machine.execShl rd ra s
  | .shr rd ra => Sys2Proof.Machine.execShr rd ra s
  | .not rd ra => Sys2Proof.Machine.execNot rd ra s
  -- arithmetic
  | .add rd ra rb => Sys2Proof.Machine.execAdd rd ra rb s
  | .sub rd ra rb => Sys2Proof.Machine.execSub rd ra rb s
  | .mul rd ra rb => Sys2Proof.Machine.execMul rd ra rb s
  | .div rd ra rb rc => Sys2Proof.Machine.execDiv rd ra rb rc s
  | .pow rd ra rb => Sys2Proof.Machine.execPow rd ra rb s
  -- modular
  | .mulmod rd ra rb rc wl => Sys2Proof.Machine.execMulmod rd ra rb rc wl s
  | .powmod rd ra rb rc wl => Sys2Proof.Machine.execPowmod rd ra rb rc wl s

end Sys2Proof.Machine
end

