-- ==== Sys2Proof/WellFormed.lean ====
section
/-! DEFINITION. Which commands have a legal word: the checks of 30_encoding.md R85 and R91. -/

namespace Sys2Proof

/-- A legal width in limbs, `1 <= wl <= MAXLIMBS` (30_encoding.md R85). -/
def legalWl (maxLimbs wl : Nat) : Bool :=
  decide (1 ≤ wl) && decide (wl ≤ maxLimbs)

/-- The two checks a command's fields must pass (30_encoding.md R88, cases 3 and 4). -/
def Instr.wellFormed (maxLimbs : Nat) : Instr → Bool
  | .ldi _ wl => legalWl maxLimbs wl
  | .ldw64 _ wl => legalWl maxLimbs wl
  | .ldw32 _ wl => legalWl maxLimbs wl
  | .ldrnd _ wl => legalWl maxLimbs wl
  | .cvt _ _ wl => legalWl maxLimbs wl
  | .iszero _ => true
  | .isodd _ => true
  | .cmp _ _ => true
  | .eq64 _ => true
  | .fhb _ => true
  | .fulc _ => true
  | .shl _ _ => true
  | .shr _ _ => true
  | .not _ _ => true
  | .add _ _ _ => true
  | .sub _ _ _ => true
  | .mul _ _ _ => true
  | .div rd _ _ rc => decide (rd ≠ rc)
  | .pow _ _ _ => true
  | .mulmod _ _ _ _ wl => legalWl maxLimbs wl
  | .powmod _ _ _ _ wl => legalWl maxLimbs wl

end Sys2Proof
end

