-- ==== Sys2Proof/Decode.lean ====
section
/-! DEFINITION. The decoder of a command word (30_encoding.md R81, R82, R83, R88, R92), total on every
32-bit word and rejecting by name, and the encoder written from the same table. -/

namespace Sys2Proof

/-- The bit slice `v[hi:lo]` as a natural number (00_scope.md R9). -/
def bitSlice (v hi lo : Nat) : Nat := v / 2 ^ lo % 2 ^ (hi - lo + 1)

/-- A four-bit register field whose lowest bit is `lo` (30_encoding.md R81, R86). -/
def regField (c : Word) (lo : Nat) : Reg := ⟨c.toNat / 2 ^ lo % 16, Nat.mod_lt _ (by decide)⟩

/-- `op`, bits 31:24 (30_encoding.md R81). -/
def opField (c : Word) : Nat := bitSlice c.toNat 31 24

/-- `rd`, bits 23:20. -/
def rdField (c : Word) : Reg := regField c 20

/-- `ra`, bits 19:16. -/
def raField (c : Word) : Reg := regField c 16

/-- `rb`, bits 15:12. -/
def rbField (c : Word) : Reg := regField c 12

/-- `rc`, bits 11:8. -/
def rcField (c : Word) : Reg := regField c 8

/-- `wl`, bits 7:0. -/
def wlField (c : Word) : Nat := bitSlice c.toNat 7 0

/-- The eight formats (30_encoding.md R82). -/
inductive Format where
  | c | v | p1 | p2 | u | b | q | m
deriving DecidableEq, Repr

/-- The mask of a format: 1 in `op` and in every must-be-zero bit (30_encoding.md R82). -/
def Format.mask : Format → Word
  | .c => 0xFF0FFF00#32
  | .v => 0xFF00FF00#32
  | .p1 => 0xFFF0FFFF#32
  | .p2 => 0xFFF00FFF#32
  | .u => 0xFF00FFFF#32
  | .b => 0xFF000FFF#32
  | .q => 0xFF0000FF#32
  | .m => 0xFF000000#32

/-- The formats that use `wl` (30_encoding.md R85). -/
def Format.usesWl : Format → Bool
  | .c | .v | .m => true
  | .p1 | .p2 | .u | .b | .q => false

/-- Why a word is illegal: the four cases of 30_encoding.md R88, each reported as ILLEGAL. -/
inductive Illegal where
  /-- Case 1: `op` is not one of the 21 opcodes. -/
  | reservedOpcode
  /-- Case 2: a must-be-zero field is not zero. -/
  | mustBeZero
  /-- Case 3: `wl = 0` or `wl > MAXLIMBS` in a format that uses it. -/
  | badWidth
  /-- Case 4: DIV with `rd = rc`. -/
  | equalDestinations
deriving DecidableEq, Repr

/-- The opcode map (30_encoding.md R83): an opcode's format and the command its fields
`rd ra rb rc wl` make. -/
def opcodeRow (op : Nat) : Option (Format × (Reg → Reg → Reg → Reg → Nat → Instr)) :=
  match op with
  | 0x01 => some (.c, fun rd _ _ _ wl => .ldi rd wl)
  | 0x02 => some (.c, fun rd _ _ _ wl => .ldw64 rd wl)
  | 0x03 => some (.c, fun rd _ _ _ wl => .ldw32 rd wl)
  | 0x04 => some (.c, fun rd _ _ _ wl => .ldrnd rd wl)
  | 0x05 => some (.v, fun rd ra _ _ wl => .cvt rd ra wl)
  | 0x10 => some (.p1, fun _ ra _ _ _ => .iszero ra)
  | 0x11 => some (.p1, fun _ ra _ _ _ => .isodd ra)
  | 0x12 => some (.p2, fun _ ra rb _ _ => .cmp ra rb)
  | 0x13 => some (.p1, fun _ ra _ _ _ => .eq64 ra)
  | 0x14 => some (.p1, fun _ ra _ _ _ => .fhb ra)
  | 0x15 => some (.p1, fun _ ra _ _ _ => .fulc ra)
  | 0x20 => some (.u, fun rd ra _ _ _ => .shl rd ra)
  | 0x21 => some (.u, fun rd ra _ _ _ => .shr rd ra)
  | 0x22 => some (.u, fun rd ra _ _ _ => .not rd ra)
  | 0x30 => some (.b, fun rd ra rb _ _ => .add rd ra rb)
  | 0x31 => some (.b, fun rd ra rb _ _ => .sub rd ra rb)
  | 0x32 => some (.b, fun rd ra rb _ _ => .mul rd ra rb)
  | 0x33 => some (.q, fun rd ra rb rc _ => .div rd ra rb rc)
  | 0x34 => some (.b, fun rd ra rb _ _ => .pow rd ra rb)
  | 0x40 => some (.m, fun rd ra rb rc wl => .mulmod rd ra rb rc wl)
  | 0x41 => some (.m, fun rd ra rb rc wl => .powmod rd ra rb rc wl)
  | _ => none

/-- The decoding procedure (30_encoding.md R92), for a block whose `MAXLIMBS` is `maxLimbs`. -/
def decode (maxLimbs : Nat) (c : Word) : Except Illegal Instr :=
  match opcodeRow (opField c) with
  | none => .error .reservedOpcode
  | some (format, build) =>
    if c &&& format.mask ≠ BitVec.ofNat 32 (opField c * 2 ^ 24) then .error .mustBeZero
    else if format.usesWl = true ∧ (wlField c = 0 ∨ maxLimbs < wlField c) then .error .badWidth
    else if opField c = 0x33 ∧ rdField c = rcField c then .error .equalDestinations
    else .ok (build (rdField c) (raField c) (rbField c) (rcField c) (wlField c))

/-- A word laid out from its six fields (30_encoding.md R81, R93). -/
def packWord (op : Nat) (rd ra rb rc : Reg) (wl : Nat) : Word :=
  BitVec.ofNat 32
    (op * 2 ^ 24 + rd.val * 2 ^ 20 + ra.val * 2 ^ 16 + rb.val * 2 ^ 12 + rc.val * 2 ^ 8 + wl)

/-- The word of a command: its opcode (30_encoding.md R83), its operands at the places of R81, every
unused field zero (R87). -/
def encode : Instr → Word
  | .ldi rd wl => packWord 0x01 rd 0 0 0 wl
  | .ldw64 rd wl => packWord 0x02 rd 0 0 0 wl
  | .ldw32 rd wl => packWord 0x03 rd 0 0 0 wl
  | .ldrnd rd wl => packWord 0x04 rd 0 0 0 wl
  | .cvt rd ra wl => packWord 0x05 rd ra 0 0 wl
  | .iszero ra => packWord 0x10 0 ra 0 0 0
  | .isodd ra => packWord 0x11 0 ra 0 0 0
  | .cmp ra rb => packWord 0x12 0 ra rb 0 0
  | .eq64 ra => packWord 0x13 0 ra 0 0 0
  | .fhb ra => packWord 0x14 0 ra 0 0 0
  | .fulc ra => packWord 0x15 0 ra 0 0 0
  | .shl rd ra => packWord 0x20 rd ra 0 0 0
  | .shr rd ra => packWord 0x21 rd ra 0 0 0
  | .not rd ra => packWord 0x22 rd ra 0 0 0
  | .add rd ra rb => packWord 0x30 rd ra rb 0 0
  | .sub rd ra rb => packWord 0x31 rd ra rb 0 0
  | .mul rd ra rb => packWord 0x32 rd ra rb 0 0
  | .div rd ra rb rc => packWord 0x33 rd ra rb rc 0
  | .pow rd ra rb => packWord 0x34 rd ra rb 0 0
  | .mulmod rd ra rb rc wl => packWord 0x40 rd ra rb rc wl
  | .powmod rd ra rb rc wl => packWord 0x41 rd ra rb rc wl

/-- The command the decoder reads from a row of the opcode table whose bits are `w`: every command is
one 32-bit word (30_encoding.md R80), and bits above `nbits` are 0. -/
def decodeTableWord (nbits w : Nat) : Option Instr :=
  match decode Config.maxLimbs (BitVec.ofNat 32 (w % 2 ^ nbits)) with
  | .ok i => some i
  | .error _ => none

end Sys2Proof
end

