-- ==== Sys2Proof/Machine/Port.lean ====
section
/-! DEFINITION. The slave port (20_memory.md R50 to R66): the register map, which access each phase
permits, reads, writes, the byte-buffer export (R57, R60), and what the host's moves do. -/

namespace Sys2Proof.Machine

/-- The registers of the map (20_memory.md R55). -/
inductive PortReg where
  | cmd | imm | status | res | din | ctrl | cap | cmdr
  | wlen (i : Reg)
  | win (i : Reg) (j : Nat)
deriving DecidableEq, Repr

/-- A register index taken from a number below 16 by its low four bits. -/
def regOfNat (n : Nat) : Reg := ⟨n % 16, Nat.mod_lt _ (by decide)⟩

/-- The register at an offset that is a multiple of 8; `none` at a reserved offset
(20_memory.md R55). -/
def portReg (off : Nat) : Option PortReg :=
  if off = 0x0000 then some .cmd
  else if off = 0x0008 then some .imm
  else if off = 0x0010 then some .status
  else if off = 0x0018 then some .res
  else if off = 0x0020 then some .din
  else if off = 0x0028 then some .ctrl
  else if off = 0x0030 then some .cap
  else if off = 0x0038 then some .cmdr
  else if 0x0080 ≤ off ∧ off < 0x0100 then some (.wlen (regOfNat ((off - 0x0080) / 8)))
  else if 0x1000 ≤ off ∧ off < 0x9000 ∧ (off - 0x1000) % 0x800 < 0x7F8 then
    some (.win (regOfNat ((off - 0x1000) / 0x800)) ((off - 0x1000) % 0x800 / 8))
  else none

/-- Which reads each phase permits; a write-only register permits none (20_memory.md R56, R65). -/
def PortReg.readPermitted : PortReg → Phase → Bool
  | .status, _ | .cap, _ | .cmdr, _ => true
  | .imm, p | .res, p | .wlen _, p | .win _ _, p => decide (p = .idle ∨ p = .fault)
  | .cmd, _ | .din, _ | .ctrl, _ => false

/-- Which writes each phase permits; a read-only register permits none (20_memory.md R56, R65). -/
def PortReg.writePermitted : PortReg → Phase → Bool
  | .cmd, p | .imm, p => decide (p = .idle)
  | .din, p => decide (p = .load)
  | .ctrl, _ => true
  | .status, _ | .res, _ | .cap, _ | .cmdr, _ | .wlen _, _ | .win _ _, _ => false

/-- The only legal access: 8 bytes at a multiple of 8 (20_memory.md R51). -/
def legalAccess (off : Offset) (size : Nat) : Bool := decide (size = 8 ∧ off.toNat % 8 = 0)

/-- The data of a limb of the window: `none` for an unconstructed register or a limb at or above the
limb count (20_memory.md R58). -/
def State.windowLimb (s : State) (i : Reg) (j : Nat) : Option Limb :=
  match s.reg i with
  | some v => if j < v.len then some (BitVec.ofNat 64 (limbOf v.val j)) else none
  | none => none

/-- The data of a permitted read; `none` is a refusal (20_memory.md R52; each register by its rule). -/
def State.readReg (maxLimbs : Nat) (s : State) : PortReg → Option Limb
  | .imm => some s.imm
  | .status => some s.status
  | .res => some s.res
  | .cap => some (capWord maxLimbs)
  | .cmdr => some (s.cmdr.setWidth 64)
  | .wlen i => some (s.wlen i)
  | .win i j => s.windowLimb i j
  | .cmd | .din | .ctrl => none

/-- `BusRead(off)`: the data, or `none` for `SLVERR` (20_memory.md R52). -/
def State.busRead (maxLimbs : Nat) (s : State) (off : Offset) (size : Nat) : Option Limb :=
  if legalAccess off size then
    match portReg off.toNat with
    | some r => if r.readPermitted s.phase then s.readReg maxLimbs r else none
    | none => none
  else none

/-- A beat for the load in progress, which is the command in `CMDR` (20_memory.md R61; 40_construct.md
R102, R103). A phase LOAD without a load in `CMDR` is reached by no run and is refused (log 7). -/
def State.writeDin (maxLimbs : Nat) (s : State) (v : Limb) : Option State :=
  match decode maxLimbs s.cmdr with
  | .ok (.ldw64 rd wl) => some (s.beat64 rd wl v)
  | .ok (.ldw32 rd wl) => if upperHalfZero v then some (s.beat32 rd wl v) else none
  | _ => none

/-- The effect of a permitted write; `none` is a refusal (20_memory.md R53, R61 to R64). -/
def State.writeReg (maxLimbs : Nat) (s : State) (v : Limb) : PortReg → Option State
  | .cmd => if upperHalfZero v then some (s.accept (v.setWidth 32)) else none
  | .imm => some { s with imm := v }
  | .din => s.writeDin maxLimbs v
  | .ctrl => if v.toNat = 0 then some s else if v.toNat = 1 then some s.applyReset else none
  | .status | .res | .cap | .cmdr | .wlen _ | .win _ _ => none

/-- `BusWrite(off, v)`: the state after it, or `none` for `SLVERR` (20_memory.md R53). -/
def State.busWrite (maxLimbs : Nat) (s : State) (off : Offset) (size : Nat) (v : Limb) :
    Option State :=
  if legalAccess off size then
    match portReg off.toNat with
    | some r => if r.writePermitted s.phase then s.writeReg maxLimbs v r else none
    | none => none
  else none

/-- The port gives an answer. -/
def State.answer (s : State) (a : Answer) : State := { s with answers := a :: s.answers }

/-- One access answered (20_memory.md R50, R52, R53, R54): a refused one changes no state of the block.
While `rst` is asserted the port answers nothing (70_reset_and_hazards.md R260; log 8). -/
def State.present (maxLimbs : Nat) (s : State) (a : Access) : State :=
  if s.rst then s.answer .unanswered
  else match a with
    | .read off size =>
      match s.busRead maxLimbs off size with
      | some v => s.answer (.data v)
      | none => s.answer .slverr
    | .write off size v =>
      match s.busWrite maxLimbs off size v with
      | some t => t.answer .okay
      | none => s.answer .slverr

/-- The input `rst` takes a level: asserted, the block is in the reset state and stays in it until the
level is released (70_reset_and_hazards.md R260). -/
def State.driveRst (s : State) (level : Bool) : State :=
  if level then { s.applyReset with rst := true } else { s with rst := false }

/-- The bytes of a 64-bit datum at the byte addresses `off + 0 .. off + 7` (20_memory.md R57). -/
def byteLanes (d : Limb) : List Byte :=
  (List.range 8).map fun b => BitVec.ofNat 8 (d.toNat / 2 ^ (8 * b))

/-- `Export(W[i])`: the value in `8·L` bytes, least significant first (20_memory.md R60). -/
def exportBytes (v : Wide) : List Byte :=
  (List.range (8 * v.len)).map fun k => BitVec.ofNat 8 (v.val / 2 ^ (8 * k) % 256)

/-- The offset of `WIN[i][j]` (20_memory.md R55). -/
def winOffset (i : Reg) (j : Nat) : Offset := BitVec.ofNat 16 (0x1000 + 0x800 * i.val + 8 * j)

/-- The bytes the host lays out from its reads of `WIN[i][0]` to `WIN[i][n - 1]`; `none` when one of
the reads is refused (20_memory.md R60). -/
def State.windowBytes (maxLimbs : Nat) (s : State) (i : Reg) : Nat → Option (List Byte)
  | 0 => some []
  | n + 1 =>
    match s.windowBytes maxLimbs i n, s.busRead maxLimbs (winOffset i n) 8 with
    | some bytes, some d => some (bytes ++ byteLanes d)
    | _, _ => none

end Sys2Proof.Machine
end

