-- ==== Sys2Proof/Machine/Engine.lean ====
section
/-! DEFINITION. The engine's step (00_scope.md R13; 20_memory.md R68; 30_encoding.md R92): the command
word in `CMDR` decoded and executed, or the fault ILLEGAL; and the step relation of the block, whose
parameters are `MAXLIMBS` and the move (00_scope.md R14). -/

namespace Sys2Proof.Machine

/-- The engine's step of a command word that is no legal command (30_encoding.md R88, R92). -/
def State.illegalWord (s : State) : Host.Outcome State Fault Refusal :=
  .next (s.takeFault .illegal [])

/-- The engine's step: enabled in the RUN phase only (70_reset_and_hazards.md R273). -/
def State.engineStep (maxLimbs : Nat) (s : State) : Host.Outcome State Fault Refusal :=
  match s.phase with
  | .run =>
    match decode maxLimbs s.cmdr with
    | .ok i => exec i s
    | .error _ => s.illegalWord
  | .idle | .load | .fault => .next s

/-- The step relation: one move of the host or of the engine happens (20_memory.md R67, R68). `MAXLIMBS`
and the move are its parameters, and so are the entropy words, read through `State.entropyWord` only
(00_scope.md R14). -/
def State.move (maxLimbs : Nat) (m : Move) (s : State) : Host.Outcome State Fault Refusal :=
  match m with
  | .engine => s.engineStep maxLimbs
  | .access a => .next (s.present maxLimbs a)
  | .rst level => .next (s.driveRst level)

end Sys2Proof.Machine
end

