-- ==== Sys2Proof/Machine/Step.lean ====
section
/-! DEFINITION. One step: the next move of the total order of accesses, engine steps and resets
(20_memory.md R67, R68). -/

namespace Sys2Proof.Machine

/-- One step of a block whose `MAXLIMBS` is `maxLimbs`: the first pending move happens. With none
pending the engine takes its step if it is enabled, and else nothing happens (log 1, log 2). -/
def stepWith (maxLimbs : Nat) (s : State) : Host.Outcome State Fault Refusal :=
  match s.pending with
  | [] => s.move maxLimbs .engine
  | m :: rest => { s with pending := rest }.move maxLimbs m

/-- One step of WIA-1. -/
def step (s : State) : Host.Outcome State Fault Refusal := stepWith Config.maxLimbs s

/-- The state in which the command word `w` has just been accepted and the engine moves next: WIA-1
fetches nothing, the engine decodes `CMDR` (10_state.md R26, 20_memory.md R62; log 4). Every command is
one word of 32 bits; bits above `nbits` are 0. -/
def State.withFetchWord (s : State) (nbits w : Nat) : State :=
  { s.accept (BitVec.ofNat 32 (w % 2 ^ nbits)) with rst := false, pending := .engine :: s.pending }

end Sys2Proof.Machine
end

