-- ==== Sys2Proof/Machine/Script.lean ====
section
/-! DEFINITION. The notation of host programs: the assembler line of a command (30_encoding.md R93), the
pseudo-commands (R94), and the statements of a host script as moves of the total order (R95). `WAIT` is
written as one engine step followed by one read of `STATUS`: the run in which the first poll finds the
command executed (log 13). -/

namespace Sys2Proof.Machine

/-- A wide register's name (30_encoding.md R93). -/
def regName (r : Reg) : String := "W" ++ toString r.val

/-- A command's line less its scalar, which is not part of the word (30_encoding.md R93). -/
def asmLine : Instr → String
  | .ldi rd wl => "LDI " ++ regName rd ++ ", " ++ toString wl
  | .ldw64 rd wl => "LDW64 " ++ regName rd ++ ", " ++ toString wl
  | .ldw32 rd wl => "LDW32 " ++ regName rd ++ ", " ++ toString wl
  | .ldrnd rd wl => "LDRND " ++ regName rd ++ ", " ++ toString wl
  | .cvt rd ra wl => "CVT " ++ regName rd ++ ", " ++ regName ra ++ ", " ++ toString wl
  | .iszero ra => "ISZERO " ++ regName ra
  | .isodd ra => "ISODD " ++ regName ra
  | .cmp ra rb => "CMP " ++ regName ra ++ ", " ++ regName rb
  | .eq64 ra => "EQ64 " ++ regName ra
  | .fhb ra => "FHB " ++ regName ra
  | .fulc ra => "FULC " ++ regName ra
  | .shl rd ra => "SHL " ++ regName rd ++ ", " ++ regName ra
  | .shr rd ra => "SHR " ++ regName rd ++ ", " ++ regName ra
  | .not rd ra => "NOT " ++ regName rd ++ ", " ++ regName ra
  | .add rd ra rb => "ADD " ++ regName rd ++ ", " ++ regName ra ++ ", " ++ regName rb
  | .sub rd ra rb => "SUB " ++ regName rd ++ ", " ++ regName ra ++ ", " ++ regName rb
  | .mul rd ra rb => "MUL " ++ regName rd ++ ", " ++ regName ra ++ ", " ++ regName rb
  | .div rd ra rb rc =>
    "DIV " ++ regName rd ++ ", " ++ regName ra ++ ", " ++ regName rb ++ ", " ++ regName rc
  | .pow rd ra rb => "POW " ++ regName rd ++ ", " ++ regName ra ++ ", " ++ regName rb
  | .mulmod rd ra rb rc wl =>
    "MULMOD " ++ regName rd ++ ", " ++ regName ra ++ ", " ++ regName rb ++ ", " ++ regName rc ++
      ", " ++ toString wl
  | .powmod rd ra rb rc wl =>
    "POWMOD " ++ regName rd ++ ", " ++ regName ra ++ ", " ++ regName rb ++ ", " ++ regName rc ++
      ", " ++ toString wl

/-- The pseudo-commands (30_encoding.md R94). -/
inductive Pseudo where
  | clr (rd : Reg) (wl : Nat)
  | mov (rd ra : Reg) (wl : Nat)
  | widen (rd ra : Reg) (wl : Nat)
  | narrow (rd ra : Reg) (wl : Nat)
  | com (rd : Reg)
  | sqrmod (rd ra rm : Reg) (wl : Nat)
deriving DecidableEq, Repr

/-- The one command a pseudo-command expands to, and the scalar its line writes to `IMM` first
(30_encoding.md R94). -/
def Pseudo.expand : Pseudo → Instr × Option Limb
  | .clr rd wl => (.ldi rd wl, some 0)
  | .mov rd ra wl => (.cvt rd ra wl, none)
  | .widen rd ra wl => (.cvt rd ra wl, none)
  | .narrow rd ra wl => (.cvt rd ra wl, none)
  | .com rd => (.not rd rd, none)
  | .sqrmod rd ra rm wl => (.mulmod rd ra ra rm wl, none)

/-- `BusRead(off)` as a move (00_scope.md R11). -/
def readMove (off : Nat) : Move := .access (.read (BitVec.ofNat 16 off) 8)

/-- `BusWrite(off, v)` as a move (00_scope.md R11). -/
def writeMove (off : Nat) (v : Limb) : Move := .access (.write (BitVec.ofNat 16 off) 8 v)

/-- The `CMD` write of a command word (20_memory.md R62). -/
def cmdMove (c : Word) : Move := writeMove 0x0000 (c.setWidth 64)

/-- `BEAT v` (30_encoding.md R95). -/
def beatMove (v : Limb) : Move := writeMove 0x0020 v

/-- `WAIT` and `WAITDREQ`, answered by the first poll (30_encoding.md R95). -/
def waitMoves : List Move := [.engine, readMove 0x0010]

/-- A command line with its scalar, if it has one (30_encoding.md R95). -/
def commandMoves (i : Instr) : Option Limb → List Move
  | some imm => writeMove 0x0008 imm :: cmdMove (encode i) :: waitMoves
  | none => cmdMove (encode i) :: waitMoves

/-- `LDW64 Wd, wl, [v0, ...]` and `LDW32 Wd, wl, [w0, ...]`: the command, `WAITDREQ`, one beat per word,
and a poll that finds the load complete (30_encoding.md R95). -/
def loadMoves (i : Instr) (words : List Limb) : List Move :=
  cmdMove (encode i) :: waitMoves ++ words.map beatMove ++ [readMove 0x0010]

/-- `RESET` (30_encoding.md R95). -/
def resetMove : Move := writeMove 0x0028 1

/-- `x <- RES` (30_encoding.md R95). -/
def resMove : Move := readMove 0x0018

/-- `x <- LIMB Wi, j` (30_encoding.md R95). -/
def limbMove (i : Reg) (j : Nat) : Move := readMove (0x1000 + 0x800 * i.val + 8 * j)

/-- `x <- WLEN Wi` (30_encoding.md R95). -/
def wlenMove (i : Reg) : Move := readMove (0x0080 + 8 * i.val)

end Sys2Proof.Machine
end

