-- ==== Sys2Proof/Safety.lean ====
section
/-! DEFINITION. What holds of every state a run reaches, and what counts as a good end of a run
(70_reset_and_hazards.md R264). -/

namespace Sys2Proof.Safety

open Sys2Proof.Machine

/-- A wide value in its form: a limb count of 1 to `MAXLIMBS` and a value below `2^(64·L)`
(00_scope.md R10). -/
def WideOk (maxLimbs : Nat) (v : Wide) : Prop :=
  1 ≤ v.len ∧ v.len ≤ maxLimbs ∧ v.val < ringSize v.len

/-- How the load counter and the load buffer stand after some beats of a load whose limbs arrive in
`parts` beats each (1 for LDW64, 2 for LDW32), with the load not complete (10_state.md R38,
40_construct.md R102, R103). -/
def LoadOk (s : State) (rd : Reg) (wl parts : Nat) : Prop :=
  s.reg rd = none ∧ s.lcnt.toNat < parts * wl ∧
    s.lbuf.length = (s.lcnt.toNat + parts - 1) / parts

/-- The load in progress is the command in `CMDR` (10_state.md R30, R34, R38). -/
def Loading (maxLimbs : Nat) (s : State) : Prop :=
  (∃ rd wl, decode maxLimbs s.cmdr = .ok (.ldw64 rd wl) ∧ LoadOk s rd wl 1) ∨
    ∃ rd wl, decode maxLimbs s.cmdr = .ok (.ldw32 rd wl) ∧ LoadOk s rd wl 2

/-- The block is in its reset state (10_state.md R42), whatever stands outside it. -/
def InReset (s : State) : Prop := s.applyReset = s

/-- The invariant of the machine (10_state.md R21, R30, R31, R36, R37, R38; 70_reset_and_hazards.md
R260). -/
structure Inv (maxLimbs : Nat) (s : State) : Prop where
  /-- Every constructed register holds a wide value in its form (R21). -/
  regs : ∀ i v, s.reg i = some v → WideOk maxLimbs v
  /-- `ERRCODE` is one of 0x00 to 0x06 (R36). -/
  codes : s.errcode.toNat ≤ 6
  /-- FAULT = 1 iff ERRCODE != 0 (R31). -/
  fault : s.phase = .fault ↔ s.errcode ≠ 0
  /-- DONE = 1 implies PHASE = IDLE (R31). -/
  done : s.done = true → s.phase = .idle
  /-- In the LOAD phase the counter and buffer are those of the load in `CMDR` (R38). -/
  load : s.phase = .load → Loading maxLimbs s
  /-- Outside the LOAD phase `LCNT` is 0 and `LBUF` is empty (R38; log 6). -/
  noLoad : s.phase ≠ .load → s.lcnt = 0 ∧ s.lbuf = []
  /-- While `rst` is asserted the block is held in the reset state (70_reset_and_hazards.md R260). -/
  held : s.rst = true → InReset s

/-- A run has ended well: no move is left, the last access presented has been answered (one that `rst`
left without an answer has not, log 8), the phase is IDLE and `ERRCODE` is 0
(70_reset_and_hazards.md R264). -/
def GoodEnd (s : State) : Prop :=
  s.pending = [] ∧ s.answers.head? ≠ some .unanswered ∧ s.phase = .idle ∧ s.errcode = 0

end Sys2Proof.Safety
end

