-- ==== Sys2Proof/Certificates/Slice0/Obligations.lean ====
section
/-! DEFINITION. The statements about the model, and the few words they are stated in. -/

namespace Sys2Proof.Spec

open Sys2Proof.Machine Sys2Proof.Safety

/-- How a step or a command ends. -/
abbrev Result := Host.Outcome State Fault Refusal

/-- The word with these fields (30_encoding.md R81). -/
def word (op : Nat) (rd ra rb rc : Reg) (wl : Nat) : Word :=
  BitVec.ofNat 32
    (op * 0x1000000 + rd.val * 0x100000 + ra.val * 0x10000 + rb.val * 0x1000 + rc.val * 0x100 + wl)

/-- Completion with `W[rd] <- (len, val)` and no other change (60_exceptions.md R230). -/
def wrote (s : State) (rd : Reg) (len val : Nat) : Result :=
  .next { s with w := s.w.set rd.val (some ⟨len, val⟩), phase := .idle, done := true }

/-- Completion with `RES <- v` and no other change (60_exceptions.md R230). -/
def resulted (s : State) (v : Limb) : Result :=
  .next { s with res := v, phase := .idle, done := true }

/-- Fault entry with a code, of a command without a wide destination (60_exceptions.md R232). -/
def faulted (s : State) (code : BitVec 8) : Result :=
  .next { s with errcode := code, phase := .fault }

/-- Fault entry with a code, of a command with destination `rd` (60_exceptions.md R232). -/
def faultedAt (s : State) (code : BitVec 8) (rd : Reg) : Result :=
  .next { s with w := s.w.set rd.val none, errcode := code, phase := .fault }

/-- The rest of a step whose move is an access: the answer given, nothing else changed. -/
def answered (s : State) (rest : List Move) (a : Answer) : Result :=
  .next { s with pending := rest, answers := a :: s.answers }

/-- The architectural state at its reset values (10_state.md R42). -/
def cleared (s : State) : State :=
  { s with
    w := Vector.replicate 16 none, imm := 0, res := 0, phase := .idle, done := false,
    errcode := 0, cmdr := 0, lcnt := 0, lbuf := [] }

/-- The sum over `j < n` of `ws[j] * 2^(64*j)` (40_construct.md R102). -/
def sumLimbs (ws : List Limb) (n : Nat) : Nat :=
  ∑ j ∈ Finset.range n, (ws.getD j 0).toNat * 2 ^ (64 * j)

/-- The sum over `j < n` of `(ws[2j] * 2^32 + ws[2j+1]) * 2^(64*j)` (40_construct.md R103). -/
def sumPairs (ws : List Limb) (n : Nat) : Nat :=
  ∑ j ∈ Finset.range n,
    ((ws.getD (2 * j) 0).toNat * 2 ^ 32 + (ws.getD (2 * j + 1) 0).toNat) * 2 ^ (64 * j)

/-- The wide registers a command reads (10_state.md R25). -/
def sources : Instr → List Reg
  | .ldi _ _ | .ldw64 _ _ | .ldw32 _ _ | .ldrnd _ _ => []
  | .cvt _ ra _ | .shl _ ra | .shr _ ra | .not _ ra => [ra]
  | .iszero ra | .isodd ra | .eq64 ra | .fhb ra | .fulc ra => [ra]
  | .cmp ra rb | .add _ ra rb | .sub _ ra rb | .mul _ ra rb | .pow _ ra rb => [ra, rb]
  | .div _ ra rb _ => [ra, rb]
  | .mulmod _ ra rb rc _ | .powmod _ ra rb rc _ => [ra, rb, rc]

/-- The wide registers a command writes (10_state.md R25). -/
def destinations : Instr → List Reg
  | .ldi rd _ | .ldw64 rd _ | .ldw32 rd _ | .ldrnd rd _ => [rd]
  | .cvt rd _ _ | .shl rd _ | .shr rd _ | .not rd _ => [rd]
  | .iszero _ | .isodd _ | .eq64 _ | .fhb _ | .fulc _ | .cmp _ _ => []
  | .add rd _ _ | .sub rd _ _ | .mul rd _ _ | .pow rd _ _ => [rd]
  | .div rd _ _ rc => [rd, rc]
  | .mulmod rd _ _ _ _ | .powmod rd _ _ _ _ => [rd]

/-- The six predicate commands, which write `RES` (10_state.md R29). -/
def writesRes : Instr → Bool
  | .iszero _ | .isodd _ | .cmp _ _ | .eq64 _ | .fhb _ | .fulc _ => true
  | .ldi _ _ | .ldw64 _ _ | .ldw32 _ _ | .ldrnd _ _ | .cvt _ _ _ | .shl _ _ | .shr _ _
  | .not _ _ | .add _ _ _ | .sub _ _ _ | .mul _ _ _ | .div _ _ _ _ | .pow _ _ _
  | .mulmod _ _ _ _ _ | .powmod _ _ _ _ _ => false

/-- The opcode, bits 31:24 (30_encoding.md R81). -/
def opBits (c : Word) : Nat := c.toNat / 0x1000000

/-- Bits 23:20. -/
def rdBits (c : Word) : Nat := c.toNat / 0x100000 % 16

/-- Bits 19:16. -/
def raBits (c : Word) : Nat := c.toNat / 0x10000 % 16

/-- Bits 15:12. -/
def rbBits (c : Word) : Nat := c.toNat / 0x1000 % 16

/-- Bits 11:8. -/
def rcBits (c : Word) : Nat := c.toNat / 0x100 % 16

/-- Bits 7:0. -/
def wlBits (c : Word) : Nat := c.toNat % 0x100

/-- The reserved opcodes (30_encoding.md R88, case 1). -/
def reservedOp (op : Nat) : Prop :=
  op = 0x00 ∨ (0x06 ≤ op ∧ op ≤ 0x0F) ∨ (0x16 ≤ op ∧ op ≤ 0x1F) ∨ (0x23 ≤ op ∧ op ≤ 0x2F) ∨
    (0x35 ≤ op ∧ op ≤ 0x3F) ∨ (0x42 ≤ op ∧ op ≤ 0xFF)

/-- Every must-be-zero field of the opcode's format is zero (30_encoding.md R82, the "must be zero"
column; R88, case 2). -/
def unusedFieldsZero (c : Word) : Prop :=
  (opBits c ∈ [0x01, 0x02, 0x03, 0x04] → raBits c = 0 ∧ rbBits c = 0 ∧ rcBits c = 0) ∧
  (opBits c ∈ [0x05] → rbBits c = 0 ∧ rcBits c = 0) ∧
  (opBits c ∈ [0x10, 0x11, 0x13, 0x14, 0x15] →
    rdBits c = 0 ∧ rbBits c = 0 ∧ rcBits c = 0 ∧ wlBits c = 0) ∧
  (opBits c ∈ [0x12] → rdBits c = 0 ∧ rcBits c = 0 ∧ wlBits c = 0) ∧
  (opBits c ∈ [0x20, 0x21, 0x22] → rbBits c = 0 ∧ rcBits c = 0 ∧ wlBits c = 0) ∧
  (opBits c ∈ [0x30, 0x31, 0x32, 0x34] → rcBits c = 0 ∧ wlBits c = 0) ∧
  (opBits c ∈ [0x33] → wlBits c = 0)

/-- A word is illegal in exactly these cases (30_encoding.md R88). -/
def illegalCase (maxLimbs : Nat) (c : Word) : Prop :=
  reservedOp (opBits c) ∨ ¬ unusedFieldsZero c ∨
    (opBits c ∈ [0x01, 0x02, 0x03, 0x04, 0x05, 0x40, 0x41] ∧ (wlBits c = 0 ∨ maxLimbs < wlBits c)) ∨
    (opBits c = 0x33 ∧ rdBits c = rcBits c)

/-- The two sources of a command that needs them equally wide differ in limb count
(60_exceptions.md R231, WIDTH_MISMATCH). -/
def widthsDiffer (s : State) : Instr → Prop
  | .cmp ra rb | .add _ ra rb | .sub _ ra rb | .mul _ ra rb =>
    ∃ a b, s.reg ra = some a ∧ s.reg rb = some b ∧ a.len ≠ b.len
  | .ldi _ _ | .ldw64 _ _ | .ldw32 _ _ | .ldrnd _ _ | .cvt _ _ _ | .iszero _ | .isodd _
  | .eq64 _ | .fhb _ | .fulc _ | .shl _ _ | .shr _ _ | .not _ _ | .div _ _ _ _ | .pow _ _ _
  | .mulmod _ _ _ _ _ | .powmod _ _ _ _ _ => False

/-- The divisor of DIV is 0 (60_exceptions.md R231, DIV_ZERO). -/
def divisorIsZero (s : State) : Instr → Prop
  | .div _ _ rb _ => ∃ b, s.reg rb = some b ∧ b.val = 0
  | .ldi _ _ | .ldw64 _ _ | .ldw32 _ _ | .ldrnd _ _ | .cvt _ _ _ | .iszero _ | .isodd _
  | .cmp _ _ | .eq64 _ | .fhb _ | .fulc _ | .shl _ _ | .shr _ _ | .not _ _ | .add _ _ _
  | .sub _ _ _ | .mul _ _ _ | .pow _ _ _ | .mulmod _ _ _ _ _ | .powmod _ _ _ _ _ => False

/-- The modulus of MULMOD or POWMOD is 0 (60_exceptions.md R231, MOD_ZERO). -/
def modulusIsZero (s : State) : Instr → Prop
  | .mulmod _ _ _ rc _ | .powmod _ _ _ rc _ => ∃ m, s.reg rc = some m ∧ m.val = 0
  | .ldi _ _ | .ldw64 _ _ | .ldw32 _ _ | .ldrnd _ _ | .cvt _ _ _ | .iszero _ | .isodd _
  | .cmp _ _ | .eq64 _ | .fhb _ | .fulc _ | .shl _ _ | .shr _ _ | .not _ _ | .add _ _ _
  | .sub _ _ _ | .mul _ _ _ | .div _ _ _ _ | .pow _ _ _ => False

/-- The working width cannot hold `2·(m-1)`, for MULMOD, or `(m-1)^2`, for POWMOD, of a modulus m
above 0 (60_exceptions.md R231, WIDTH_SAFETY). -/
def widthUnsafe (s : State) : Instr → Prop
  | .mulmod _ _ _ rc wl =>
    ∃ m, s.reg rc = some m ∧ m.val ≠ 0 ∧ 2 ^ (64 * wl) ≤ 2 * (m.val - 1)
  | .powmod _ _ _ rc wl =>
    ∃ m, s.reg rc = some m ∧ m.val ≠ 0 ∧ 2 ^ (64 * wl) ≤ (m.val - 1) ^ 2
  | .ldi _ _ | .ldw64 _ _ | .ldw32 _ _ | .ldrnd _ _ | .cvt _ _ _ | .iszero _ | .isodd _
  | .cmp _ _ | .eq64 _ | .fhb _ | .fulc _ | .shl _ _ | .shr _ _ | .not _ _ | .add _ _ _
  | .sub _ _ _ | .mul _ _ _ | .div _ _ _ _ | .pow _ _ _ => False

/-- The moves that reset the block: a write of 1 to `CTRL`, or `rst` asserted
(70_reset_and_hazards.md R260). -/
def resets (m : Move) : Prop :=
  m = .access (.write 0x0028 8 1) ∨ m = .rst true

/-- Commands executed one after the other. -/
def runCommands : List Instr → State → Result
  | [], s => .next s
  | i :: is, s =>
    match exec i s with
    | .next t => runCommands is t
    | .fault f => .fault f
    | .refused r => .refused r

end Sys2Proof.Spec

open Sys2Proof Sys2Proof.Machine Sys2Proof.Safety Sys2Proof.Spec

/-! ### Encoding -/

/-- Words written out in the spec decode to the commands beside them (30_encoding.md R93, the table). -/
def Obligations.SpecWordsDecode : Prop :=
  decode 64 0x01000004#32 = .ok (.ldi 0 4) ∧ decode 64 0x03200020#32 = .ok (.ldw32 2 32) ∧
  decode 64 0x04100004#32 = .ok (.ldrnd 1 4) ∧ decode 64 0x05300020#32 = .ok (.cvt 3 0 32) ∧
  decode 64 0x14050000#32 = .ok (.fhb 5) ∧ decode 64 0x13000000#32 = .ok (.eq64 0) ∧
  decode 64 0x12012000#32 = .ok (.cmp 1 2) ∧ decode 64 0x20100000#32 = .ok (.shl 1 0) ∧
  decode 64 0x22000000#32 = .ok (.not 0 0) ∧ decode 64 0x30201000#32 = .ok (.add 2 0 1) ∧
  decode 64 0x33201300#32 = .ok (.div 2 0 1 3) ∧
  decode 64 0x40301202#32 = .ok (.mulmod 3 0 1 2 2)

/-- Every well-formed command, with every operand, is what the decoder reads from its word
(30_encoding.md R81, R83, R92), for every MAXLIMBS of 1 to 255. -/
def Obligations.DecodeOfEncodedCommand : Prop :=
  ∀ (maxLimbs : Nat) (i : Instr), maxLimbs ≤ 255 → i.wellFormed maxLimbs = true →
    decode maxLimbs (encode i) = .ok i

/-- A word the decoder takes is the word of the command it reads, and that command is well-formed: no
bit of a word is dropped (30_encoding.md R87, R92). -/
def Obligations.EncodeOfDecodedWord : Prop :=
  ∀ (maxLimbs : Nat) (c : Word) (i : Instr), decode maxLimbs c = .ok i →
    i.wellFormed maxLimbs = true ∧ encode i = c

/-- A word is illegal in exactly the four cases of 30_encoding.md R88, and then the engine's step
faults ILLEGAL and touches nothing else; every other word is executed. -/
def Obligations.IllegalWordsFault : Prop :=
  ∀ (maxLimbs : Nat) (s : State), s.phase = .run →
    (illegalCase maxLimbs s.cmdr → s.engineStep maxLimbs = faulted s 0x01) ∧
    (¬ illegalCase maxLimbs s.cmdr →
      ∃ i, decode maxLimbs s.cmdr = .ok i ∧ s.engineStep maxLimbs = exec i s)

/-! ### The step -/

/-- In RUN the engine's step is the meaning of the command in `CMDR` (20_memory.md R68;
30_encoding.md R92); the step takes its place where the total order has it, and where no move is
pending it comes next (log 1, log 2). In every other phase no engine's step is enabled, so neither a
place given to it nor an empty list changes anything of the state, but that the place is used up
(60_exceptions.md R245; 70_reset_and_hazards.md R273; log 2). -/
def Obligations.StepRunsDecodedCommand : Prop :=
  ∀ (maxLimbs : Nat) (s : State) (rest : List Move),
    (∀ i, s.phase = .run → decode maxLimbs s.cmdr = .ok i →
      (s.pending = [] → stepWith maxLimbs s = exec i s) ∧
      (s.pending = .engine :: rest → stepWith maxLimbs s = exec i { s with pending := rest })) ∧
    (s.phase = .idle ∨ s.phase = .load ∨ s.phase = .fault →
      (s.pending = [] → stepWith maxLimbs s = .next s) ∧
      (s.pending = .engine :: rest → stepWith maxLimbs s = .next { s with pending := rest }))

/-- An accepted command is executed, with its one effect, whatever accesses the host makes meanwhile
short of a reset: in RUN they change nothing but what the port has answered (20_memory.md R54, R56,
R68; 70_reset_and_hazards.md R273). That the engine moves as soon as the list of moves is empty, on which
the last step rests, is the model's choice (log 2, unsafe); the spec asks only that it moves in the
end. -/
def Obligations.AcceptedCommandIsExecuted : Prop :=
  ∀ (s : State) (i : Instr), s.phase = .run → s.rst = false →
    decode Config.maxLimbs s.cmdr = .ok i →
    (∀ m ∈ s.pending, (∃ a, m = .access a) ∧ ¬ Spec.resets m) →
    ∃ given : List Answer, given.length = s.pending.length ∧
      Host.Core.run core (s.pending.length + 1) s =
        exec i { s with pending := [], answers := given ++ s.answers }

/-! ### The commands, each rule whole -/

/-- LDI (40_construct.md R101): encoding, result, and that no state makes it fault. -/
def Obligations.LdiRule : Prop :=
  ∀ (maxLimbs : Nat) (s : State) (rd : Reg) (wl : Nat), maxLimbs ≤ 255 → 1 ≤ wl → wl ≤ maxLimbs →
    decode maxLimbs (Spec.word 0x01 rd 0 0 0 wl) = .ok (.ldi rd wl) ∧
    exec (.ldi rd wl) s = wrote s rd wl s.imm.toNat

/-- LDW64 (40_construct.md R102): the engine's step, each beat in the LOAD phase, and the refusal of a
`DIN` write in any other phase. What the load buffer holds after the last beat is left open here: the
spec gives it no content (log 6). -/
def Obligations.Ldw64Rule : Prop :=
  ∀ (maxLimbs : Nat) (s : State) (rd : Reg) (wl : Nat), maxLimbs ≤ 255 → 1 ≤ wl → wl ≤ maxLimbs →
    decode maxLimbs (Spec.word 0x02 rd 0 0 0 wl) = .ok (.ldw64 rd wl) ∧
    exec (.ldw64 rd wl) s =
      .next { s with w := s.w.set rd.val none, lcnt := 0, lbuf := [], phase := .load } ∧
    ∀ (v : Limb) (rest : List Move), s.rst = false →
      s.pending = .access (.write 0x0020 8 v) :: rest →
      (s.phase ≠ .load → stepWith maxLimbs s = answered s rest .slverr) ∧
      (Inv maxLimbs s → s.phase = .load → s.cmdr = Spec.word 0x02 rd 0 0 0 wl →
        (s.lcnt.toNat + 1 ≠ wl → stepWith maxLimbs s =
          answered { s with lbuf := s.lbuf ++ [v], lcnt := s.lcnt + 1 } rest .okay) ∧
        (s.lcnt.toNat + 1 = wl → ∃ lb, stepWith maxLimbs s =
          answered { s with
            w := s.w.set rd.val (some ⟨wl, sumLimbs (s.lbuf ++ [v]) wl⟩)
            lbuf := lb, lcnt := 0, phase := .idle, done := true } rest .okay))

/-- LDW32 (40_construct.md R103): the engine's step, a refused beat, the two words of a pair, and the
last beat, in the LOAD phase. What the load buffer holds after the last beat is left open here: the
spec gives it no content (log 6). -/
def Obligations.Ldw32Rule : Prop :=
  ∀ (maxLimbs : Nat) (s : State) (rd : Reg) (wl : Nat), maxLimbs ≤ 255 → 1 ≤ wl → wl ≤ maxLimbs →
    decode maxLimbs (Spec.word 0x03 rd 0 0 0 wl) = .ok (.ldw32 rd wl) ∧
    exec (.ldw32 rd wl) s =
      .next { s with w := s.w.set rd.val none, lcnt := 0, lbuf := [], phase := .load } ∧
    ∀ (v : Limb) (rest : List Move), Inv maxLimbs s → s.phase = .load →
      s.cmdr = Spec.word 0x03 rd 0 0 0 wl → s.rst = false →
      s.pending = .access (.write 0x0020 8 v) :: rest →
      (2 ^ 32 ≤ v.toNat → stepWith maxLimbs s = answered s rest .slverr) ∧
      (v.toNat < 2 ^ 32 → s.lcnt.toNat % 2 = 0 → stepWith maxLimbs s =
        answered { s with lbuf := s.lbuf ++ [v <<< 32], lcnt := s.lcnt + 1 } rest .okay) ∧
      (v.toNat < 2 ^ 32 → s.lcnt.toNat % 2 = 1 → ∃ buf l, s.lbuf = buf ++ [l] ∧
        (s.lcnt.toNat + 1 ≠ 2 * wl → stepWith maxLimbs s =
          answered { s with lbuf := buf ++ [l ||| v], lcnt := s.lcnt + 1 } rest .okay) ∧
        (s.lcnt.toNat + 1 = 2 * wl → ∃ lb, stepWith maxLimbs s =
          answered { s with
            w := s.w.set rd.val (some ⟨wl, sumLimbs (buf ++ [l ||| v]) wl⟩)
            lbuf := lb, lcnt := 0, phase := .idle, done := true } rest .okay))

/-- LDRND (40_construct.md R104): for every supply of words, the first to limb 0; the words taken are
used up. -/
def Obligations.LdrndRule : Prop :=
  ∀ (maxLimbs : Nat) (s : State) (rd : Reg) (wl : Nat), maxLimbs ≤ 255 → 1 ≤ wl → wl ≤ maxLimbs →
    decode maxLimbs (Spec.word 0x04 rd 0 0 0 wl) = .ok (.ldrnd rd wl) ∧
    exec (.ldrnd rd wl) s =
      wrote { s with rnd := s.rnd.drop wl, drawn := s.drawn + wl } rd wl
        (∑ j ∈ Finset.range wl,
          (s.rnd.getD j (Config.draw64 (s.drawn + j))).toNat * 2 ^ (64 * j))

/-- CVT (40_construct.md R105). -/
def Obligations.CvtRule : Prop :=
  ∀ (maxLimbs : Nat) (s : State) (rd ra : Reg) (wl : Nat), maxLimbs ≤ 255 → 1 ≤ wl →
    wl ≤ maxLimbs →
    decode maxLimbs (Spec.word 0x05 rd ra 0 0 wl) = .ok (.cvt rd ra wl) ∧
    (s.reg ra = none → exec (.cvt rd ra wl) s = faultedAt s 0x02 rd) ∧
    (∀ a, s.reg ra = some a →
      exec (.cvt rd ra wl) s = wrote s rd wl (a.val % 2 ^ (64 * wl)))

/-- ISZERO (41_predicates.md R121). -/
def Obligations.IszeroRule : Prop :=
  ∀ (maxLimbs : Nat) (s : State) (ra : Reg),
    decode maxLimbs (Spec.word 0x10 0 ra 0 0 0) = .ok (.iszero ra) ∧
    (s.reg ra = none → exec (.iszero ra) s = faulted s 0x02) ∧
    (∀ a, s.reg ra = some a → exec (.iszero ra) s = resulted s (if a.val = 0 then 1 else 0))

/-- ISODD (41_predicates.md R122). -/
def Obligations.IsoddRule : Prop :=
  ∀ (maxLimbs : Nat) (s : State) (ra : Reg),
    decode maxLimbs (Spec.word 0x11 0 ra 0 0 0) = .ok (.isodd ra) ∧
    (s.reg ra = none → exec (.isodd ra) s = faulted s 0x02) ∧
    (∀ a, s.reg ra = some a → exec (.isodd ra) s = resulted s (if a.val % 2 = 1 then 1 else 0))

/-- CMP (41_predicates.md R123), with R123's sign convention (93_implementation_defined.md U14). -/
def Obligations.CmpRule : Prop :=
  ∀ (maxLimbs : Nat) (s : State) (ra rb : Reg),
    decode maxLimbs (Spec.word 0x12 0 ra rb 0 0) = .ok (.cmp ra rb) ∧
    (s.reg ra = none ∨ s.reg rb = none → exec (.cmp ra rb) s = faulted s 0x02) ∧
    (∀ a b, s.reg ra = some a → s.reg rb = some b →
      (a.len ≠ b.len → exec (.cmp ra rb) s = faulted s 0x03) ∧
      (a.len = b.len →
        (a.val < b.val → exec (.cmp ra rb) s = resulted s 0xFFFFFFFFFFFFFFFF#64) ∧
        (a.val = b.val → exec (.cmp ra rb) s = resulted s 0) ∧
        (b.val < a.val → exec (.cmp ra rb) s = resulted s 1)))

/-- EQ64 (41_predicates.md R124). -/
def Obligations.Eq64Rule : Prop :=
  ∀ (maxLimbs : Nat) (s : State) (ra : Reg),
    decode maxLimbs (Spec.word 0x13 0 ra 0 0 0) = .ok (.eq64 ra) ∧
    (s.reg ra = none → exec (.eq64 ra) s = faulted s 0x02) ∧
    (∀ a, s.reg ra = some a →
      exec (.eq64 ra) s = resulted s (if a.val = s.imm.toNat then 1 else 0))

/-- FHB (41_predicates.md R125): 1 + the index of the most significant 1 bit, 0 for the value 0. -/
def Obligations.FhbRule : Prop :=
  ∀ (maxLimbs : Nat) (s : State) (ra : Reg), maxLimbs ≤ 255 → Inv maxLimbs s →
    decode maxLimbs (Spec.word 0x14 0 ra 0 0 0) = .ok (.fhb ra) ∧
    (s.reg ra = none → exec (.fhb ra) s = faulted s 0x02) ∧
    (∀ a, s.reg ra = some a → ∃ v : Limb, exec (.fhb ra) s = resulted s v ∧
      v.toNat ≤ 64 * a.len ∧ (a.val = 0 → v = 0) ∧
      (a.val ≠ 0 → ∃ k, v.toNat = k + 1 ∧ 2 ^ k ≤ a.val ∧ a.val < 2 ^ (k + 1)))

/-- FULC (41_predicates.md R126): the highest nonzero limb index + 1, 0 for the value 0. -/
def Obligations.FulcRule : Prop :=
  ∀ (maxLimbs : Nat) (s : State) (ra : Reg), maxLimbs ≤ 255 → Inv maxLimbs s →
    decode maxLimbs (Spec.word 0x15 0 ra 0 0 0) = .ok (.fulc ra) ∧
    (s.reg ra = none → exec (.fulc ra) s = faulted s 0x02) ∧
    (∀ a, s.reg ra = some a → ∃ v : Limb, exec (.fulc ra) s = resulted s v ∧
      v.toNat ≤ a.len ∧ (a.val = 0 → v = 0) ∧
      (a.val ≠ 0 → ∃ k, v.toNat = k + 1 ∧ limbOf a.val k ≠ 0 ∧
        ∀ j, k < j → limbOf a.val j = 0))

/-- SHL (42_bitwise.md R141), for every count. -/
def Obligations.ShlRule : Prop :=
  ∀ (maxLimbs : Nat) (s : State) (rd ra : Reg),
    decode maxLimbs (Spec.word 0x20 rd ra 0 0 0) = .ok (.shl rd ra) ∧
    (s.reg ra = none → exec (.shl rd ra) s = faultedAt s 0x02 rd) ∧
    (∀ a, s.reg ra = some a →
      exec (.shl rd ra) s = wrote s rd a.len (a.val * 2 ^ s.imm.toNat % 2 ^ (64 * a.len)) ∧
      (64 * a.len ≤ s.imm.toNat → exec (.shl rd ra) s = wrote s rd a.len 0))

/-- SHR (42_bitwise.md R142), for every count. -/
def Obligations.ShrRule : Prop :=
  ∀ (maxLimbs : Nat) (s : State) (rd ra : Reg), Inv maxLimbs s →
    decode maxLimbs (Spec.word 0x21 rd ra 0 0 0) = .ok (.shr rd ra) ∧
    (s.reg ra = none → exec (.shr rd ra) s = faultedAt s 0x02 rd) ∧
    (∀ a, s.reg ra = some a →
      exec (.shr rd ra) s = wrote s rd a.len (a.val / 2 ^ s.imm.toNat) ∧
      (64 * a.len ≤ s.imm.toNat → exec (.shr rd ra) s = wrote s rd a.len 0))

/-- NOT (42_bitwise.md R143): the value, and that every limb is flipped. -/
def Obligations.NotRule : Prop :=
  ∀ (maxLimbs : Nat) (s : State) (rd ra : Reg), Inv maxLimbs s →
    decode maxLimbs (Spec.word 0x22 rd ra 0 0 0) = .ok (.not rd ra) ∧
    (s.reg ra = none → exec (.not rd ra) s = faultedAt s 0x02 rd) ∧
    (∀ a, s.reg ra = some a →
      exec (.not rd ra) s = wrote s rd a.len (2 ^ (64 * a.len) - 1 - a.val) ∧
      ∀ j, j < a.len → limbOf (2 ^ (64 * a.len) - 1 - a.val) j =
        limbOf a.val j ^^^ 0xFFFFFFFFFFFFFFFF)

/-- ADD (43_arith.md R161). -/
def Obligations.AddRule : Prop :=
  ∀ (maxLimbs : Nat) (s : State) (rd ra rb : Reg),
    decode maxLimbs (Spec.word 0x30 rd ra rb 0 0) = .ok (.add rd ra rb) ∧
    (s.reg ra = none ∨ s.reg rb = none → exec (.add rd ra rb) s = faultedAt s 0x02 rd) ∧
    (∀ a b, s.reg ra = some a → s.reg rb = some b →
      (a.len ≠ b.len → exec (.add rd ra rb) s = faultedAt s 0x03 rd) ∧
      (a.len = b.len →
        exec (.add rd ra rb) s = wrote s rd a.len ((a.val + b.val) % 2 ^ (64 * a.len))))

/-- SUB (43_arith.md R163). -/
def Obligations.SubRule : Prop :=
  ∀ (maxLimbs : Nat) (s : State) (rd ra rb : Reg), Inv maxLimbs s →
    decode maxLimbs (Spec.word 0x31 rd ra rb 0 0) = .ok (.sub rd ra rb) ∧
    (s.reg ra = none ∨ s.reg rb = none → exec (.sub rd ra rb) s = faultedAt s 0x02 rd) ∧
    (∀ a b, s.reg ra = some a → s.reg rb = some b →
      (a.len ≠ b.len → exec (.sub rd ra rb) s = faultedAt s 0x03 rd) ∧
      (a.len = b.len → b.val ≤ a.val →
        exec (.sub rd ra rb) s = wrote s rd a.len (a.val - b.val)) ∧
      (a.len = b.len → a.val < b.val →
        exec (.sub rd ra rb) s = wrote s rd a.len (2 ^ (64 * a.len) + a.val - b.val)))

/-- MUL (43_arith.md R165). -/
def Obligations.MulRule : Prop :=
  ∀ (maxLimbs : Nat) (s : State) (rd ra rb : Reg),
    decode maxLimbs (Spec.word 0x32 rd ra rb 0 0) = .ok (.mul rd ra rb) ∧
    (s.reg ra = none ∨ s.reg rb = none → exec (.mul rd ra rb) s = faultedAt s 0x02 rd) ∧
    (∀ a b, s.reg ra = some a → s.reg rb = some b →
      (a.len ≠ b.len → exec (.mul rd ra rb) s = faultedAt s 0x03 rd) ∧
      (a.len = b.len →
        exec (.mul rd ra rb) s = wrote s rd a.len (a.val * b.val % 2 ^ (64 * a.len))))

/-- DIV (43_arith.md R167, with `rd ≠ rc` by 30_encoding.md R91): both results at the dividend's width,
and both destinations taken away by a fault. -/
def Obligations.DivRule : Prop :=
  ∀ (maxLimbs : Nat) (s : State) (rd ra rb rc : Reg), rd ≠ rc →
    decode maxLimbs (Spec.word 0x33 rd ra rb rc 0) = .ok (.div rd ra rb rc) ∧
    (s.reg ra = none ∨ s.reg rb = none → exec (.div rd ra rb rc) s =
      .next { s with
        w := (s.w.set rd.val none).set rc.val none, errcode := 0x02, phase := .fault }) ∧
    (∀ a b, s.reg ra = some a → s.reg rb = some b →
      (b.val = 0 → exec (.div rd ra rb rc) s =
        .next { s with
          w := (s.w.set rd.val none).set rc.val none, errcode := 0x04, phase := .fault }) ∧
      (b.val ≠ 0 → ∃ q r, b.val * q + r = a.val ∧ r < b.val ∧
        exec (.div rd ra rb rc) s =
          .next { s with
            w := (s.w.set rd.val (some ⟨a.len, q⟩)).set rc.val (some ⟨a.len, r⟩)
            phase := .idle, done := true }))

/-- POW (43_arith.md R169): the true power modulo `2^N`, for an exponent of any width. -/
def Obligations.PowRule : Prop :=
  ∀ (maxLimbs : Nat) (s : State) (rd ra rb : Reg), Inv maxLimbs s →
    decode maxLimbs (Spec.word 0x34 rd ra rb 0 0) = .ok (.pow rd ra rb) ∧
    (s.reg ra = none ∨ s.reg rb = none → exec (.pow rd ra rb) s = faultedAt s 0x02 rd) ∧
    (∀ a e, s.reg ra = some a → s.reg rb = some e →
      exec (.pow rd ra rb) s = wrote s rd a.len (a.val ^ e.val % 2 ^ (64 * a.len)))

/-- MULMOD (44_modular.md R210), its checks in the order of 60_exceptions.md R233. -/
def Obligations.MulmodRule : Prop :=
  ∀ (maxLimbs : Nat) (s : State) (rd ra rb rc : Reg) (wl : Nat), maxLimbs ≤ 255 → 1 ≤ wl →
    wl ≤ maxLimbs →
    decode maxLimbs (Spec.word 0x40 rd ra rb rc wl) = .ok (.mulmod rd ra rb rc wl) ∧
    (s.reg ra = none ∨ s.reg rb = none ∨ s.reg rc = none →
      exec (.mulmod rd ra rb rc wl) s = faultedAt s 0x02 rd) ∧
    (∀ a b m, s.reg ra = some a → s.reg rb = some b → s.reg rc = some m →
      (m.val = 0 → exec (.mulmod rd ra rb rc wl) s = faultedAt s 0x05 rd) ∧
      (m.val ≠ 0 → 2 ^ (64 * wl) ≤ 2 * (m.val - 1) →
        exec (.mulmod rd ra rb rc wl) s = faultedAt s 0x06 rd) ∧
      (m.val ≠ 0 → 2 * (m.val - 1) < 2 ^ (64 * wl) →
        exec (.mulmod rd ra rb rc wl) s = wrote s rd wl (a.val * b.val % m.val) ∧
        a.val * b.val % m.val < 2 ^ (64 * wl)))

/-- POWMOD (44_modular.md R211, R213), its checks in the order of 60_exceptions.md R233; the exponent 0
gives 1 for every modulus, 1 included. -/
def Obligations.PowmodRule : Prop :=
  ∀ (maxLimbs : Nat) (s : State) (rd ra rb rc : Reg) (wl : Nat), maxLimbs ≤ 255 → 1 ≤ wl →
    wl ≤ maxLimbs →
    decode maxLimbs (Spec.word 0x41 rd ra rb rc wl) = .ok (.powmod rd ra rb rc wl) ∧
    (s.reg ra = none ∨ s.reg rb = none ∨ s.reg rc = none →
      exec (.powmod rd ra rb rc wl) s = faultedAt s 0x02 rd) ∧
    (∀ a e m, s.reg ra = some a → s.reg rb = some e → s.reg rc = some m →
      (m.val = 0 → exec (.powmod rd ra rb rc wl) s = faultedAt s 0x05 rd) ∧
      (m.val ≠ 0 → 2 ^ (64 * wl) ≤ (m.val - 1) ^ 2 →
        exec (.powmod rd ra rb rc wl) s = faultedAt s 0x06 rd) ∧
      (m.val ≠ 0 → (m.val - 1) ^ 2 < 2 ^ (64 * wl) →
        (e.val = 0 → exec (.powmod rd ra rb rc wl) s = wrote s rd wl 1) ∧
        (e.val ≠ 0 → exec (.powmod rd ra rb rc wl) s = wrote s rd wl (a.val ^ e.val % m.val) ∧
          a.val ^ e.val % m.val < 2 ^ (64 * wl))))

/-! ### What commands leave alone, and faults -/

/-- A command writes its destinations and nothing else (10_state.md R25, R28, R29): every other wide
register, `IMM`, `CMDR`, the input `rst`, the host's moves and answers stay, `RES` is written by the six
predicates only, the load counter and buffer by the loads only, the entropy input is used by LDRND
only. -/
def Obligations.CommandFrame : Prop :=
  ∀ (i : Instr) (s t : State), exec i s = .next t →
    (∀ r, r ∉ destinations i → t.reg r = s.reg r) ∧
    (writesRes i = false → t.res = s.res) ∧
    t.imm = s.imm ∧ t.cmdr = s.cmdr ∧ t.rst = s.rst ∧ t.pending = s.pending ∧
    t.answers = s.answers ∧
    ((∀ rd wl, i ≠ .ldw64 rd wl ∧ i ≠ .ldw32 rd wl) → t.lcnt = s.lcnt ∧ t.lbuf = s.lbuf) ∧
    ((∀ rd wl, i ≠ .ldrnd rd wl) → t.rnd = s.rnd ∧ t.drawn = s.drawn)

/-- Every command ends in the engine's step in exactly one of two ways, completion or fault, but for
the two loads, which enter LOAD (60_exceptions.md R230); no state stops it. -/
def Obligations.CompletionOrFault : Prop :=
  ∀ (i : Instr) (s : State), s.errcode = 0 → ∃ t, exec i s = .next t ∧
    ((t.phase = .idle ∧ t.done = true ∧ t.errcode = 0) ∨
      (t.phase = .fault ∧ t.done = s.done ∧ t.errcode ≠ 0) ∨
      (t.phase = .load ∧ t.done = s.done ∧ t.errcode = 0 ∧
        ∃ rd wl, i = .ldw64 rd wl ∨ i = .ldw32 rd wl))

/-- Fault entry (60_exceptions.md R232): an illegal word changes the code and the phase and nothing
else; a fault of a command also takes its destinations away; every other register and field is as
before, and `STATUS` shows FAULT without BUSY, DONE or DREQ. -/
def Obligations.FaultIsPrecise : Prop :=
  ∀ (maxLimbs : Nat) (s t : State), Inv maxLimbs s → s.phase = .run →
    s.engineStep maxLimbs = .next t → t.phase = .fault →
    t.status.toNat % 16 = 4 ∧
    ((∀ i, decode maxLimbs s.cmdr ≠ .ok i) → t = { s with errcode := 0x01, phase := .fault }) ∧
    ∀ i, decode maxLimbs s.cmdr = .ok i →
      2 ≤ t.errcode.toNat ∧ t.errcode.toNat ≤ 6 ∧
      t = { s with w := t.w, errcode := t.errcode, phase := .fault } ∧
      (∀ r, r ∈ destinations i → t.reg r = none) ∧
      ∀ r, r ∉ destinations i → t.reg r = s.reg r

/-- Which fault a command word raises (60_exceptions.md R231) and which comes first when several of its
causes hold (R233); with none of them there is no fault. What a fault records stays: `CMDR`, `IMM`. -/
def Obligations.FaultCausesAndPriority : Prop :=
  ∀ (maxLimbs : Nat) (s : State), s.phase = .run → s.errcode = 0 →
    ∃ t, s.engineStep maxLimbs = .next t ∧ t.cmdr = s.cmdr ∧ t.imm = s.imm ∧
      (illegalCase maxLimbs s.cmdr → t.errcode = 0x01) ∧
      ∀ i, decode maxLimbs s.cmdr = .ok i →
        ((∃ r ∈ sources i, s.reg r = none) → t.errcode = 0x02) ∧
        ((∀ r ∈ sources i, s.reg r ≠ none) →
          (widthsDiffer s i → t.errcode = 0x03) ∧
          (divisorIsZero s i → t.errcode = 0x04) ∧
          (modulusIsZero s i → t.errcode = 0x05) ∧
          (widthUnsafe s i → t.errcode = 0x06) ∧
          (¬ widthsDiffer s i → ¬ divisorIsZero s i → ¬ modulusIsZero s i → ¬ widthUnsafe s i →
            t.errcode = 0))

/-- The FAULT phase is left only by reset, which discards every wide register (60_exceptions.md R236):
any other move keeps the phase, the code and every register, no further command runs, and writes to
`CMD`, `IMM` and `DIN` are refused. -/
def Obligations.FaultIsSticky : Prop :=
  ∀ (maxLimbs : Nat) (s t : State), s.phase = .fault → stepWith maxLimbs s = .next t →
    ((∃ m rest, s.pending = m :: rest ∧ Spec.resets m ∧ t.phase = .idle ∧ t.errcode = 0 ∧
        ∀ r, t.reg r = none) ∨
      t = { s with pending := t.pending, answers := t.answers, rst := t.rst }) ∧
    ∀ (off : Offset) (v : Limb) (rest : List Move),
      off = 0x0000 ∨ off = 0x0008 ∨ off = 0x0020 → s.rst = false →
      s.pending = .access (.write off 8 v) :: rest → t = { s with
        pending := rest, answers := .slverr :: s.answers }

/-! ### The port -/

/-- An access that is not 8 bytes at a multiple of 8 is refused and changes nothing
(20_memory.md R51). -/
def Obligations.MisshapenAccessRefused : Prop :=
  ∀ (maxLimbs : Nat) (s : State) (off : Offset) (size : Nat) (v : Limb) (rest : List Move),
    s.rst = false → (size ≠ 8 ∨ off.toNat % 8 ≠ 0) →
    (s.pending = .access (.read off size) :: rest →
      stepWith maxLimbs s = answered s rest .slverr) ∧
    (s.pending = .access (.write off size v) :: rest →
      stepWith maxLimbs s = answered s rest .slverr)

/-- Which aligned 8-byte reads are answered with data, by offset, phase and register: exactly those of
the map (20_memory.md R55), the phase table (R56) and the window rule (R58); every other read,
reserved offsets and write-only registers included (R65), is refused. -/
def Obligations.ReadPermissions : Prop :=
  ∀ (maxLimbs : Nat) (s : State) (off : Offset) (rest : List Move), s.rst = false →
    maxLimbs ≤ 255 → Inv maxLimbs s →
    off.toNat % 8 = 0 → s.pending = .access (.read off 8) :: rest →
    let granted : Prop :=
      off.toNat = 0x10 ∨ off.toNat = 0x30 ∨ off.toNat = 0x38 ∨
      ((s.phase = .idle ∨ s.phase = .fault) ∧
        (off.toNat = 0x08 ∨ off.toNat = 0x18 ∨ (0x80 ≤ off.toNat ∧ off.toNat ≤ 0xF8) ∨
          ∃ (i : Reg) (j : Nat) (a : Wide), off.toNat = 0x1000 + 0x800 * i.val + 8 * j ∧
            s.reg i = some a ∧ j < a.len))
    (granted → ∃ v, stepWith maxLimbs s = answered s rest (.data v)) ∧
    (¬ granted → stepWith maxLimbs s = answered s rest .slverr)

/-- Which aligned 8-byte writes are answered `OKAY`: exactly those of the phase table (20_memory.md R56)
whose value passes the register's check (R61, R62, R63, R64); every other write is refused and changes
nothing (R54, R65). -/
def Obligations.WritePermissions : Prop :=
  ∀ (maxLimbs : Nat) (s : State) (off : Offset) (v : Limb) (rest : List Move), s.rst = false →
    Inv maxLimbs s → off.toNat % 8 = 0 → s.pending = .access (.write off 8 v) :: rest →
    let granted : Prop :=
      (off.toNat = 0x00 ∧ s.phase = .idle ∧ v.toNat < 2 ^ 32) ∨
      (off.toNat = 0x08 ∧ s.phase = .idle) ∨
      (off.toNat = 0x20 ∧ s.phase = .load ∧
        ((∃ rd wl, decode maxLimbs s.cmdr = .ok (.ldw32 rd wl)) → v.toNat < 2 ^ 32)) ∨
      (off.toNat = 0x28 ∧ v.toNat ≤ 1)
    (granted → ∃ t, stepWith maxLimbs s = .next t ∧ t.pending = rest ∧
      t.answers = .okay :: s.answers) ∧
    (¬ granted → stepWith maxLimbs s = answered s rest .slverr)

/-- Acceptance of a command word (20_memory.md R62): nothing is decoded, and a word whose write has an
upper half that is not zero is refused. -/
def Obligations.CommandAcceptance : Prop :=
  ∀ (maxLimbs : Nat) (s : State) (v : Limb) (rest : List Move), s.rst = false →
    s.pending = .access (.write 0x0000 8 v) :: rest →
    (s.phase = .idle → v.toNat < 2 ^ 32 → stepWith maxLimbs s =
      answered { s with cmdr := BitVec.ofNat 32 v.toNat, done := false, phase := .run } rest .okay) ∧
    (s.phase ≠ .idle ∨ 2 ^ 32 ≤ v.toNat → stepWith maxLimbs s = answered s rest .slverr)

/-- `IMM` (20_memory.md R63): a write in IDLE sets all 64 bits, a read in IDLE and FAULT returns them. -/
def Obligations.ImmAccess : Prop :=
  ∀ (maxLimbs : Nat) (s : State) (v : Limb) (rest : List Move), s.rst = false →
    (s.pending = .access (.write 0x0008 8 v) :: rest →
      (s.phase = .idle → stepWith maxLimbs s = answered { s with imm := v } rest .okay) ∧
      (s.phase ≠ .idle → stepWith maxLimbs s = answered s rest .slverr)) ∧
    (s.pending = .access (.read 0x0008 8) :: rest →
      (s.phase = .idle ∨ s.phase = .fault →
        stepWith maxLimbs s = answered s rest (.data s.imm)) ∧
      (s.phase = .run ∨ s.phase = .load → stepWith maxLimbs s = answered s rest .slverr))

/-- `CTRL` (20_memory.md R64): in every phase a write of 1 resets the block, a write of 0 does nothing,
and any other value is refused. -/
def Obligations.CtrlWrite : Prop :=
  ∀ (maxLimbs : Nat) (s : State) (v : Limb) (rest : List Move), s.rst = false →
    s.pending = .access (.write 0x0028 8 v) :: rest →
    (v = 1 → stepWith maxLimbs s = answered (cleared s) rest .okay) ∧
    (v = 0 → stepWith maxLimbs s = answered s rest .okay) ∧
    (1 < v.toNat → stepWith maxLimbs s = answered s rest .slverr)

/-- The hard reset (70_reset_and_hazards.md R260, R261): while `rst` is asserted the block is held in
the reset state, whatever else happens, and the port answers nothing (log 8). -/
def Obligations.HardReset : Prop :=
  ∀ (maxLimbs : Nat) (s : State) (rest : List Move),
    (s.pending = .rst true :: rest →
      stepWith maxLimbs s = .next { cleared s with rst := true, pending := rest }) ∧
    (∀ t, Inv maxLimbs s → s.rst = true → stepWith maxLimbs s = .next t →
      cleared t = t ∧
      ∀ a, s.pending = .access a :: rest → t.answers = .unanswered :: s.answers)

/-- Every bit of `STATUS`, its value after reset, and its read in every phase (10_state.md R31). What R31
derives for the states the block reaches is said by the invariant. -/
def Obligations.StatusBits : Prop :=
  ∀ s : State,
    (s.status.toNat % 2 = 1 ↔ s.phase = .run ∨ s.phase = .load) ∧
    (s.status.toNat / 2 % 2 = 1 ↔ s.done = true) ∧
    (s.status.toNat / 4 % 2 = 1 ↔ s.phase = .fault) ∧
    (s.status.toNat / 8 % 2 = 1 ↔ s.phase = .load) ∧
    s.status.toNat / 16 % 16 = 0 ∧
    s.status.toNat / 256 % 256 = s.errcode.toNat ∧
    s.status.toNat / 65536 % 65536 = s.lcnt.toNat ∧
    s.status.toNat / 4294967296 = 0 ∧
    State.reset.status = 0 ∧
    ∀ (maxLimbs : Nat) (rest : List Move), s.rst = false →
      s.pending = .access (.read 0x0010 8) :: rest →
      stepWith maxLimbs s = answered s rest (.data s.status)

/-- What the readable registers read as: `STATUS`, `CAP` and `CMDR` in every phase (10_state.md R31,
R33, R34), `RES` and `WLEN[i]` in IDLE and FAULT (R29, R35). Of R29 and R34 it says the read only; who
writes `RES` and `CMDR` is said by the statements of the commands and of `CMD`. -/
def Obligations.RegisterReads : Prop :=
  ∀ (maxLimbs : Nat) (s : State) (i : Reg) (rest : List Move), s.rst = false → maxLimbs ≤ 255 →
    (s.pending = .access (.read 0x0010 8) :: rest →
      stepWith maxLimbs s = answered s rest (.data s.status)) ∧
    (s.pending = .access (.read 0x0030 8) :: rest → ∃ v, v.toNat = 0x01400010 + 0x100 * maxLimbs ∧
      stepWith maxLimbs s = answered s rest (.data v)) ∧
    (s.pending = .access (.read 0x0038 8) :: rest → ∃ v, v.toNat = s.cmdr.toNat ∧
      stepWith maxLimbs s = answered s rest (.data v)) ∧
    (s.phase = .idle ∨ s.phase = .fault →
      (s.pending = .access (.read 0x0018 8) :: rest →
        stepWith maxLimbs s = answered s rest (.data s.res)) ∧
      (∀ off : Offset, off.toNat = 0x0080 + 8 * i.val →
        s.pending = .access (.read off 8) :: rest →
        (s.reg i = none → stepWith maxLimbs s = answered s rest (.data 0)) ∧
        (∀ a, s.reg i = some a → WideOk maxLimbs a → ∃ v, v.toNat = a.len ∧
          stepWith maxLimbs s = answered s rest (.data v))))

/-- The window (20_memory.md R58): limb j of the value for j below the limb count, refused otherwise;
refused for an unconstructed register, and in RUN and LOAD. -/
def Obligations.WindowReads : Prop :=
  ∀ (maxLimbs : Nat) (s : State) (i : Reg) (j : Nat) (off : Offset) (rest : List Move),
    s.rst = false → j ≤ 254 →
    off.toNat = 0x1000 + 0x800 * i.val + 8 * j → s.pending = .access (.read off 8) :: rest →
    (s.phase = .run ∨ s.phase = .load → stepWith maxLimbs s = answered s rest .slverr) ∧
    (s.phase = .idle ∨ s.phase = .fault →
      (s.reg i = none → stepWith maxLimbs s = answered s rest .slverr) ∧
      (∀ a, s.reg i = some a →
        (a.len ≤ j → stepWith maxLimbs s = answered s rest .slverr) ∧
        (j < a.len → ∃ v, v.toNat = a.val / 2 ^ (64 * j) % 2 ^ 64 ∧
          stepWith maxLimbs s = answered s rest (.data v))))

/-- The byte-buffer export (20_memory.md R60): the bytes the host lays out from the window reads of all
limbs are the value's `8·L` bytes, least significant first. -/
def Obligations.ByteBufferExport : Prop :=
  ∀ (maxLimbs : Nat) (s : State) (i : Reg) (a : Wide), maxLimbs ≤ 255 → Inv maxLimbs s →
    (s.phase = .idle ∨ s.phase = .fault) → s.reg i = some a →
    ∃ bytes, s.windowBytes maxLimbs i a.len = some bytes ∧ bytes.length = 8 * a.len ∧
      ∀ k, k < 8 * a.len → ∃ b, bytes[k]? = some b ∧ b.toNat = a.val / 2 ^ (8 * k) % 256

/-- No read has a side effect (20_memory.md R52, R66). -/
def Obligations.ReadsChangeNothing : Prop :=
  ∀ (maxLimbs : Nat) (s : State) (off : Offset) (size : Nat) (rest : List Move),
    s.pending = .access (.read off size) :: rest →
    ∃ a, stepWith maxLimbs s = answered s rest a

/-! ### The whole machine -/

/-- Every value after reset, views included, and that a reset gives the block of any state these values
(10_state.md R42). -/
def Obligations.ResetValues : Prop :=
  (∀ i, State.reset.reg i = none ∧ State.reset.wlen i = 0) ∧
  State.reset.imm = 0 ∧ State.reset.res = 0 ∧ State.reset.phase = .idle ∧
  State.reset.done = false ∧ State.reset.errcode = 0 ∧ State.reset.cmdr = 0 ∧
  State.reset.lcnt = 0 ∧ State.reset.lbuf = [] ∧ State.reset.status = 0 ∧
  capWord 64 = 0x0000000001404010 ∧
  ∀ s : State, s.applyReset.toBlock = State.reset.toBlock

/-- The invariant holds after reset (10_state.md R42). -/
def Obligations.ResetMeetsTheInvariant : Prop :=
  ∀ maxLimbs : Nat, Inv maxLimbs State.reset

/-- Every step keeps the invariant, from every state that meets it: registers in their form, ERRCODE
and phase in step, DONE only in IDLE, counter and buffer those of the load in `CMDR` (10_state.md R21,
R30, R31, R36, R37, R38). -/
def Obligations.StepKeepsTheInvariant : Prop :=
  ∀ (maxLimbs : Nat) (s t : State), maxLimbs ≤ 255 → Inv maxLimbs s →
    stepWith maxLimbs s = .next t → Inv maxLimbs t

/-- Each phase is left only by what the table of 10_state.md R30 names, or by a reset: IDLE by a legal
write to `CMD`; RUN by the engine's step, to LOAD only with LDW64 or LDW32 in `CMDR`; LOAD by the last
beat. That an empty list of moves is the engine's turn is the model's choice (log 2). -/
def Obligations.PhasesAreLeftOnlyAsStated : Prop :=
  ∀ (maxLimbs : Nat) (s t : State), stepWith maxLimbs s = .next t → t.phase ≠ s.phase →
    (∃ m rest, s.pending = m :: rest ∧ Spec.resets m ∧ t.phase = .idle) ∨
    (s.phase = .idle ∧ t.phase = .run ∧
      ∃ v rest, s.pending = .access (.write 0x0000 8 v) :: rest ∧ v.toNat < 2 ^ 32) ∨
    (s.phase = .run ∧ (s.pending = [] ∨ ∃ rest, s.pending = .engine :: rest) ∧
      (t.phase = .load → ∃ rd wl,
        decode maxLimbs s.cmdr = .ok (.ldw64 rd wl) ∨ decode maxLimbs s.cmdr = .ok (.ldw32 rd wl))) ∨
    (s.phase = .load ∧ t.phase = .idle ∧
      ∃ v rest rd wl, s.pending = .access (.write 0x0020 8 v) :: rest ∧
        ((decode maxLimbs s.cmdr = .ok (.ldw64 rd wl) ∧ s.lcnt.toNat + 1 = wl) ∨
          (decode maxLimbs s.cmdr = .ok (.ldw32 rd wl) ∧ v.toNat < 2 ^ 32 ∧
            s.lcnt.toNat + 1 = 2 * wl)))

/-- Only the host changes `IMM`, by a write in IDLE or by a reset (10_state.md R28). -/
def Obligations.OnlyTheHostWritesImm : Prop :=
  ∀ (maxLimbs : Nat) (s t : State), stepWith maxLimbs s = .next t → t.imm ≠ s.imm →
    (∃ m rest, s.pending = m :: rest ∧ Spec.resets m) ∨
    (s.phase = .idle ∧ ∃ rest, s.pending = .access (.write 0x0008 8 t.imm) :: rest)

/-- While BUSY no access shows anything of the wide registers, `IMM` and `RES`: the port answers two
blocks that differ only there alike (20_memory.md R56; 10_state.md R39). -/
def Obligations.BusyHidesTheRegisters : Prop :=
  ∀ (maxLimbs : Nat) (s u s' u' : State) (a : Access) (rest : List Move),
    (s.phase = .run ∨ s.phase = .load) → s.pending = .access a :: rest →
    (∃ w imm res, u = { s with w := w, imm := imm, res := res }) →
    stepWith maxLimbs s = .next s' → stepWith maxLimbs u = .next u' →
    s'.answers = u'.answers

/-- After a reset nothing of the block's earlier state can be learnt: two blocks that agree in what lies
outside them are one and the same state from then on, and every window read is refused
(70_reset_and_hazards.md R262). -/
def Obligations.ResetLeavesNoSecret : Prop :=
  ∀ (maxLimbs : Nat) (s u s' u' : State) (m : Move) (rest : List Move), Spec.resets m →
    s.rst = u.rst → s.rnd = u.rnd → s.drawn = u.drawn → s.answers = u.answers →
    s.pending = m :: rest → u.pending = m :: rest → Inv maxLimbs s → Inv maxLimbs u →
    stepWith maxLimbs s = .next s' → stepWith maxLimbs u = .next u' →
    s' = u' ∧ ∀ i j, j ≤ 254 → s'.busRead maxLimbs (winOffset i j) 8 = none

/-! ### Whole loads -/

/-- A whole LDW64 (40_construct.md R102): from the engine's step through `wl` beats, the register takes
the value at the last beat and the command is complete. That the load buffer is empty then is the model's
own (log 6): the spec gives it no content outside LOAD. -/
def Obligations.WholeLoadOfLimbs : Prop :=
  ∀ (s : State) (rd : Reg) (wl : Nat) (words : List Limb) (rest : List Move), s.rst = false →
    s.phase = .run → 1 ≤ wl → wl ≤ Config.maxLimbs → s.cmdr = Spec.word 0x02 rd 0 0 0 wl →
    words.length = wl → s.pending = .engine :: (words.map beatMove ++ rest) →
    Host.Core.run core (1 + wl) s =
      .next { s with
        w := s.w.set rd.val (some ⟨wl, sumLimbs words wl⟩)
        phase := .idle, done := true, lcnt := 0, lbuf := [], pending := rest
        answers := List.replicate wl .okay ++ s.answers }

/-- A whole LDW32 (40_construct.md R103): from the engine's step through `2·wl` beats, the first word of
a pair the high half of its limb, the first pair limb 0. That the load buffer is empty at the end is the
model's choice (log 6): the spec gives it no content outside LOAD. -/
def Obligations.WholeLoadOfHalfLimbs : Prop :=
  ∀ (s : State) (rd : Reg) (wl : Nat) (words : List Limb) (rest : List Move), s.rst = false →
    s.phase = .run → 1 ≤ wl → wl ≤ Config.maxLimbs → s.cmdr = Spec.word 0x03 rd 0 0 0 wl →
    words.length = 2 * wl → (∀ v ∈ words, v.toNat < 2 ^ 32) →
    s.pending = .engine :: (words.map beatMove ++ rest) →
    Host.Core.run core (1 + 2 * wl) s =
      .next { s with
        w := s.w.set rd.val (some ⟨wl, sumPairs words wl⟩)
        phase := .idle, done := true, lcnt := 0, lbuf := [], pending := rest
        answers := List.replicate (2 * wl) .okay ++ s.answers }

/-! ### The algorithms give the values -/

/-- The limb-by-limb forms the spec derives agree with the values: comparison from the top limb down
(41_predicates.md R123), the limbs of a left and of a right shift by any count (42_bitwise.md R141,
R142). -/
def Obligations.LimbForms : Prop :=
  ∀ (len a b k : Nat), a < 2 ^ (64 * len) → b < 2 ^ (64 * len) →
    (a < b → compareLimbs a b len = -1) ∧ (a = b → compareLimbs a b len = 0) ∧
    (b < a → compareLimbs a b len = 1) ∧
    ∀ j, j < len → limbOf (a * 2 ^ k % 2 ^ (64 * len)) j = shlLimb a k j ∧
      limbOf (a / 2 ^ k) j = shrLimb len a k j

/-- The ripple-carry adder gives the sum modulo `2^N` (43_arith.md R162); subtraction by the two's
complement through it gives the difference modulo `2^N`, and so does one pass with the limbs
complemented and carry 1 (R164); shift-and-add multiplication over it gives the product modulo `2^N`
(R166), and square-and-multiply over that the power, for an exponent of any limb count (R169, R170). -/
def Obligations.RippleCarryArithmetic : Prop :=
  ∀ (len a b e : Nat), a < 2 ^ (64 * len) → b < 2 ^ (64 * len) →
    rippleAdd len a b 0 = (a + b) % 2 ^ (64 * len) ∧
    subByComplement len a b = (a + 2 ^ (64 * len) - b) % 2 ^ (64 * len) ∧
    rippleAdd len a (2 ^ (64 * len) - 1 - b) 1 = (a + 2 ^ (64 * len) - b) % 2 ^ (64 * len) ∧
    longMul len a b = a * b % 2 ^ (64 * len) ∧
    (1 ≤ len → longPow len a e = a ^ e % 2 ^ (64 * len))

/-- Binary long division gives quotient and remainder for every pair of widths (43_arith.md R168,
90_conflicts.md C3). -/
def Obligations.LongDivision : Prop :=
  ∀ (a b : Nat), 0 < b → longDiv a b = (a / b, a % b)

/-- The subtract-until-below reducer gives the remainder, strictly below the modulus (44_modular.md
R201, 90_conflicts.md C1), MulModCore over it the exact product modulo `m` for every pair of operands
(R202), and PowModCore over that the power modulo `m` for an exponent above 0, and 1 for the exponent 0
(R212, R213). -/
def Obligations.ModularAlgorithms : Prop :=
  ∀ (m : Nat), 0 < m →
    (∀ x, reduce x m = x % m ∧ reduce x m < m) ∧
    (∀ a b, mulModCore m a b = a * b % m) ∧
    ∀ base e, (e = 0 → powModCore m base e = 1) ∧ (e ≠ 0 → powModCore m base e = base ^ e % m)

/-! ### Commands together -/

/-- The source's shift property (42_bitwise.md R144): SHL then SHR by the same count up to N leaves the
low N - k bits. -/
def Obligations.ShiftLeftThenRight : Prop :=
  ∀ (maxLimbs : Nat) (s : State) (rd ra : Reg) (a : Wide), Inv maxLimbs s → s.reg ra = some a →
    s.imm.toNat ≤ 64 * a.len →
    ∃ t, runCommands [.shl rd ra, .shr rd rd] s = .next t ∧
      t.reg rd = some ⟨a.len, a.val % 2 ^ (64 * a.len - s.imm.toNat)⟩

/-- The source's ring identities (43_arith.md R171): `(a + b) - b = a`, and `a - (a + b) = -b` with `-b`
made by NOT and an addition of 1. -/
def Obligations.RingIdentities : Prop :=
  ∀ (maxLimbs : Nat) (s : State) (a b one : Wide), Inv maxLimbs s → s.reg 0 = some a →
    s.reg 1 = some b → s.reg 6 = some one → a.len = b.len → one = ⟨a.len, 1⟩ →
    ∃ t, runCommands
        [.add 2 0 1, .sub 3 2 1, .sub 4 0 2, .not 5 1, .add 5 5 6] s = .next t ∧
      t.reg 3 = some a ∧ t.reg 4 = t.reg 5 ∧
      t.reg 4 = some ⟨a.len, (2 ^ (64 * a.len) - b.val) % 2 ^ (64 * a.len)⟩

/-- The Diffie-Hellman exchange the block is for (44_modular.md R211, section 6): for every modulus that
passes the check and is at least 2, and every generator and private exponents, 0 included, both parties
compute one secret. -/
def Obligations.SharedSecretsAgree : Prop :=
  ∀ (s : State) (p g x y : Wide) (wl : Nat), s.reg 0 = some p → s.reg 1 = some g →
    s.reg 2 = some x → s.reg 3 = some y → 2 ≤ p.val → (p.val - 1) ^ 2 < 2 ^ (64 * wl) →
    ∃ t v, runCommands
        [.powmod 4 1 2 0 wl, .powmod 5 1 3 0 wl, .powmod 6 5 2 0 wl, .powmod 7 4 3 0 wl] s =
          .next t ∧
      t.reg 6 = some v ∧ t.reg 7 = some v ∧ v.len = wl
end

