-- ==== Sys2Proof/Laws/State.lean ====
section
/-! SUPPORT. Every field after every update of the state, true by definition. -/

namespace Sys2Proof.Machine.State

@[simp] theorem setReg_w (s : State) (i : Reg) (v : Option Wide) :
    (s.setReg i v).w = s.w.set i.val v := rfl
@[simp] theorem setReg_imm (s : State) (i : Reg) (v : Option Wide) :
    (s.setReg i v).imm = s.imm := rfl
@[simp] theorem setReg_res (s : State) (i : Reg) (v : Option Wide) :
    (s.setReg i v).res = s.res := rfl
@[simp] theorem setReg_phase (s : State) (i : Reg) (v : Option Wide) :
    (s.setReg i v).phase = s.phase := rfl
@[simp] theorem setReg_done (s : State) (i : Reg) (v : Option Wide) :
    (s.setReg i v).done = s.done := rfl
@[simp] theorem setReg_errcode (s : State) (i : Reg) (v : Option Wide) :
    (s.setReg i v).errcode = s.errcode := rfl
@[simp] theorem setReg_cmdr (s : State) (i : Reg) (v : Option Wide) :
    (s.setReg i v).cmdr = s.cmdr := rfl
@[simp] theorem setReg_lcnt (s : State) (i : Reg) (v : Option Wide) :
    (s.setReg i v).lcnt = s.lcnt := rfl
@[simp] theorem setReg_lbuf (s : State) (i : Reg) (v : Option Wide) :
    (s.setReg i v).lbuf = s.lbuf := rfl
@[simp] theorem setReg_rst (s : State) (i : Reg) (v : Option Wide) :
    (s.setReg i v).rst = s.rst := rfl
@[simp] theorem setReg_rnd (s : State) (i : Reg) (v : Option Wide) :
    (s.setReg i v).rnd = s.rnd := rfl
@[simp] theorem setReg_drawn (s : State) (i : Reg) (v : Option Wide) :
    (s.setReg i v).drawn = s.drawn := rfl
@[simp] theorem setReg_pending (s : State) (i : Reg) (v : Option Wide) :
    (s.setReg i v).pending = s.pending := rfl
@[simp] theorem setReg_answers (s : State) (i : Reg) (v : Option Wide) :
    (s.setReg i v).answers = s.answers := rfl

@[simp] theorem setRes_w (s : State) (v : Limb) :
    (s.setRes v).w = s.w := rfl
@[simp] theorem setRes_imm (s : State) (v : Limb) :
    (s.setRes v).imm = s.imm := rfl
@[simp] theorem setRes_res (s : State) (v : Limb) :
    (s.setRes v).res = v := rfl
@[simp] theorem setRes_phase (s : State) (v : Limb) :
    (s.setRes v).phase = s.phase := rfl
@[simp] theorem setRes_done (s : State) (v : Limb) :
    (s.setRes v).done = s.done := rfl
@[simp] theorem setRes_errcode (s : State) (v : Limb) :
    (s.setRes v).errcode = s.errcode := rfl
@[simp] theorem setRes_cmdr (s : State) (v : Limb) :
    (s.setRes v).cmdr = s.cmdr := rfl
@[simp] theorem setRes_lcnt (s : State) (v : Limb) :
    (s.setRes v).lcnt = s.lcnt := rfl
@[simp] theorem setRes_lbuf (s : State) (v : Limb) :
    (s.setRes v).lbuf = s.lbuf := rfl
@[simp] theorem setRes_rst (s : State) (v : Limb) :
    (s.setRes v).rst = s.rst := rfl
@[simp] theorem setRes_rnd (s : State) (v : Limb) :
    (s.setRes v).rnd = s.rnd := rfl
@[simp] theorem setRes_drawn (s : State) (v : Limb) :
    (s.setRes v).drawn = s.drawn := rfl
@[simp] theorem setRes_pending (s : State) (v : Limb) :
    (s.setRes v).pending = s.pending := rfl
@[simp] theorem setRes_answers (s : State) (v : Limb) :
    (s.setRes v).answers = s.answers := rfl

@[simp] theorem complete_w (s : State) :
    (s.complete).w = s.w := rfl
@[simp] theorem complete_imm (s : State) :
    (s.complete).imm = s.imm := rfl
@[simp] theorem complete_res (s : State) :
    (s.complete).res = s.res := rfl
@[simp] theorem complete_phase (s : State) :
    (s.complete).phase = .idle := rfl
@[simp] theorem complete_done (s : State) :
    (s.complete).done = true := rfl
@[simp] theorem complete_errcode (s : State) :
    (s.complete).errcode = s.errcode := rfl
@[simp] theorem complete_cmdr (s : State) :
    (s.complete).cmdr = s.cmdr := rfl
@[simp] theorem complete_lcnt (s : State) :
    (s.complete).lcnt = s.lcnt := rfl
@[simp] theorem complete_lbuf (s : State) :
    (s.complete).lbuf = s.lbuf := rfl
@[simp] theorem complete_rst (s : State) :
    (s.complete).rst = s.rst := rfl
@[simp] theorem complete_rnd (s : State) :
    (s.complete).rnd = s.rnd := rfl
@[simp] theorem complete_drawn (s : State) :
    (s.complete).drawn = s.drawn := rfl
@[simp] theorem complete_pending (s : State) :
    (s.complete).pending = s.pending := rfl
@[simp] theorem complete_answers (s : State) :
    (s.complete).answers = s.answers := rfl

@[simp] theorem accept_w (s : State) (c : Word) :
    (s.accept c).w = s.w := rfl
@[simp] theorem accept_imm (s : State) (c : Word) :
    (s.accept c).imm = s.imm := rfl
@[simp] theorem accept_res (s : State) (c : Word) :
    (s.accept c).res = s.res := rfl
@[simp] theorem accept_phase (s : State) (c : Word) :
    (s.accept c).phase = .run := rfl
@[simp] theorem accept_done (s : State) (c : Word) :
    (s.accept c).done = false := rfl
@[simp] theorem accept_errcode (s : State) (c : Word) :
    (s.accept c).errcode = s.errcode := rfl
@[simp] theorem accept_cmdr (s : State) (c : Word) :
    (s.accept c).cmdr = c := rfl
@[simp] theorem accept_lcnt (s : State) (c : Word) :
    (s.accept c).lcnt = s.lcnt := rfl
@[simp] theorem accept_lbuf (s : State) (c : Word) :
    (s.accept c).lbuf = s.lbuf := rfl
@[simp] theorem accept_rst (s : State) (c : Word) :
    (s.accept c).rst = s.rst := rfl
@[simp] theorem accept_rnd (s : State) (c : Word) :
    (s.accept c).rnd = s.rnd := rfl
@[simp] theorem accept_drawn (s : State) (c : Word) :
    (s.accept c).drawn = s.drawn := rfl
@[simp] theorem accept_pending (s : State) (c : Word) :
    (s.accept c).pending = s.pending := rfl
@[simp] theorem accept_answers (s : State) (c : Word) :
    (s.accept c).answers = s.answers := rfl

@[simp] theorem applyReset_w (s : State) :
    (s.applyReset).w = Vector.replicate 16 none := rfl
@[simp] theorem applyReset_imm (s : State) :
    (s.applyReset).imm = 0 := rfl
@[simp] theorem applyReset_res (s : State) :
    (s.applyReset).res = 0 := rfl
@[simp] theorem applyReset_phase (s : State) :
    (s.applyReset).phase = .idle := rfl
@[simp] theorem applyReset_done (s : State) :
    (s.applyReset).done = false := rfl
@[simp] theorem applyReset_errcode (s : State) :
    (s.applyReset).errcode = 0 := rfl
@[simp] theorem applyReset_cmdr (s : State) :
    (s.applyReset).cmdr = 0 := rfl
@[simp] theorem applyReset_lcnt (s : State) :
    (s.applyReset).lcnt = 0 := rfl
@[simp] theorem applyReset_lbuf (s : State) :
    (s.applyReset).lbuf = [] := rfl
@[simp] theorem applyReset_rst (s : State) :
    (s.applyReset).rst = s.rst := rfl
@[simp] theorem applyReset_rnd (s : State) :
    (s.applyReset).rnd = s.rnd := rfl
@[simp] theorem applyReset_drawn (s : State) :
    (s.applyReset).drawn = s.drawn := rfl
@[simp] theorem applyReset_pending (s : State) :
    (s.applyReset).pending = s.pending := rfl
@[simp] theorem applyReset_answers (s : State) :
    (s.applyReset).answers = s.answers := rfl

@[simp] theorem enterLoad_w (s : State) (rd : Reg) :
    (s.enterLoad rd).w = s.w.set rd.val none := rfl
@[simp] theorem enterLoad_imm (s : State) (rd : Reg) :
    (s.enterLoad rd).imm = s.imm := rfl
@[simp] theorem enterLoad_res (s : State) (rd : Reg) :
    (s.enterLoad rd).res = s.res := rfl
@[simp] theorem enterLoad_phase (s : State) (rd : Reg) :
    (s.enterLoad rd).phase = .load := rfl
@[simp] theorem enterLoad_done (s : State) (rd : Reg) :
    (s.enterLoad rd).done = s.done := rfl
@[simp] theorem enterLoad_errcode (s : State) (rd : Reg) :
    (s.enterLoad rd).errcode = s.errcode := rfl
@[simp] theorem enterLoad_cmdr (s : State) (rd : Reg) :
    (s.enterLoad rd).cmdr = s.cmdr := rfl
@[simp] theorem enterLoad_lcnt (s : State) (rd : Reg) :
    (s.enterLoad rd).lcnt = 0 := rfl
@[simp] theorem enterLoad_lbuf (s : State) (rd : Reg) :
    (s.enterLoad rd).lbuf = [] := rfl
@[simp] theorem enterLoad_rst (s : State) (rd : Reg) :
    (s.enterLoad rd).rst = s.rst := rfl
@[simp] theorem enterLoad_rnd (s : State) (rd : Reg) :
    (s.enterLoad rd).rnd = s.rnd := rfl
@[simp] theorem enterLoad_drawn (s : State) (rd : Reg) :
    (s.enterLoad rd).drawn = s.drawn := rfl
@[simp] theorem enterLoad_pending (s : State) (rd : Reg) :
    (s.enterLoad rd).pending = s.pending := rfl
@[simp] theorem enterLoad_answers (s : State) (rd : Reg) :
    (s.enterLoad rd).answers = s.answers := rfl

@[simp] theorem answer_w (s : State) (a : Answer) :
    (s.answer a).w = s.w := rfl
@[simp] theorem answer_imm (s : State) (a : Answer) :
    (s.answer a).imm = s.imm := rfl
@[simp] theorem answer_res (s : State) (a : Answer) :
    (s.answer a).res = s.res := rfl
@[simp] theorem answer_phase (s : State) (a : Answer) :
    (s.answer a).phase = s.phase := rfl
@[simp] theorem answer_done (s : State) (a : Answer) :
    (s.answer a).done = s.done := rfl
@[simp] theorem answer_errcode (s : State) (a : Answer) :
    (s.answer a).errcode = s.errcode := rfl
@[simp] theorem answer_cmdr (s : State) (a : Answer) :
    (s.answer a).cmdr = s.cmdr := rfl
@[simp] theorem answer_lcnt (s : State) (a : Answer) :
    (s.answer a).lcnt = s.lcnt := rfl
@[simp] theorem answer_lbuf (s : State) (a : Answer) :
    (s.answer a).lbuf = s.lbuf := rfl
@[simp] theorem answer_rst (s : State) (a : Answer) :
    (s.answer a).rst = s.rst := rfl
@[simp] theorem answer_rnd (s : State) (a : Answer) :
    (s.answer a).rnd = s.rnd := rfl
@[simp] theorem answer_drawn (s : State) (a : Answer) :
    (s.answer a).drawn = s.drawn := rfl
@[simp] theorem answer_pending (s : State) (a : Answer) :
    (s.answer a).pending = s.pending := rfl
@[simp] theorem answer_answers (s : State) (a : Answer) :
    (s.answer a).answers = a :: s.answers := rfl

/-- After reset every wide register is unconstructed (10_state.md R42). -/
@[simp] theorem reset_reg (i : Reg) : State.reset.reg i = none := by
  simp [reg, State.reset, Block.reset]
/-- A reset gives the block its reset values and leaves the environment (log 15). -/
theorem applyReset_toBlock (s : State) : s.applyReset.toBlock = Block.reset := rfl

end Sys2Proof.Machine.State
end

