-- ==== Sys2Proof/Laws/Ops.lean ====
section
/-! SUPPORT. What each shared operation of Machine/Ops.lean and Machine/Operands.lean does, said once:
registers, fault entry, the end of a command, the entropy input, limbs and bit lengths. -/

namespace Sys2Proof.Machine

/-! ### Registers -/

theorem State.reg_setReg (s : State) (i r : Reg) (v : Option Wide) :
    (s.setReg i v).reg r = if r = i then v else s.reg r := by
  simp only [State.reg, State.setReg_w, Vector.getElem_set, Fin.ext_iff, eq_comm]

@[simp] theorem State.reg_setReg_same (s : State) (i : Reg) (v : Option Wide) :
    (s.setReg i v).reg i = v := by simp [State.reg_setReg]

theorem State.reg_setReg_ne (s : State) {i r : Reg} (v : Option Wide) (h : r ≠ i) :
    (s.setReg i v).reg r = s.reg r := by simp [State.reg_setReg, h]

@[simp] theorem State.reg_setRes (s : State) (v : Limb) (r : Reg) :
    (s.setRes v).reg r = s.reg r := rfl

@[simp] theorem State.reg_complete (s : State) (r : Reg) : s.complete.reg r = s.reg r := rfl

@[simp] theorem State.reg_accept (s : State) (c : Word) (r : Reg) :
    (s.accept c).reg r = s.reg r := rfl

@[simp] theorem State.reg_answer (s : State) (a : Answer) (r : Reg) :
    (s.answer a).reg r = s.reg r := rfl

@[simp] theorem State.reg_applyReset (s : State) (r : Reg) : s.applyReset.reg r = none := by
  simp [State.reg]

theorem State.reg_clearRegs (s : State) (l : List Reg) (r : Reg) :
    (s.clearRegs l).reg r = if r ∈ l then none else s.reg r := by
  induction l generalizing s with
  | nil => simp [State.clearRegs]
  | cons i l ih =>
    rw [State.clearRegs, ih, State.reg_setReg]
    by_cases h : r ∈ l <;> by_cases h' : r = i <;> simp [h, h']

/-- Clearing registers changes the register file only. -/
theorem State.clearRegs_eq (s : State) (l : List Reg) :
    s.clearRegs l = { s with w := (s.clearRegs l).w } := by
  induction l generalizing s with
  | nil => rfl
  | cons i l ih => rw [State.clearRegs, ih]; rfl

/-! ### Fault entry and the end of a command -/

/-- Fault entry for every code but ILLEGAL (60_exceptions.md R232). -/
theorem State.takeFault_of_ne (s : State) {f : FaultCode} (h : f ≠ .illegal) (l : List Reg) :
    s.takeFault f l =
      { s with w := (s.clearRegs l).w, errcode := f.code, phase := .fault } := by
  cases f <;> first | exact absurd rfl h | (simp only [State.takeFault]; rw [State.clearRegs_eq])

/-- Fault entry for ILLEGAL touches no register (60_exceptions.md R232). -/
theorem State.takeFault_illegal (s : State) (l : List Reg) :
    s.takeFault .illegal l = { s with errcode := 0x01, phase := .fault } := rfl

/-- A command ends in one of two ways (60_exceptions.md R230). -/
theorem commit_next {dests : List Reg} {s t : State} {r : Except FaultCode State}
    (h : commit dests s r = .next t) :
    (∃ u, r = .ok u ∧ t = u.complete) ∨ ∃ f, r = .error f ∧ t = s.takeFault f dests := by
  cases r with
  | ok u => exact .inl ⟨u, rfl, by simpa [commit] using h.symm⟩
  | error f => exact .inr ⟨f, rfl, by simpa [commit] using h.symm⟩

/-! ### Operands -/

/-- A check or a read that answers lets the command go on. -/
theorem ok_bind {α β : Type} (x : α) (f : α → Except FaultCode β) :
    (Except.ok x >>= f) = f x := rfl

/-- A check or a read that faults ends the command. -/
theorem error_bind {α β : Type} (c : FaultCode) (f : α → Except FaultCode β) :
    (Except.error c >>= f) = .error c := rfl

theorem commit_ok (dests : List Reg) (s t : State) : commit dests s (.ok t) = .next t.complete := rfl

theorem commit_error (dests : List Reg) (s : State) (f : FaultCode) :
    commit dests s (.error f) = .next (s.takeFault f dests) := rfl

theorem State.source_some {s : State} {i : Reg} {v : Wide} (h : s.reg i = some v) :
    s.source i = .ok v := by simp [State.source, h]

theorem State.source_none {s : State} {i : Reg} (h : s.reg i = none) :
    s.source i = .error .unconstructed := by simp [State.source, h]

theorem sameWidth_ok {a b : Wide} (h : a.len = b.len) : sameWidth a b = .ok () := by
  simp [sameWidth, require, h]

theorem sameWidth_fault {a b : Wide} (h : a.len ≠ b.len) :
    sameWidth a b = .error .widthMismatch := by simp [sameWidth, require, h]

theorem divisorNonzero_ok {b : Wide} (h : b.val ≠ 0) : divisorNonzero b = .ok () := by
  simp [divisorNonzero, require, h]

theorem divisorNonzero_fault {b : Wide} (h : b.val = 0) :
    divisorNonzero b = .error .divZero := by simp [divisorNonzero, require, h]

theorem modulusNonzero_ok {m : Wide} (h : m.val ≠ 0) : modulusNonzero m = .ok () := by
  simp [modulusNonzero, require, h]

theorem modulusNonzero_fault {m : Wide} (h : m.val = 0) :
    modulusNonzero m = .error .modZero := by simp [modulusNonzero, require, h]

theorem mulWidthSafe_ok {m : Wide} {wl : Nat} (h : 2 * (m.val - 1) < ringSize wl) :
    mulWidthSafe m wl = .ok () := by simp [mulWidthSafe, require, h]

theorem mulWidthSafe_fault {m : Wide} {wl : Nat} (h : ringSize wl ≤ 2 * (m.val - 1)) :
    mulWidthSafe m wl = .error .widthSafety := by
  simp [mulWidthSafe, require, Nat.not_lt.2 h]

theorem powWidthSafe_ok {m : Wide} {wl : Nat} (h : (m.val - 1) ^ 2 < ringSize wl) :
    powWidthSafe m wl = .ok () := by simp [powWidthSafe, require, h]

theorem powWidthSafe_fault {m : Wide} {wl : Nat} (h : ringSize wl ≤ (m.val - 1) ^ 2) :
    powWidthSafe m wl = .error .widthSafety := by
  simp [powWidthSafe, require, Nat.not_lt.2 h]

/-! ### The entropy input -/

/-- Drawing changes the entropy input only (40_construct.md R104). -/
theorem State.drawLimbs_state (s : State) (n : Nat) :
    (s.drawLimbs n).2 = { s with rnd := s.rnd.drop n, drawn := s.drawn + n } := by
  induction n generalizing s with
  | zero => rfl
  | succ n ih =>
    simp only [State.drawLimbs, ih, State.draw, List.drop_tail]
    simp only [State.mk.injEq, true_and, and_true, and_self]
    omega

/-- The words drawn are the words the input supplies, in order (40_construct.md R104). -/
theorem State.drawLimbs_words (s : State) (n : Nat) :
    (s.drawLimbs n).1 = (List.range n).map s.entropyWord := by
  induction n generalizing s with
  | zero => rfl
  | succ n ih =>
    simp only [State.drawLimbs, ih, State.draw, List.range_succ_eq_map, List.map_cons, List.map_map,
      List.cons.injEq, true_and]
    refine List.map_congr_left fun j _ => ?_
    simp only [State.entropyWord, Function.comp, List.getElem?_tail]
    cases s.rnd[j + 1]? <;> simp only [Nat.succ_eq_add_one]
    congr 1
    omega

/-! ### Limbs and bit lengths -/

theorem limbsVal_lt (ls : List Limb) : limbsVal ls < ringSize ls.length := by
  induction ls with
  | nil => simp [limbsVal, ringSize]
  | cons l ls ih =>
    have hl : l.toNat < 2 ^ 64 := l.isLt
    have hs : ringSize (ls.length + 1) = 2 ^ 64 * ringSize ls.length := by
      simp only [ringSize, ← pow_add]; congr 1; omega
    simp only [limbsVal, List.length_cons, hs]
    nlinarith

theorem ringSize_pos (n : Nat) : 0 < ringSize n := by simp [ringSize]

theorem lt_two_pow_bitlen (a : Nat) : a < 2 ^ bitlen a := by
  unfold bitlen
  split
  · simp_all
  · exact Nat.lt_log2_self

theorem two_pow_le_of_bitlen {a k : Nat} (h : bitlen a = k + 1) : 2 ^ k ≤ a := by
  unfold bitlen at h
  split at h
  · omega
  · rename_i ha
    have : Nat.log2 a = k := by omega
    exact this ▸ Nat.log2_self_le ha

theorem bitlen_le {a n : Nat} (h : a < 2 ^ n) : bitlen a ≤ n := by
  unfold bitlen
  split
  · omega
  · rename_i ha
    exact (Nat.log2_lt ha).2 h

@[simp] theorem bitlen_zero : bitlen 0 = 0 := by simp [bitlen]

theorem bitlen_eq_zero {a : Nat} : bitlen a = 0 ↔ a = 0 := by
  unfold bitlen
  split <;> simp_all

end Sys2Proof.Machine
end

