-- ==== Sys2Proof/Laws/Algorithms.lean ====
section
/-! SUPPORT. The value of the square-and-multiply loop, which POW and POWMOD share (43_arith.md R170,
44_modular.md R212). -/

namespace Sys2Proof.Machine

/-- With enough turns the loop multiplies the accumulator by the power; for the exponent 0 it leaves the
accumulator as it is. -/
theorem powLoop_mulMod (k n : Nat) : ∀ e p acc : Nat, e < 2 ^ n →
    (e = 0 → powLoop (mulMod k) n e p acc = acc) ∧
    (e ≠ 0 → powLoop (mulMod k) n e p acc = acc * p ^ e % k) := by
  induction n with
  | zero =>
    intro e p acc h
    have : e = 0 := by simpa using h
    exact ⟨fun _ => rfl, fun h => absurd this h⟩
  | succ n ih =>
    intro e p acc h
    refine ⟨fun h0 => by simp [powLoop, h0], fun h0 => ?_⟩
    have hlt : e / 2 < 2 ^ n := by rw [pow_succ] at h; omega
    have hp : p ^ e = (p * p) ^ (e / 2) * p ^ (e % 2) := by
      rw [← pow_two, ← pow_mul, ← pow_add, Nat.div_add_mod]
    simp only [powLoop, if_neg h0]
    obtain ⟨ih0, ih1⟩ := ih (e / 2) (mulMod k p p) (if e % 2 = 1 then mulMod k acc p else acc) hlt
    rcases Nat.mod_two_eq_zero_or_one e with hm | hm <;> simp only [hm] at ih0 ih1 ⊢ <;>
      rcases eq_or_ne (e / 2) 0 with hz | hz
    · omega
    · rw [if_neg (by decide)] at ih1 ⊢
      rw [ih1 hz, hp, hm, pow_zero, mul_one, mulMod, Nat.mul_mod, ← Nat.pow_mod, ← Nat.mul_mod]
    · rw [if_pos trivial] at ih0 ⊢
      rw [ih0 hz, hp, hm, hz, pow_zero, pow_one, one_mul, mulMod]
    · rw [if_pos trivial] at ih1 ⊢
      rw [ih1 hz, hp, hm, pow_one, mulMod, mulMod, Nat.mul_mod, Nat.mod_mod, ← Nat.pow_mod,
        ← Nat.mul_mod, mul_assoc, mul_comm p]

/-- Square-and-multiply modulo `k`: 1, not reduced, for the exponent 0; the power modulo `k` for every
other (44_modular.md R213). -/
theorem squareMultiply_mulMod (k base e : Nat) :
    squareMultiply (mulMod k) base e = if e = 0 then 1 else base ^ e % k := by
  obtain ⟨h0, h1⟩ := powLoop_mulMod k (bitlen e) e base 1 (lt_two_pow_bitlen e)
  split
  · exact h0 ‹_›
  · rw [squareMultiply, h1 ‹_›, one_mul]

end Sys2Proof.Machine
end

