-- ==== Sys2Proof/Laws/Exec.lean ====
section
/-! SUPPORT. All a command can do, said once for every command: which fault its checks answer, or what
it writes; and the inverses of the operand checks. -/

namespace Sys2Proof.Spec

open Sys2Proof.Machine

/-! ### The operand checks, read backwards -/

theorem bind_ok {α β : Type} {x : Except FaultCode α} {f : α → Except FaultCode β} {y : β}
    (h : (x >>= f) = .ok y) : ∃ a, x = .ok a ∧ f a = .ok y := by
  cases x with
  | ok a => exact ⟨a, rfl, h⟩
  | error e => cases h

theorem reg_of_source {s : State} {i : Reg} {v : Wide} (h : s.source i = .ok v) :
    s.reg i = some v := by
  unfold State.source at h
  split at h
  · cases h; assumption
  · cases h

theorem of_require {f : FaultCode} {b : Bool} {u : Unit} (h : require f b = .ok u) : b = true := by
  unfold require at h
  split at h
  · assumption
  · cases h

/-- Two sources, one of them unconstructed (10_state.md R23). -/
theorem two_sources_fault {s : State} {ra rb : Reg} (h : s.reg ra = none ∨ s.reg rb = none)
    {β : Type} (k : Wide → Wide → Except FaultCode β) :
    (do let a ← s.source ra; let b ← s.source rb; k a b) = .error .unconstructed := by
  cases ha : s.reg ra with
  | none => rw [State.source_none ha]; rfl
  | some a =>
    rw [State.source_some ha, State.source_none (by simpa [ha] using h)]; rfl

/-- Three sources, one of them unconstructed (10_state.md R23). -/
theorem three_sources_fault {s : State} {ra rb rc : Reg}
    (h : s.reg ra = none ∨ s.reg rb = none ∨ s.reg rc = none) {β : Type}
    (k : Wide → Wide → Wide → Except FaultCode β) :
    (do let a ← s.source ra; let b ← s.source rb; let c ← s.source rc; k a b c) =
      .error .unconstructed := by
  cases ha : s.reg ra with
  | none => rw [State.source_none ha]; rfl
  | some a =>
    rw [State.source_some ha]
    exact two_sources_fault (by simpa [ha] using h) (k a)

/-! ### How a command ends -/

/-- What a command's checks can answer: a fault, UNCONSTRUCTED exactly when a source is unconstructed;
or a state in which its destinations, `RES` for the predicates and the entropy input for LDRND may have
changed. -/
inductive Ends (i : Instr) (s : State) : Except FaultCode State → Prop
  | fault (f : FaultCode) (legal : f ≠ .illegal)
      (cause : f = .unconstructed ↔ ∃ r ∈ sources i, s.reg r = none) : Ends i s (.error f)
  | ok (w : Vector (Option Wide) 16) (res : Limb) (rnd : List Limb) (drawn : Nat)
      (read : ∀ r ∈ sources i, s.reg r ≠ none)
      (regs : ∀ r : Reg, r ∉ destinations i → w[r.val] = s.w[r.val])
      (result : writesRes i = false → res = s.res)
      (entropy : (∀ rd wl, i ≠ .ldrnd rd wl) → rnd = s.rnd ∧ drawn = s.drawn) :
      Ends i s (.ok { s with w := w, res := res, rnd := rnd, drawn := drawn })

theorem set_other (w : Vector (Option Wide) 16) (rd : Reg) (v : Option Wide) :
    ∀ r : Reg, r ∉ [rd] → (w.set rd.val v)[r.val] = w[r.val] := by
  intro r h
  rw [Vector.getElem_set_ne]
  simp at h; exact fun e => h (Fin.ext e.symm)

theorem set_others (w : Vector (Option Wide) 16) (rd rc : Reg) (v u : Option Wide) :
    ∀ r : Reg, r ∉ [rd, rc] → ((w.set rd.val v).set rc.val u)[r.val] = w[r.val] := by
  intro r h
  simp only [List.mem_cons, List.not_mem_nil, or_false, not_or] at h
  rw [Vector.getElem_set_ne, Vector.getElem_set_ne]
  exacts [fun e => h.1 (Fin.ext e.symm), fun e => h.2 (Fin.ext e.symm)]

/-- A command that reads one register: its end follows from its end with the source constructed. -/
theorem ends_one {i : Instr} {s : State} {ra : Reg} (hs : sources i = [ra])
    (k : Wide → Except FaultCode State) (hk : ∀ a, s.reg ra = some a → Ends i s (k a)) :
    Ends i s (do let a ← s.source ra; k a) := by
  cases ha : s.reg ra with
  | none =>
    rw [State.source_none ha]
    exact .fault _ (by decide) (by simp [hs, ha])
  | some a => rw [State.source_some ha]; exact hk a ha

/-- A command that reads two registers. -/
theorem ends_two {i : Instr} {s : State} {ra rb : Reg} (hs : sources i = [ra, rb])
    (k : Wide → Wide → Except FaultCode State)
    (hk : ∀ a b, s.reg ra = some a → s.reg rb = some b → Ends i s (k a b)) :
    Ends i s (do let a ← s.source ra; let b ← s.source rb; k a b) := by
  by_cases h : s.reg ra = none ∨ s.reg rb = none
  · rw [two_sources_fault h]
    exact .fault _ (by decide) (by simpa [hs] using h)
  · rw [not_or] at h
    obtain ⟨a, ha⟩ := Option.ne_none_iff_exists'.1 h.1
    obtain ⟨b, hb⟩ := Option.ne_none_iff_exists'.1 h.2
    rw [State.source_some ha, State.source_some hb]
    exact hk a b ha hb

/-- A command that reads three registers. -/
theorem ends_three {i : Instr} {s : State} {ra rb rc : Reg} (hs : sources i = [ra, rb, rc])
    (k : Wide → Wide → Wide → Except FaultCode State)
    (hk : ∀ a b c, s.reg ra = some a → s.reg rb = some b → s.reg rc = some c →
      Ends i s (k a b c)) :
    Ends i s (do let a ← s.source ra; let b ← s.source rb; let c ← s.source rc; k a b c) := by
  by_cases h : s.reg ra = none ∨ s.reg rb = none ∨ s.reg rc = none
  · rw [three_sources_fault h]
    exact .fault _ (by decide) (by simpa [hs] using h)
  · rw [not_or, not_or] at h
    obtain ⟨a, ha⟩ := Option.ne_none_iff_exists'.1 h.1
    obtain ⟨b, hb⟩ := Option.ne_none_iff_exists'.1 h.2.1
    obtain ⟨c, hc⟩ := Option.ne_none_iff_exists'.1 h.2.2
    rw [State.source_some ha, State.source_some hb, State.source_some hc]
    exact hk a b c ha hb hc

/-- A check between the reads and the writes of a command. -/
theorem ends_require {i : Instr} {s : State} {f : FaultCode} {b : Bool} {k : Except FaultCode State}
    (hs : ∀ r ∈ sources i, s.reg r ≠ none) (h1 : f ≠ .illegal) (h2 : f ≠ .unconstructed)
    (hk : Ends i s k) : Ends i s (do require f b; k) := by
  cases b with
  | true => exact hk
  | false =>
    refine .fault f h1 ⟨fun h => absurd h h2, ?_⟩
    rintro ⟨r, hr, hn⟩
    exact absurd hn (hs r hr)

/-- Every command but the two loads ends as `commit` of such an answer; a load enters the LOAD phase. -/
theorem exec_ends (i : Instr) (s : State) :
    (∃ rd wl, (i = .ldw64 rd wl ∨ i = .ldw32 rd wl) ∧ exec i s = .next (s.enterLoad rd)) ∨
      ∃ r, Ends i s r ∧ exec i s = commit (destinations i) s r := by
  cases i with
  | ldw64 rd wl => exact .inl ⟨rd, wl, .inl rfl, rfl⟩
  | ldw32 rd wl => exact .inl ⟨rd, wl, .inr rfl, rfl⟩
  | ldi rd wl =>
    exact .inr ⟨_, .ok _ s.res s.rnd s.drawn (by simp [sources]) (set_other s.w rd _)
      (fun _ => rfl) (fun _ => ⟨rfl, rfl⟩), rfl⟩
  | ldrnd rd wl =>
    refine .inr ⟨.ok { s with
      w := s.w.set rd.val (some ⟨wl, limbsVal (s.drawLimbs wl).1⟩), res := s.res,
      rnd := s.rnd.drop wl, drawn := s.drawn + wl },
      .ok _ _ _ _ (by simp [sources]) (set_other s.w rd _) (fun _ => rfl)
        (fun h => absurd rfl (h rd wl)), ?_⟩
    simp only [exec, execLdrnd, State.drawLimbs_state]
    rfl
  | iszero ra | isodd ra | eq64 ra | fhb ra | fulc ra =>
    exact .inr ⟨_, ends_one rfl _ fun a ha =>
      .ok s.w _ s.rnd s.drawn (by simp [sources, ha]) (fun _ _ => rfl) (fun h => by cases h)
        (fun _ => ⟨rfl, rfl⟩), rfl⟩
  | cvt rd ra wl =>
    exact .inr ⟨_, ends_one rfl _ fun a ha =>
      .ok _ s.res s.rnd s.drawn (by simp [sources, ha]) (set_other s.w rd _) (fun _ => rfl)
        (fun _ => ⟨rfl, rfl⟩), rfl⟩
  | shl rd ra | shr rd ra | not rd ra =>
    exact .inr ⟨_, ends_one rfl _ fun a ha =>
      .ok _ s.res s.rnd s.drawn (by simp [sources, ha]) (set_other s.w rd _) (fun _ => rfl)
        (fun _ => ⟨rfl, rfl⟩), rfl⟩
  | cmp ra rb =>
    exact .inr ⟨_, ends_two rfl _ fun a b ha hb =>
      ends_require (by simp [sources, ha, hb]) (by decide) (by decide)
        (.ok s.w _ s.rnd s.drawn (by simp [sources, ha, hb]) (fun _ _ => rfl) (fun h => by cases h)
          (fun _ => ⟨rfl, rfl⟩)), rfl⟩
  | add rd ra rb | sub rd ra rb | mul rd ra rb =>
    exact .inr ⟨_, ends_two rfl _ fun a b ha hb =>
      ends_require (by simp [sources, ha, hb]) (by decide) (by decide)
        (.ok _ s.res s.rnd s.drawn (by simp [sources, ha, hb]) (set_other s.w rd _) (fun _ => rfl)
          (fun _ => ⟨rfl, rfl⟩)), rfl⟩
  | div rd ra rb rc =>
    exact .inr ⟨_, ends_two rfl _ fun a b ha hb =>
      ends_require (by simp [sources, ha, hb]) (by decide) (by decide)
        (.ok _ s.res s.rnd s.drawn (by simp [sources, ha, hb]) (set_others s.w rd rc _ _)
          (fun _ => rfl) (fun _ => ⟨rfl, rfl⟩)), rfl⟩
  | pow rd ra rb =>
    exact .inr ⟨_, ends_two rfl _ fun a b ha hb =>
      .ok _ s.res s.rnd s.drawn (by simp [sources, ha, hb]) (set_other s.w rd _) (fun _ => rfl)
        (fun _ => ⟨rfl, rfl⟩), rfl⟩
  | mulmod rd ra rb rc wl =>
    exact .inr ⟨_, ends_three rfl _ fun a b c ha hb hc =>
      ends_require (by simp [sources, ha, hb, hc]) (by decide) (by decide)
        (ends_require (by simp [sources, ha, hb, hc]) (by decide) (by decide)
          (.ok _ s.res s.rnd s.drawn (by simp [sources, ha, hb, hc]) (set_other s.w rd _)
            (fun _ => rfl) (fun _ => ⟨rfl, rfl⟩))), rfl⟩
  | powmod rd ra rb rc wl =>
    exact .inr ⟨_, ends_three rfl _ fun a b c ha hb hc =>
      ends_require (by simp [sources, ha, hb, hc]) (by decide) (by decide)
        (ends_require (by simp [sources, ha, hb, hc]) (by decide) (by decide)
          (.ok _ s.res s.rnd s.drawn (by simp [sources, ha, hb, hc]) (set_other s.w rd _)
            (fun _ => rfl) (fun _ => ⟨rfl, rfl⟩))), rfl⟩

/-- No command stops the machine (60_exceptions.md R232, R235; log 14). -/
theorem exec_next (i : Instr) (s : State) : ∃ t, exec i s = .next t := by
  rcases exec_ends i s with ⟨rd, wl, _, h⟩ | ⟨r, _, h⟩
  · exact ⟨_, h⟩
  · rw [h]; cases r <;> exact ⟨_, rfl⟩

end Sys2Proof.Spec
end

