-- ==== Sys2Proof/Laws/Port.lean ====
section
/-! SUPPORT. What the port does, said once: the register map at each kind of offset, an aligned access,
and all an access can do to the state. -/

namespace Sys2Proof.Machine

/-- Above the eight scalar registers the map holds `WLEN` and the windows (20_memory.md R55). -/
theorem portReg_above {off : Nat} (h : 0x38 < off) : portReg off =
    if 0x0080 ≤ off ∧ off < 0x0100 then some (.wlen (regOfNat ((off - 0x0080) / 8)))
    else if 0x1000 ≤ off ∧ off < 0x9000 ∧ (off - 0x1000) % 0x800 < 0x7F8 then
      some (.win (regOfNat ((off - 0x1000) / 0x800)) ((off - 0x1000) % 0x800 / 8))
    else none := by
  have scalar : ∀ k, k ≤ 0x38 → off ≠ k := fun k hk e => by omega
  unfold portReg
  iterate 8 rw [if_neg (scalar _ (by decide))]

/-- The window's offsets (20_memory.md R55). -/
theorem portReg_win (i j : Nat) (hi : i < 16) (hj : j ≤ 254) :
    portReg (0x1000 + 0x800 * i + 8 * j) = some (.win ⟨i, hi⟩ j) := by
  have row : (0x1000 + 0x800 * i + 8 * j - 0x1000) / 0x800 = i := by omega
  have column : (0x1000 + 0x800 * i + 8 * j - 0x1000) % 0x800 = 8 * j := by omega
  rw [portReg_above (by omega), if_neg (by omega), if_pos (by omega), row, column]
  simp [regOfNat, Nat.mod_eq_of_lt hi]

/-- The offsets of `WLEN[i]` (20_memory.md R55). -/
theorem portReg_wlen (i : Nat) (hi : i < 16) : portReg (0x80 + 8 * i) = some (.wlen ⟨i, hi⟩) := by
  have index : (0x80 + 8 * i - 0x80) / 8 = i := by omega
  rw [portReg_above (by omega), if_pos (by omega), index]
  simp [regOfNat, Nat.mod_eq_of_lt hi]

/-- The offset of a register, and for a register that is one of several the eight bytes it takes
(20_memory.md R55). -/
def PortReg.liesAt (off : Nat) : PortReg → Prop
  | .cmd => off = 0x0000
  | .imm => off = 0x0008
  | .status => off = 0x0010
  | .res => off = 0x0018
  | .din => off = 0x0020
  | .ctrl => off = 0x0028
  | .cap => off = 0x0030
  | .cmdr => off = 0x0038
  | .wlen i => 0x80 + 8 * i.val ≤ off ∧ off < 0x80 + 8 * i.val + 8
  | .win i j => j ≤ 254 ∧ 0x1000 + 0x800 * i.val + 8 * j ≤ off ∧
      off < 0x1000 + 0x800 * i.val + 8 * j + 8

/-- Each register of the map lies where 20_memory.md R55 puts it. -/
theorem portReg_liesAt {off : Nat} {r : PortReg} (h : portReg off = some r) : r.liesAt off := by
  rcases Nat.lt_or_ge 0x38 off with ha | ha
  · rw [portReg_above ha] at h
    split at h
    · cases h
      have hi : (off - 0x80) / 8 < 16 := by omega
      simp only [PortReg.liesAt, regOfNat, Nat.mod_eq_of_lt hi]; omega
    · split at h
      · cases h
        have hi : (off - 0x1000) / 0x800 < 16 := by omega
        simp only [PortReg.liesAt, regOfNat, Nat.mod_eq_of_lt hi]; omega
      · cases h
  · unfold portReg at h
    iterate 8 (split at h; · cases h; assumption)
    rw [if_neg (by omega), if_neg (by omega)] at h
    cases h

theorem offset_eq {off : Offset} {n : Nat} (hn : n < 2 ^ 16) (h : off.toNat = n) :
    off = BitVec.ofNat 16 n := by
  apply BitVec.eq_of_toNat_eq; rw [BitVec.toNat_ofNat, Nat.mod_eq_of_lt hn, h]

theorem legalAccess_aligned {off : Offset} (h : off.toNat % 8 = 0) : legalAccess off 8 = true := by
  simp [legalAccess, h]

/-- An aligned read (20_memory.md R52). -/
theorem busRead_aligned {maxLimbs : Nat} {s : State} {off : Offset} (h : off.toNat % 8 = 0) :
    s.busRead maxLimbs off 8 = (portReg off.toNat).bind fun r =>
      if r.readPermitted s.phase then s.readReg maxLimbs r else none := by
  simp only [State.busRead, legalAccess_aligned h, if_true]; cases portReg off.toNat <;> rfl

/-- An aligned write (20_memory.md R53). -/
theorem busWrite_aligned {maxLimbs : Nat} {s : State} {off : Offset} {v : Limb}
    (h : off.toNat % 8 = 0) :
    s.busWrite maxLimbs off 8 v = (portReg off.toNat).bind fun r =>
      if r.writePermitted s.phase then s.writeReg maxLimbs v r else none := by
  simp only [State.busWrite, legalAccess_aligned h, if_true]; cases portReg off.toNat <;> rfl

/-- All a write that is not refused can do (20_memory.md R56, R61 to R64). -/
theorem busWrite_cases {maxLimbs : Nat} {s t : State} {off : Offset} {n : Nat} {v : Limb}
    (h : s.busWrite maxLimbs off n v = some t) :
    n = 8 ∧ ((off = 0x0000 ∧ s.phase = .idle ∧ v.toNat < 2 ^ 32 ∧ t = s.accept (v.setWidth 32)) ∨
      (off = 0x0008 ∧ s.phase = .idle ∧ t = { s with imm := v }) ∨
      (off = 0x0020 ∧ s.phase = .load ∧ s.writeDin maxLimbs v = some t) ∨
      (off = 0x0028 ∧ v = 0 ∧ t = s) ∨ (off = 0x0028 ∧ v = 1 ∧ t = s.applyReset)) := by
  unfold State.busWrite at h
  split at h
  case isFalse => cases h
  rename_i hl
  simp only [legalAccess, decide_eq_true_eq] at hl
  obtain ⟨rfl, ha⟩ := hl
  refine ⟨rfl, ?_⟩
  cases hpr : portReg off.toNat with
  | none => rw [hpr] at h; cases h
  | some r =>
    rw [hpr] at h
    simp only at h
    split at h
    case isFalse => cases h
    rename_i hp
    have h' := portReg_liesAt hpr
    cases r <;>
      simp only [PortReg.writePermitted, decide_eq_true_eq, Bool.false_eq_true] at hp <;>
      simp only [State.writeReg, upperHalfZero, decide_eq_true_eq] at h
    · split at h
      · rename_i hv; cases h; exact .inl ⟨offset_eq (by decide) h', hp, hv, rfl⟩
      · cases h
    · cases h; exact .inr (.inl ⟨offset_eq (by decide) h', hp, rfl⟩)
    · exact .inr (.inr (.inl ⟨offset_eq (by decide) h', hp, h⟩))
    · split at h
      · rename_i hv
        cases h
        exact .inr (.inr (.inr (.inl ⟨offset_eq (by decide) h', BitVec.eq_of_toNat_eq hv, rfl⟩)))
      · split at h
        · rename_i hv
          cases h
          exact .inr (.inr (.inr (.inr ⟨offset_eq (by decide) h', BitVec.eq_of_toNat_eq hv, rfl⟩)))
        · cases h

/-! ### Accesses presented -/

theorem present_rst {maxLimbs : Nat} {s : State} (a : Access) (h : s.rst = true) :
    s.present maxLimbs a = s.answer .unanswered := by
  unfold State.present; exact if_pos h

theorem present_read {maxLimbs : Nat} {s : State} (hr : s.rst = false) (off : Offset) (n : Nat) :
    s.present maxLimbs (.read off n) =
      s.answer (match s.busRead maxLimbs off n with | some v => .data v | none => .slverr) := by
  simp only [State.present]
  refine (if_neg (by simp [hr])).trans ?_
  cases s.busRead maxLimbs off n <;> rfl

theorem present_write {maxLimbs : Nat} {s : State} (hr : s.rst = false) (off : Offset) (n : Nat)
    (v : Limb) : s.present maxLimbs (.write off n v) =
      match s.busWrite maxLimbs off n v with
      | some t => t.answer .okay
      | none => s.answer .slverr := by
  simp only [State.present]
  refine (if_neg (by simp [hr])).trans ?_
  cases s.busWrite maxLimbs off n v <;> rfl

/-- All an access can do: an answer and nothing else, or one of the four effects of a write
(20_memory.md R56, R61 to R64). -/
theorem present_cases (maxLimbs : Nat) (s : State) (a : Access) :
    (∃ x, s.present maxLimbs a = s.answer x) ∨ s.rst = false ∧ (
      (∃ v, a = .write 0x0000 8 v ∧ s.phase = .idle ∧ v.toNat < 2 ^ 32 ∧
        s.present maxLimbs a = (s.accept (v.setWidth 32)).answer .okay) ∨
      (∃ v, a = .write 0x0008 8 v ∧ s.phase = .idle ∧
        s.present maxLimbs a = ({ s with imm := v } : State).answer .okay) ∨
      (∃ v u, a = .write 0x0020 8 v ∧ s.phase = .load ∧ s.writeDin maxLimbs v = some u ∧
        s.present maxLimbs a = u.answer .okay) ∨
      (a = .write 0x0028 8 1 ∧ s.present maxLimbs a = s.applyReset.answer .okay)) := by
  rcases Bool.eq_false_or_eq_true s.rst with hr | hr
  · exact .inl ⟨_, present_rst a hr⟩
  · cases a with
    | read off n => exact .inl ⟨_, present_read hr off n⟩
    | write off n v =>
      rw [present_write hr]
      cases hb : s.busWrite maxLimbs off n v with
      | none => exact .inl ⟨_, rfl⟩
      | some t =>
        obtain ⟨rfl, ⟨rfl, h1, h2, rfl⟩ | ⟨rfl, h1, rfl⟩ | ⟨rfl, h1, h2⟩ | ⟨rfl, rfl, rfl⟩ |
          ⟨rfl, rfl, rfl⟩⟩ := busWrite_cases hb
        · exact .inr ⟨hr, .inl ⟨v, rfl, h1, h2, rfl⟩⟩
        · exact .inr ⟨hr, .inr (.inl ⟨v, rfl, h1, rfl⟩)⟩
        · exact .inr ⟨hr, .inr (.inr (.inl ⟨v, t, rfl, h1, h2, rfl⟩))⟩
        · exact .inl ⟨_, rfl⟩
        · exact .inr ⟨hr, .inr (.inr (.inr ⟨rfl, rfl⟩))⟩

end Sys2Proof.Machine
end

