-- ==== Sys2Proof/Laws/Step.lean ====
section
/-! SUPPORT. All a step can do, said once (20_memory.md R67, R68). -/

namespace Sys2Proof.Machine

/-- Outside RUN the engine's step does nothing (70_reset_and_hazards.md R273). -/
theorem engineStep_of_ne_run {maxLimbs : Nat} {s : State} (h : s.phase ≠ .run) :
    s.engineStep maxLimbs = .next s := by
  unfold State.engineStep
  cases hp : s.phase <;> first | exact absurd hp h | rfl

/-- A step makes the first pending move (log 1). -/
theorem stepWith_cons {maxLimbs : Nat} {s : State} {m : Move} {rest : List Move}
    (hp : s.pending = m :: rest) :
    stepWith maxLimbs s = ({ s with pending := rest } : State).move maxLimbs m := by
  rw [stepWith, hp]

/-- With no move pending a step is the engine's (log 2). -/
theorem stepWith_nil {maxLimbs : Nat} {s : State} (hp : s.pending = []) :
    stepWith maxLimbs s = s.engineStep maxLimbs := by
  rw [stepWith, hp]; rfl

theorem stepWith_access {maxLimbs : Nat} {s : State} {a : Access} {rest : List Move}
    (hp : s.pending = .access a :: rest) :
    stepWith maxLimbs s = .next (({ s with pending := rest } : State).present maxLimbs a) :=
  stepWith_cons hp

/-- A step is the engine's step, an access, or a change of the level of `rst`. -/
theorem step_cases {maxLimbs : Nat} {s t : State} (h : stepWith maxLimbs s = .next t) :
    (∃ rest, (s.pending = [] ∧ rest = [] ∨ s.pending = .engine :: rest) ∧
      ({ s with pending := rest } : State).engineStep maxLimbs = .next t) ∨
    (∃ a rest, s.pending = .access a :: rest ∧
      t = ({ s with pending := rest } : State).present maxLimbs a) ∨
    (∃ rest, s.pending = .rst true :: rest ∧
      t = { s.applyReset with rst := true, pending := rest }) ∨
    (∃ rest, s.pending = .rst false :: rest ∧ t = { s with rst := false, pending := rest }) := by
  rcases hp : s.pending with _ | ⟨m, rest⟩
  · refine .inl ⟨[], .inl ⟨rfl, rfl⟩, ?_⟩
    rw [stepWith_nil hp] at h
    rw [← h, show ({ s with pending := [] } : State) = s by rw [← hp]]
  · rw [stepWith_cons hp] at h
    match m with
    | .engine => exact .inl ⟨rest, .inr rfl, h⟩
    | .access a => cases h; exact .inr (.inl ⟨a, rest, rfl, rfl⟩)
    | .rst true => cases h; exact .inr (.inr (.inl ⟨rest, rfl, rfl⟩))
    | .rst false => cases h; exact .inr (.inr (.inr ⟨rest, rfl, rfl⟩))

end Sys2Proof.Machine
end

