-- ==== Sys2Proof/Laws/Inputs.lean ====
section
/-! SUPPORT. What the spec calls parameters of the step relation (00_scope.md R14) is used as such: the
block after a move depends on the block before it, `MAXLIMBS`, the move, the level of `rst` and the
entropy words, and on nothing else that `State` holds beside the block. -/

namespace Sys2Proof.Machine

/-- What becomes of the block. -/
def blockAfter : Host.Outcome State Fault Refusal → Option Block
  | .next t => some t.toBlock
  | .fault _ => none
  | .refused _ => none

/-- The end of a command shows its block alone. -/
theorem blockAfter_commit {s u : State} (hb : u.toBlock = s.toBlock) (dests : List Reg)
    {r q : Except FaultCode State}
    (h : Except.map State.toBlock q = Except.map State.toBlock r) :
    blockAfter (commit dests u q) = blockAfter (commit dests s r) := by
  have clear : ∀ (ds : List Reg) (a b : State), a.toBlock = b.toBlock →
      (a.clearRegs ds).toBlock = (b.clearRegs ds).toBlock := by
    intro ds
    induction ds with
    | nil => exact fun _ _ e => e
    | cons d ds ih =>
      exact fun a b e => ih _ _ (by simp only [State.setReg, e])
  cases r with
  | ok t =>
    cases q with
    | ok v =>
      have e : v.toBlock = t.toBlock := by simpa [Except.map] using h
      simp only [commit, blockAfter, State.complete, e]
    | error f => cases h
  | error f =>
    cases q with
    | ok v => cases h
    | error g =>
      have e : g = f := by simpa [Except.map] using h
      subst e
      have c := clear dests u s hb
      cases g <;> simp only [commit, blockAfter, State.takeFault, hb, c]

/-- A check or a read of an operand first: the rest shows the block alone. -/
theorem block_bind {α : Type} (x : Except FaultCode α) {f g : α → Except FaultCode State}
    (h : ∀ a, Except.map State.toBlock (f a) = Except.map State.toBlock (g a)) :
    Except.map State.toBlock (x >>= f) = Except.map State.toBlock (x >>= g) := by
  cases x with
  | ok a => exact h a
  | error e => rfl

/-- The block a command leaves depends on the block and the entropy words. -/
theorem blockAfter_exec (i : Instr) {s u : State} (hb : u.toBlock = s.toBlock)
    (he : ∀ j, u.entropyWord j = s.entropyWord j) :
    blockAfter (exec i u) = blockAfter (exec i s) := by
  have src : ∀ r, u.source r = s.source r := fun r => by simp only [State.source, State.reg, hb]
  have imm : u.scalar = s.scalar := by simp only [State.scalar, hb]
  have set : ∀ r v, (u.setReg r v).toBlock = (s.setReg r v).toBlock := fun r v => by
    simp only [State.setReg, hb]
  have sets : ∀ r v q x, ((u.setReg r v).setReg q x).toBlock =
      ((s.setReg r v).setReg q x).toBlock := fun r v q x => by
    simp only [State.setReg, hb]
  have res : ∀ v, (u.setRes v).toBlock = (s.setRes v).toBlock := fun v => by
    simp only [State.setRes, hb]
  have ok : ∀ {a b : State}, a.toBlock = b.toBlock →
      Except.map State.toBlock (.ok a : Except FaultCode State) =
        Except.map State.toBlock (.ok b) := fun e => congrArg Except.ok e
  cases i with
  | ldi rd wl =>
    simp only [exec, execLdi, imm]
    exact blockAfter_commit hb _ (ok (set _ _))
  | ldw64 rd wl => simp only [exec, execLdw64, State.enterLoad, State.setReg, blockAfter, hb]
  | ldw32 rd wl => simp only [exec, execLdw32, State.enterLoad, State.setReg, blockAfter, hb]
  | ldrnd rd wl =>
    simp only [exec, execLdrnd, State.drawLimbs_state, State.drawLimbs_words]
    rw [show u.entropyWord = s.entropyWord from funext he]
    exact blockAfter_commit hb _ (ok (by simp only [State.setReg, hb]))
  | iszero ra | isodd ra | eq64 ra | fhb ra | fulc ra =>
    simp only [exec, execIszero, execIsodd, execEq64, execFhb, execFulc, src, imm]
    exact blockAfter_commit hb _ (block_bind _ fun _ => ok (res _))
  | cvt rd ra wl =>
    simp only [exec, execCvt, src]
    exact blockAfter_commit hb _ (block_bind _ fun _ => ok (set _ _))
  | shl rd ra | shr rd ra | not rd ra =>
    simp only [exec, execShl, execShr, execNot, src, imm]
    exact blockAfter_commit hb _ (block_bind _ fun _ => ok (set _ _))
  | cmp ra rb =>
    simp only [exec, execCmp, src]
    exact blockAfter_commit hb _
      (block_bind _ fun _ => block_bind _ fun _ => block_bind _ fun _ => ok (res _))
  | add rd ra rb | sub rd ra rb | mul rd ra rb =>
    simp only [exec, execAdd, execSub, execMul, src]
    exact blockAfter_commit hb _
      (block_bind _ fun _ => block_bind _ fun _ => block_bind _ fun _ => ok (set _ _))
  | pow rd ra rb =>
    simp only [exec, execPow, src]
    exact blockAfter_commit hb _ (block_bind _ fun _ => block_bind _ fun _ => ok (set _ _))
  | div rd ra rb rc =>
    simp only [exec, execDiv, src]
    exact blockAfter_commit hb _
      (block_bind _ fun _ => block_bind _ fun _ => block_bind _ fun _ => ok (sets _ _ _ _))
  | mulmod rd ra rb rc wl =>
    simp only [exec, execMulmod, src]
    exact blockAfter_commit hb _ (block_bind _ fun _ => block_bind _ fun _ => block_bind _ fun _ =>
      block_bind _ fun _ => block_bind _ fun _ => ok (set _ _))
  | powmod rd ra rb rc wl =>
    simp only [exec, execPowmod, src]
    exact blockAfter_commit hb _ (block_bind _ fun _ => block_bind _ fun _ => block_bind _ fun _ =>
      block_bind _ fun _ => block_bind _ fun _ => ok (set _ _))

/-- The block a write leaves, and whether it is refused, depend on the block. -/
theorem block_busWrite (maxLimbs : Nat) {s u : State} (hb : u.toBlock = s.toBlock) (off : Offset)
    (size : Nat) (v : Limb) :
    (u.busWrite maxLimbs off size v).map State.toBlock =
      (s.busWrite maxLimbs off size v).map State.toBlock := by
  have beat : ∀ (rd : Reg) (wl total : Nat) (buf : List Limb),
      (State.endBeat { u with lbuf := buf, lcnt := u.lcnt + 1 } rd wl total).toBlock =
        (State.endBeat { s with lbuf := buf, lcnt := s.lcnt + 1 } rd wl total).toBlock := by
    intro rd wl total buf
    simp only [State.endBeat, hb]
    split <;> simp only [State.setReg, State.complete]
  unfold State.busWrite
  split
  · cases portReg off.toNat with
    | none => rfl
    | some r =>
      simp only [hb]
      split
      · cases r <;> simp only [State.writeReg]
        · split <;> simp only [State.accept, Option.map, hb]
        · simp only [Option.map, hb]
        · simp only [State.writeDin, hb]
          cases decode maxLimbs s.cmdr with
          | error e => rfl
          | ok i =>
            cases i <;> try rfl
            · simp only [Option.map, State.beat64, hb]
              exact congrArg some (by simpa only [hb] using beat _ _ _ _)
            · dsimp only
              split
              · simp only [Option.map, State.beat32, hb]
                exact congrArg some (by simpa only [hb] using beat _ _ _ _)
              · rfl
        · split
          · simp only [Option.map, hb]
          · split <;> rfl
      · rfl
  · rfl

/-- The data of a read depends on the block. -/
theorem block_busRead (maxLimbs : Nat) {s u : State} (hb : u.toBlock = s.toBlock) (off : Offset)
    (size : Nat) : u.busRead maxLimbs off size = s.busRead maxLimbs off size := by
  have read : ∀ r, u.readReg maxLimbs r = s.readReg maxLimbs r := by
    intro r
    cases r <;>
      simp only [State.readReg, State.status, State.wlen, State.windowLimb, State.reg, hb]
  simp only [State.busRead, read, hb]

/-- The block after a move, and the answer to an access, depend on the block, `MAXLIMBS`, the move, the
level of `rst` and the entropy words: the host's further moves and what has been answered are no state of
the block (00_scope.md R14). -/
theorem move_of_parameters (maxLimbs : Nat) (m : Move) {s u s' u' : State}
    (hb : u.toBlock = s.toBlock) (hr : u.rst = s.rst)
    (he : ∀ j, u.entropyWord j = s.entropyWord j)
    (hs : s.move maxLimbs m = .next s') (hu : u.move maxLimbs m = .next u') :
    u'.toBlock = s'.toBlock ∧
      ((∃ a, m = .access a) → u'.answers.head? = s'.answers.head?) := by
  cases m with
  | engine =>
    refine ⟨?_, fun ⟨_, h⟩ => by cases h⟩
    have key : blockAfter (u.engineStep maxLimbs) = blockAfter (s.engineStep maxLimbs) := by
      simp only [State.engineStep, hb]
      cases s.phase <;> simp only [blockAfter, hb]
      cases decode maxLimbs s.cmdr with
      | ok i => exact blockAfter_exec i hb he
      | error e => simp only [State.illegalWord, State.takeFault, hb]
    simp only [State.move] at hs hu
    rw [hs, hu] at key
    exact Option.some.inj key
  | rst level =>
    cases hs; cases hu
    refine ⟨?_, fun ⟨_, h⟩ => by cases h⟩
    cases level <;> simp [State.driveRst, State.applyReset, hb]
  | access a =>
    cases hs; cases hu
    rcases Bool.eq_false_or_eq_true s.rst with h | h
    · rw [present_rst a h, present_rst a (hr.trans h)]
      exact ⟨hb, fun _ => rfl⟩
    · cases a with
      | read off size =>
        rw [present_read h, present_read (hr.trans h), block_busRead maxLimbs hb]
        exact ⟨hb, fun _ => rfl⟩
      | write off size v =>
        rw [present_write h, present_write (hr.trans h)]
        have key := block_busWrite maxLimbs hb off size v
        cases hx : s.busWrite maxLimbs off size v with
        | none =>
          rw [hx] at key
          rw [Option.map_eq_none_iff.1 key]
          exact ⟨hb, fun _ => rfl⟩
        | some t =>
          rw [hx] at key
          obtain ⟨v', hv, e⟩ := Option.map_eq_some_iff.1 key
          rw [hv]
          exact ⟨e, fun _ => rfl⟩

end Sys2Proof.Machine
end

