-- ==== Sys2Proof/Laws/Load.lean ====
section
/-! SUPPORT. What a beat of a load does, said once, and that `DIN` touches nothing outside the load
(40_construct.md R102, R103). -/

namespace Sys2Proof.Safety

open Sys2Proof.Machine

theorem putLimb_end (b : List Limb) (v : Limb) : putLimb b b.length v = b ++ [v] := by
  simp [putLimb]

theorem lcnt_succ {c : BitVec 16} (h : c.toNat < 510) : (c + 1).toNat = c.toNat + 1 := by
  rw [BitVec.toNat_add]; simp; omega

/-- A beat of LDW64 (40_construct.md R102). -/
theorem beat64_eq {s : State} {rd : Reg} {wl : Nat} (hl : LoadOk s rd wl 1) (hw : wl ≤ 255)
    (v : Limb) : s.beat64 rd wl v =
      if s.lcnt.toNat + 1 = wl then
        { s with
          w := s.w.set rd.val (some ⟨wl, limbsVal (s.lbuf ++ [v])⟩)
          lbuf := [], lcnt := 0, phase := .idle, done := true }
      else { s with lbuf := s.lbuf ++ [v], lcnt := s.lcnt + 1 } := by
  obtain ⟨_, h2, h3⟩ := hl
  have h3 : s.lbuf.length = s.lcnt.toNat := by rw [h3]; omega
  simp only [State.beat64, State.endBeat, ← h3, putLimb_end]
  rw [lcnt_succ (by omega), ← h3]
  split <;> rfl

/-- The first beat of a pair of LDW32 (40_construct.md R103). -/
theorem beat32_even {s : State} {rd : Reg} {wl : Nat} (hl : LoadOk s rd wl 2) (hw : wl ≤ 255)
    (v : Limb) (he : s.lcnt.toNat % 2 = 0) :
    s.beat32 rd wl v = { s with lbuf := s.lbuf ++ [v <<< 32], lcnt := s.lcnt + 1 } := by
  obtain ⟨_, h2, h3⟩ := hl
  have h3 : s.lbuf.length = s.lcnt.toNat / 2 := by rw [h3]; omega
  simp only [State.beat32, State.endBeat, put32, if_pos he, ← h3, putLimb_end]
  rw [lcnt_succ (by omega), if_neg (by omega)]

/-- The second beat of a pair of LDW32 (40_construct.md R103). -/
theorem beat32_odd {s : State} {rd : Reg} {wl : Nat} (hl : LoadOk s rd wl 2) (hw : wl ≤ 255)
    (v : Limb) (he : s.lcnt.toNat % 2 = 1) :
    ∃ buf l, s.lbuf = buf ++ [l] ∧ s.beat32 rd wl v =
      if s.lcnt.toNat + 1 = 2 * wl then
        { s with
          w := s.w.set rd.val (some ⟨wl, limbsVal (buf ++ [l ||| v])⟩)
          lbuf := [], lcnt := 0, phase := .idle, done := true }
      else { s with lbuf := buf ++ [l ||| v], lcnt := s.lcnt + 1 } := by
  obtain ⟨_, h2, h3⟩ := hl
  have h3 : s.lbuf.length = s.lcnt.toNat / 2 + 1 := by rw [h3]; omega
  obtain ⟨buf, l, hb⟩ : ∃ buf l, s.lbuf = buf ++ [l] := by
    rcases List.eq_nil_or_concat s.lbuf with h | ⟨b, l, h⟩
    · rw [h] at h3; simp at h3
    · exact ⟨b, l, by simpa using h⟩
  refine ⟨buf, l, hb, ?_⟩
  have h4 : s.lcnt.toNat / 2 = buf.length := by rw [hb] at h3; simp at h3; omega
  simp only [State.beat32, State.endBeat, put32, if_neg (show ¬ s.lcnt.toNat % 2 = 0 by omega), hb,
    h4]
  have e : putLimb (buf ++ [l]) buf.length ((buf ++ [l]).getD buf.length 0 ||| v) =
      buf ++ [l ||| v] := by simp [putLimb]
  rw [e, lcnt_succ (by omega)]
  split <;> rfl

/-- A beat touches only the destination, the counter, the buffer, the phase and DONE. -/
theorem writeDin_frame {maxLimbs : Nat} {s u : State} {v : Limb}
    (h : s.writeDin maxLimbs v = some u) :
    u = { s with w := u.w, phase := u.phase, done := u.done, lcnt := u.lcnt, lbuf := u.lbuf } := by
  unfold State.writeDin at h
  split at h
  · cases h
    simp only [State.beat64, State.endBeat]
    split <;> rfl
  · split at h
    · cases h
      simp only [State.beat32, State.endBeat]
      split <;> rfl
    · cases h
  · cases h

end Sys2Proof.Safety
end

