-- ==== Sys2Proof/Laws/Words.lean ====
section
/-! SUPPORT. The fields of a packed word, and what each format's mask tests. -/

namespace Sys2Proof

theorem slice_and (x y lo w : Nat) :
    (x &&& y) / 2 ^ lo % 2 ^ w = (x / 2 ^ lo % 2 ^ w) &&& (y / 2 ^ lo % 2 ^ w) := by
  rw [Nat.and_div_two_pow, Nat.and_mod_two_pow]

theorem and_fifteen (x : Nat) : x &&& 15 = x % 16 := Nat.and_two_pow_sub_one_eq_mod x 4

theorem and_all_ones (x : Nat) : x &&& 255 = x % 256 := Nat.and_two_pow_sub_one_eq_mod x 8

/-- A word is the sum of its six fields (30_encoding.md R81). -/
theorem toNat_eq_fields (c : Word) :
    c.toNat = c.toNat / 2 ^ 24 % 2 ^ 8 * 2 ^ 24 + c.toNat / 2 ^ 20 % 2 ^ 4 * 2 ^ 20 +
      c.toNat / 2 ^ 16 % 2 ^ 4 * 2 ^ 16 + c.toNat / 2 ^ 12 % 2 ^ 4 * 2 ^ 12 +
      c.toNat / 2 ^ 8 % 2 ^ 4 * 2 ^ 8 + c.toNat / 2 ^ 0 % 2 ^ 8 := by
  have := c.isLt
  omega

/-- The six fields of a word under a mask (30_encoding.md R81). -/
theorem toNat_and_fields (c m : Word) : (c &&& m).toNat =
    ((c.toNat / 2 ^ 24 % 2 ^ 8) &&& (m.toNat / 2 ^ 24 % 2 ^ 8)) * 2 ^ 24 +
    ((c.toNat / 2 ^ 20 % 2 ^ 4) &&& (m.toNat / 2 ^ 20 % 2 ^ 4)) * 2 ^ 20 +
    ((c.toNat / 2 ^ 16 % 2 ^ 4) &&& (m.toNat / 2 ^ 16 % 2 ^ 4)) * 2 ^ 16 +
    ((c.toNat / 2 ^ 12 % 2 ^ 4) &&& (m.toNat / 2 ^ 12 % 2 ^ 4)) * 2 ^ 12 +
    ((c.toNat / 2 ^ 8 % 2 ^ 4) &&& (m.toNat / 2 ^ 8 % 2 ^ 4)) * 2 ^ 8 +
    ((c.toNat / 2 ^ 0 % 2 ^ 8) &&& (m.toNat / 2 ^ 0 % 2 ^ 8)) := by
  rw [toNat_eq_fields (c &&& m)]
  simp only [BitVec.toNat_and, slice_and]

/-- What the mask of each format tests: that its must-be-zero fields are zero (30_encoding.md R82). -/
theorem mask_test (f : Format) (c : Word) :
    c &&& f.mask = BitVec.ofNat 32 (opField c * 2 ^ 24) ↔
      match f with
      | .c => (raField c).val = 0 ∧ (rbField c).val = 0 ∧ (rcField c).val = 0
      | .v => (rbField c).val = 0 ∧ (rcField c).val = 0
      | .p1 => (rdField c).val = 0 ∧ (rbField c).val = 0 ∧ (rcField c).val = 0 ∧ wlField c = 0
      | .p2 => (rdField c).val = 0 ∧ (rcField c).val = 0 ∧ wlField c = 0
      | .u => (rbField c).val = 0 ∧ (rcField c).val = 0 ∧ wlField c = 0
      | .b => (rcField c).val = 0 ∧ wlField c = 0
      | .q => wlField c = 0
      | .m => True := by
  rw [← BitVec.toNat_inj, toNat_and_fields]
  have e1 : opField c = c.toNat / 2 ^ 24 % 2 ^ 8 := rfl
  have e2 : (rdField c).val = c.toNat / 2 ^ 20 % 2 ^ 4 := rfl
  have e3 : (raField c).val = c.toNat / 2 ^ 16 % 2 ^ 4 := rfl
  have e4 : (rbField c).val = c.toNat / 2 ^ 12 % 2 ^ 4 := rfl
  have e5 : (rcField c).val = c.toNat / 2 ^ 8 % 2 ^ 4 := rfl
  have e6 : wlField c = c.toNat / 2 ^ 0 % 2 ^ 8 := rfl
  rw [e1, e2, e3, e4, e5, e6, BitVec.toNat_ofNat]
  have b1 : c.toNat / 2 ^ 24 % 2 ^ 8 < 256 := Nat.mod_lt _ (by decide)
  have b2 : c.toNat / 2 ^ 20 % 2 ^ 4 < 16 := Nat.mod_lt _ (by decide)
  have b3 : c.toNat / 2 ^ 16 % 2 ^ 4 < 16 := Nat.mod_lt _ (by decide)
  have b4 : c.toNat / 2 ^ 12 % 2 ^ 4 < 16 := Nat.mod_lt _ (by decide)
  have b5 : c.toNat / 2 ^ 8 % 2 ^ 4 < 16 := Nat.mod_lt _ (by decide)
  have b6 : c.toNat / 2 ^ 0 % 2 ^ 8 < 256 := Nat.mod_lt _ (by decide)
  generalize c.toNat / 2 ^ 24 % 2 ^ 8 = x1 at *
  generalize c.toNat / 2 ^ 20 % 2 ^ 4 = x2 at *
  generalize c.toNat / 2 ^ 16 % 2 ^ 4 = x3 at *
  generalize c.toNat / 2 ^ 12 % 2 ^ 4 = x4 at *
  generalize c.toNat / 2 ^ 8 % 2 ^ 4 = x5 at *
  generalize c.toNat / 2 ^ 0 % 2 ^ 8 = x6 at *
  have hx : x1 * 2 ^ 24 % 2 ^ 32 = x1 * 2 ^ 24 := by omega
  rw [hx]
  cases f <;>
    norm_num [Format.mask, and_fifteen, and_all_ones, Nat.mod_eq_of_lt, *] <;>
    omega

/-- A packed word holds the fields it was packed from. -/
theorem fields_packWord (op : Nat) (rd ra rb rc : Reg) (wl : Nat) (ho : op < 256)
    (hw : wl < 256) :
    opField (packWord op rd ra rb rc wl) = op ∧ rdField (packWord op rd ra rb rc wl) = rd ∧
    raField (packWord op rd ra rb rc wl) = ra ∧ rbField (packWord op rd ra rb rc wl) = rb ∧
    rcField (packWord op rd ra rb rc wl) = rc ∧ wlField (packWord op rd ra rb rc wl) = wl := by
  have := rd.isLt
  have := ra.isLt
  have := rb.isLt
  have := rc.isLt
  simp only [packWord, opField, rdField, raField, rbField, rcField, wlField, regField, bitSlice,
    BitVec.toNat_ofNat, Fin.ext_iff]
  refine ⟨?_, ?_, ?_, ?_, ?_, ?_⟩ <;> omega

/-- A word is packed from its own fields (30_encoding.md R81). -/
theorem packWord_fields (c : Word) :
    packWord (opField c) (rdField c) (raField c) (rbField c) (rcField c) (wlField c) = c := by
  have hc := c.isLt
  rw [← BitVec.toNat_inj]
  simp only [packWord, opField, rdField, raField, rbField, rcField, wlField, regField, bitSlice,
    BitVec.toNat_ofNat]
  omega

/-- The decoder on a word whose opcode's row is known (30_encoding.md R92). -/
theorem decode_of_row {maxLimbs : Nat} {c : Word} {f : Format}
    {build : Reg → Reg → Reg → Reg → Nat → Instr}
    (hrow : opcodeRow (opField c) = some (f, build))
    (hmask : c &&& f.mask = BitVec.ofNat 32 (opField c * 2 ^ 24))
    (hwl : f.usesWl = true → 1 ≤ wlField c ∧ wlField c ≤ maxLimbs)
    (hdiv : opField c = 0x33 → rdField c ≠ rcField c) :
    decode maxLimbs c =
      .ok (build (rdField c) (raField c) (rbField c) (rcField c) (wlField c)) := by
  unfold decode
  rw [hrow]
  show ite _ _ _ = _
  rw [if_neg (not_not.2 hmask), if_neg, if_neg]
  · exact fun h => hdiv h.1 h.2
  · rintro ⟨hu, h⟩
    have := hwl hu
    omega

/-- The decoder on a word whose fields are known (30_encoding.md R92). -/
theorem decode_of_fields {maxLimbs : Nat} {c : Word} {op : Nat} {rd ra rb rc : Reg} {wl : Nat}
    {f : Format} {build : Reg → Reg → Reg → Reg → Nat → Instr}
    (h : opField c = op ∧ rdField c = rd ∧ raField c = ra ∧ rbField c = rb ∧ rcField c = rc ∧
      wlField c = wl)
    (hrow : opcodeRow op = some (f, build))
    (hmask : c &&& f.mask = BitVec.ofNat 32 (opField c * 2 ^ 24))
    (hwl : f.usesWl = true → 1 ≤ wl ∧ wl ≤ maxLimbs) (hdiv : op = 0x33 → rd ≠ rc) :
    decode maxLimbs c = .ok (build rd ra rb rc wl) := by
  obtain ⟨rfl, rfl, rfl, rfl, rfl, rfl⟩ := h
  exact decode_of_row hrow hmask hwl hdiv

/-- What it takes for the decoder to answer a command: a row of the opcode map, its must-be-zero fields
zero, a legal width where the format uses it, and distinct destinations for DIV (30_encoding.md R92). -/
theorem decode_ok {maxLimbs : Nat} {c : Word} {i : Instr} (h : decode maxLimbs c = .ok i) :
    ∃ f build, opcodeRow (opField c) = some (f, build) ∧
      c &&& f.mask = BitVec.ofNat 32 (opField c * 2 ^ 24) ∧
      (f.usesWl = true → 1 ≤ wlField c ∧ wlField c ≤ maxLimbs) ∧
      (opField c = 0x33 → rdField c ≠ rcField c) ∧
      i = build (rdField c) (raField c) (rbField c) (rcField c) (wlField c) := by
  unfold decode at h
  split at h
  · cases h
  · rename_i f build hrow
    refine ⟨f, build, hrow, ?_⟩
    split at h
    · cases h
    · rename_i hm
      split at h
      · cases h
      · rename_i hw
        split at h
        · cases h
        · rename_i hd
          refine ⟨not_not.1 hm, fun hu => ?_, fun a b => hd ⟨a, b⟩, by cases h; rfl⟩
          by_contra hc
          exact hw ⟨hu, by omega⟩

/-- The 21 opcodes (30_encoding.md R83). -/
theorem opcodeRow_mem {op : Nat} {r} (h : opcodeRow op = some r) :
    op ∈ [0x01, 0x02, 0x03, 0x04, 0x05, 0x10, 0x11, 0x12, 0x13, 0x14, 0x15, 0x20, 0x21, 0x22, 0x30,
      0x31, 0x32, 0x33, 0x34, 0x40, 0x41] := by
  unfold opcodeRow at h
  split at h <;> first | (cases h; done) | simp

end Sys2Proof
end

