-- ==== Sys2Proof/Laws/PerInstr.lean ====
section
/-! SUPPORT. The per-command family RoundTrip: the decoder reads back a well-formed command from its
word (30_encoding.md R81, R83, R92). -/

namespace Sys2Proof.Laws.RoundTrip

/-- A well-formed command is what the decoder reads from its word. -/
def Statement (i : Instr) : Prop :=
  ∀ maxLimbs, maxLimbs ≤ 255 → i.wellFormed maxLimbs = true → decode maxLimbs (encode i) = .ok i

theorem wl_bounds {maxLimbs wl : Nat} (h : legalWl maxLimbs wl = true) :
    1 ≤ wl ∧ wl ≤ maxLimbs := by simpa [legalWl] using h

theorem ldi (rd : Reg) (wl : Nat) : Statement (.ldi rd wl) := by
  intro maxLimbs hM hwf
  have h := wl_bounds hwf
  have hf := fields_packWord 0x01 rd 0 0 0 wl (by decide) (by omega)
  rw [encode]
  generalize packWord 0x01 rd 0 0 0 wl = c at hf ⊢
  exact decode_of_fields hf rfl ((mask_test _ _).2 (by simp [hf]))
    (fun _ => h) (fun h => absurd h (by decide))

theorem ldw64 (rd : Reg) (wl : Nat) : Statement (.ldw64 rd wl) := by
  intro maxLimbs hM hwf
  have h := wl_bounds hwf
  have hf := fields_packWord 0x02 rd 0 0 0 wl (by decide) (by omega)
  rw [encode]
  generalize packWord 0x02 rd 0 0 0 wl = c at hf ⊢
  exact decode_of_fields hf rfl ((mask_test _ _).2 (by simp [hf]))
    (fun _ => h) (fun h => absurd h (by decide))

theorem ldw32 (rd : Reg) (wl : Nat) : Statement (.ldw32 rd wl) := by
  intro maxLimbs hM hwf
  have h := wl_bounds hwf
  have hf := fields_packWord 0x03 rd 0 0 0 wl (by decide) (by omega)
  rw [encode]
  generalize packWord 0x03 rd 0 0 0 wl = c at hf ⊢
  exact decode_of_fields hf rfl ((mask_test _ _).2 (by simp [hf]))
    (fun _ => h) (fun h => absurd h (by decide))

theorem ldrnd (rd : Reg) (wl : Nat) : Statement (.ldrnd rd wl) := by
  intro maxLimbs hM hwf
  have h := wl_bounds hwf
  have hf := fields_packWord 0x04 rd 0 0 0 wl (by decide) (by omega)
  rw [encode]
  generalize packWord 0x04 rd 0 0 0 wl = c at hf ⊢
  exact decode_of_fields hf rfl ((mask_test _ _).2 (by simp [hf]))
    (fun _ => h) (fun h => absurd h (by decide))

theorem cvt (rd ra : Reg) (wl : Nat) : Statement (.cvt rd ra wl) := by
  intro maxLimbs hM hwf
  have h := wl_bounds hwf
  have hf := fields_packWord 0x05 rd ra 0 0 wl (by decide) (by omega)
  rw [encode]
  generalize packWord 0x05 rd ra 0 0 wl = c at hf ⊢
  exact decode_of_fields hf rfl ((mask_test _ _).2 (by simp [hf]))
    (fun _ => h) (fun h => absurd h (by decide))

theorem iszero (ra : Reg) : Statement (.iszero ra) := by
  intro maxLimbs _ _
  have hf := fields_packWord 0x10 0 ra 0 0 0 (by decide) (by decide)
  rw [encode]
  generalize packWord 0x10 0 ra 0 0 0 = c at hf ⊢
  exact decode_of_fields hf rfl ((mask_test _ _).2 (by simp [hf]))
    (fun h => absurd h (by decide)) (fun h => absurd h (by decide))

theorem isodd (ra : Reg) : Statement (.isodd ra) := by
  intro maxLimbs _ _
  have hf := fields_packWord 0x11 0 ra 0 0 0 (by decide) (by decide)
  rw [encode]
  generalize packWord 0x11 0 ra 0 0 0 = c at hf ⊢
  exact decode_of_fields hf rfl ((mask_test _ _).2 (by simp [hf]))
    (fun h => absurd h (by decide)) (fun h => absurd h (by decide))

theorem cmp (ra rb : Reg) : Statement (.cmp ra rb) := by
  intro maxLimbs _ _
  have hf := fields_packWord 0x12 0 ra rb 0 0 (by decide) (by decide)
  rw [encode]
  generalize packWord 0x12 0 ra rb 0 0 = c at hf ⊢
  exact decode_of_fields hf rfl ((mask_test _ _).2 (by simp [hf]))
    (fun h => absurd h (by decide)) (fun h => absurd h (by decide))

theorem eq64 (ra : Reg) : Statement (.eq64 ra) := by
  intro maxLimbs _ _
  have hf := fields_packWord 0x13 0 ra 0 0 0 (by decide) (by decide)
  rw [encode]
  generalize packWord 0x13 0 ra 0 0 0 = c at hf ⊢
  exact decode_of_fields hf rfl ((mask_test _ _).2 (by simp [hf]))
    (fun h => absurd h (by decide)) (fun h => absurd h (by decide))

theorem fhb (ra : Reg) : Statement (.fhb ra) := by
  intro maxLimbs _ _
  have hf := fields_packWord 0x14 0 ra 0 0 0 (by decide) (by decide)
  rw [encode]
  generalize packWord 0x14 0 ra 0 0 0 = c at hf ⊢
  exact decode_of_fields hf rfl ((mask_test _ _).2 (by simp [hf]))
    (fun h => absurd h (by decide)) (fun h => absurd h (by decide))

theorem fulc (ra : Reg) : Statement (.fulc ra) := by
  intro maxLimbs _ _
  have hf := fields_packWord 0x15 0 ra 0 0 0 (by decide) (by decide)
  rw [encode]
  generalize packWord 0x15 0 ra 0 0 0 = c at hf ⊢
  exact decode_of_fields hf rfl ((mask_test _ _).2 (by simp [hf]))
    (fun h => absurd h (by decide)) (fun h => absurd h (by decide))

theorem shl (rd ra : Reg) : Statement (.shl rd ra) := by
  intro maxLimbs _ _
  have hf := fields_packWord 0x20 rd ra 0 0 0 (by decide) (by decide)
  rw [encode]
  generalize packWord 0x20 rd ra 0 0 0 = c at hf ⊢
  exact decode_of_fields hf rfl ((mask_test _ _).2 (by simp [hf]))
    (fun h => absurd h (by decide)) (fun h => absurd h (by decide))

theorem shr (rd ra : Reg) : Statement (.shr rd ra) := by
  intro maxLimbs _ _
  have hf := fields_packWord 0x21 rd ra 0 0 0 (by decide) (by decide)
  rw [encode]
  generalize packWord 0x21 rd ra 0 0 0 = c at hf ⊢
  exact decode_of_fields hf rfl ((mask_test _ _).2 (by simp [hf]))
    (fun h => absurd h (by decide)) (fun h => absurd h (by decide))

theorem not (rd ra : Reg) : Statement (.not rd ra) := by
  intro maxLimbs _ _
  have hf := fields_packWord 0x22 rd ra 0 0 0 (by decide) (by decide)
  rw [encode]
  generalize packWord 0x22 rd ra 0 0 0 = c at hf ⊢
  exact decode_of_fields hf rfl ((mask_test _ _).2 (by simp [hf]))
    (fun h => absurd h (by decide)) (fun h => absurd h (by decide))

theorem add (rd ra rb : Reg) : Statement (.add rd ra rb) := by
  intro maxLimbs _ _
  have hf := fields_packWord 0x30 rd ra rb 0 0 (by decide) (by decide)
  rw [encode]
  generalize packWord 0x30 rd ra rb 0 0 = c at hf ⊢
  exact decode_of_fields hf rfl ((mask_test _ _).2 (by simp [hf]))
    (fun h => absurd h (by decide)) (fun h => absurd h (by decide))

theorem sub (rd ra rb : Reg) : Statement (.sub rd ra rb) := by
  intro maxLimbs _ _
  have hf := fields_packWord 0x31 rd ra rb 0 0 (by decide) (by decide)
  rw [encode]
  generalize packWord 0x31 rd ra rb 0 0 = c at hf ⊢
  exact decode_of_fields hf rfl ((mask_test _ _).2 (by simp [hf]))
    (fun h => absurd h (by decide)) (fun h => absurd h (by decide))

theorem mul (rd ra rb : Reg) : Statement (.mul rd ra rb) := by
  intro maxLimbs _ _
  have hf := fields_packWord 0x32 rd ra rb 0 0 (by decide) (by decide)
  rw [encode]
  generalize packWord 0x32 rd ra rb 0 0 = c at hf ⊢
  exact decode_of_fields hf rfl ((mask_test _ _).2 (by simp [hf]))
    (fun h => absurd h (by decide)) (fun h => absurd h (by decide))

theorem div (rd ra rb rc : Reg) : Statement (.div rd ra rb rc) := by
  intro maxLimbs _ hwf
  have hf := fields_packWord 0x33 rd ra rb rc 0 (by decide) (by decide)
  rw [encode]
  generalize packWord 0x33 rd ra rb rc 0 = c at hf ⊢
  exact decode_of_fields hf rfl ((mask_test _ _).2 (by simp [hf]))
    (fun h => absurd h (by decide)) (fun _ => by simpa [Instr.wellFormed] using hwf)

theorem pow (rd ra rb : Reg) : Statement (.pow rd ra rb) := by
  intro maxLimbs _ _
  have hf := fields_packWord 0x34 rd ra rb 0 0 (by decide) (by decide)
  rw [encode]
  generalize packWord 0x34 rd ra rb 0 0 = c at hf ⊢
  exact decode_of_fields hf rfl ((mask_test _ _).2 (by simp [hf]))
    (fun h => absurd h (by decide)) (fun h => absurd h (by decide))

theorem mulmod (rd ra rb rc : Reg) (wl : Nat) : Statement (.mulmod rd ra rb rc wl) := by
  intro maxLimbs hM hwf
  have h := wl_bounds hwf
  have hf := fields_packWord 0x40 rd ra rb rc wl (by decide) (by omega)
  rw [encode]
  generalize packWord 0x40 rd ra rb rc wl = c at hf ⊢
  exact decode_of_fields hf rfl ((mask_test _ _).2 trivial)
    (fun _ => h) (fun h => absurd h (by decide))

theorem powmod (rd ra rb rc : Reg) (wl : Nat) : Statement (.powmod rd ra rb rc wl) := by
  intro maxLimbs hM hwf
  have h := wl_bounds hwf
  have hf := fields_packWord 0x41 rd ra rb rc wl (by decide) (by omega)
  rw [encode]
  generalize packWord 0x41 rd ra rb rc wl = c at hf ⊢
  exact decode_of_fields hf rfl ((mask_test _ _).2 trivial)
    (fun _ => h) (fun h => absurd h (by decide))

end Sys2Proof.Laws.RoundTrip
end

