-- ==== Sys2Proof/Laws/Safety.lean ====
section
/-! SUPPORT. Every operation on the register file keeps its registers in their form. -/

namespace Sys2Proof.Safety

open Sys2Proof.Machine

/-- Every constructed register holds a wide value in its form (10_state.md R21). -/
abbrev RegsOk (maxLimbs : Nat) (s : State) : Prop :=
  ∀ i v, s.reg i = some v → WideOk maxLimbs v

theorem RegsOk.setReg {maxLimbs : Nat} {s : State} (h : RegsOk maxLimbs s) (r : Reg) {v : Wide}
    (hv : WideOk maxLimbs v) : RegsOk maxLimbs (s.setReg r (some v)) := by
  intro i u hu
  rw [State.reg_setReg] at hu
  split at hu
  · cases hu; exact hv
  · exact h i u hu

theorem RegsOk.clearRegs {maxLimbs : Nat} {s : State} (h : RegsOk maxLimbs s) (l : List Reg) :
    RegsOk maxLimbs (s.clearRegs l) := by
  intro i u hu
  rw [State.reg_clearRegs] at hu
  split at hu
  · cases hu
  · exact h i u hu

theorem RegsOk.applyReset (maxLimbs : Nat) (s : State) : RegsOk maxLimbs s.applyReset := by
  intro i v h
  simp at h

theorem RegsOk.takeFault {maxLimbs : Nat} {s : State} (h : RegsOk maxLimbs s) (f : FaultCode)
    (l : List Reg) : RegsOk maxLimbs (s.takeFault f l) := by
  cases f <;> first | exact h | exact h.clearRegs l

end Sys2Proof.Safety
end

