-- ==== Sys2Proof/Tests/Slice0.lean ====
section
/-! SUPPORT. The model's own tests: ill-formed commands refused, words written out bit by bit, one step
per command with the values of spec/95_test_vectors.md (its vector named in each docstring), and for
every statement with hypotheses a theorem that a concrete state meets them. -/

namespace Sys2Proof.Tests

open Sys2Proof.Machine Sys2Proof.Safety Sys2Proof.Spec

/-! ### Helpers -/

/-- The reset state with the listed registers constructed. -/
def start (regs : List (Reg × Wide)) : State :=
  regs.foldl (fun s p => s.setReg p.1 (some p.2)) State.reset

/-- One step that runs the word answers a next state of which `p` holds. -/
def ran (w : Nat) (s : State) (p : State → Bool) : Bool :=
  match step (s.withFetchWord 32 w) with
  | .next t => p t
  | .fault _ => false
  | .refused _ => false

/-- The given number of steps from a list of moves, and whether `p` holds then. -/
def played (moves : List Move) (s : State) (p : State → Bool) : Bool :=
  match Host.Core.run core moves.length { s with pending := moves } with
  | .next t => p t
  | .fault _ => false
  | .refused _ => false

/-- The start state of 95_test_vectors.md section 2.7, with `ISODD W3` still in `CMDR`. -/
def sample : State :=
  { start [(0, ⟨2, 100⟩), (1, ⟨2, 0⟩), (2, ⟨1, 7⟩), (3, ⟨1, 9⟩)] with
    res := 1, imm := 9, cmdr := 0x11030000, done := true }

/-- `sample` in the FAULT phase, after `DIV W4, W0, W1, W5` (vector F5). -/
def sampleFault : State :=
  { sample with cmdr := 0x33401500, done := false, errcode := 0x04, phase := .fault }

/-- `sample` with a command word accepted. -/
def sampleRun (c : Word) : State := sample.accept c

/-- A load of `LDW64 W7, 3` after two beats (95_test_vectors.md section 2.2). -/
def sampleLoad64 : State :=
  { sample.accept 0x02700003 with phase := .load, lcnt := 2, lbuf := [1, 2] }

/-- A load of `LDW32 W7, 2` after `n` beats. -/
def sampleLoad32 (n : BitVec 16) (buf : List Limb) : State :=
  { sample.accept 0x03700002 with phase := .load, lcnt := n, lbuf := buf }

/-- The block held in reset. -/
def sampleHeld : State := { State.reset with rst := true }

/-! ### Well-formedness: each check refuses an ill-formed command -/

theorem test_zero_width_refused :
    (Instr.ldi 0 0).wellFormed 64 = false ∧ (Instr.ldw64 0 0).wellFormed 64 = false ∧
    (Instr.ldw32 0 0).wellFormed 64 = false ∧ (Instr.ldrnd 0 0).wellFormed 64 = false ∧
    (Instr.cvt 0 1 0).wellFormed 64 = false ∧ (Instr.mulmod 0 1 2 3 0).wellFormed 64 = false ∧
    (Instr.powmod 0 1 2 3 0).wellFormed 64 = false := by decide

theorem test_wide_width_refused :
    (Instr.ldi 0 65).wellFormed 64 = false ∧ (Instr.ldw64 0 65).wellFormed 64 = false ∧
    (Instr.ldw32 0 65).wellFormed 64 = false ∧ (Instr.ldrnd 0 65).wellFormed 64 = false ∧
    (Instr.cvt 0 1 65).wellFormed 64 = false ∧ (Instr.mulmod 0 1 2 3 65).wellFormed 64 = false ∧
    (Instr.powmod 0 1 2 3 65).wellFormed 64 = false := by decide

theorem test_equal_destinations_refused : (Instr.div 2 0 1 2).wellFormed 64 = false := by decide

theorem test_boundary_widths_accepted :
    (Instr.ldi 0 1).wellFormed 64 = true ∧ (Instr.ldi 15 64).wellFormed 64 = true ∧
    (Instr.div 0 0 1 1).wellFormed 64 = true := by decide

/-! ### Words written out bit by bit: op 31:24, rd 23:20, ra 19:16, rb 15:12, rc 11:8, wl 7:0
(30_encoding.md R81, R83) -/

theorem test_decode_ldi :
    decode 64 0b0000_0001_1111_0000_0000_0000_0100_0000#32 = .ok (.ldi 15 64) := by decide
theorem test_decode_ldw64 :
    decode 64 0b0000_0010_0001_0000_0000_0000_0000_0010#32 = .ok (.ldw64 1 2) := by decide
theorem test_decode_ldw32 :
    decode 64 0b0000_0011_0010_0000_0000_0000_0000_0001#32 = .ok (.ldw32 2 1) := by decide
theorem test_decode_ldrnd :
    decode 64 0b0000_0100_1001_0000_0000_0000_0000_0100#32 = .ok (.ldrnd 9 4) := by decide
theorem test_decode_cvt :
    decode 64 0b0000_0101_0011_0110_0000_0000_0000_0010#32 = .ok (.cvt 3 6 2) := by decide
theorem test_decode_iszero :
    decode 64 0b0001_0000_0000_1001_0000_0000_0000_0000#32 = .ok (.iszero 9) := by decide
theorem test_decode_isodd :
    decode 64 0b0001_0001_0000_0011_0000_0000_0000_0000#32 = .ok (.isodd 3) := by decide
theorem test_decode_cmp :
    decode 64 0b0001_0010_0000_0001_0010_0000_0000_0000#32 = .ok (.cmp 1 2) := by decide
theorem test_decode_eq64 :
    decode 64 0b0001_0011_0000_1010_0000_0000_0000_0000#32 = .ok (.eq64 10) := by decide
theorem test_decode_fhb :
    decode 64 0b0001_0100_0000_1111_0000_0000_0000_0000#32 = .ok (.fhb 15) := by decide
theorem test_decode_fulc :
    decode 64 0b0001_0101_0000_0101_0000_0000_0000_0000#32 = .ok (.fulc 5) := by decide
theorem test_decode_shl :
    decode 64 0b0010_0000_0001_1000_0000_0000_0000_0000#32 = .ok (.shl 1 8) := by decide
theorem test_decode_shr :
    decode 64 0b0010_0001_0111_0010_0000_0000_0000_0000#32 = .ok (.shr 7 2) := by decide
theorem test_decode_not :
    decode 64 0b0010_0010_0101_0001_0000_0000_0000_0000#32 = .ok (.not 5 1) := by decide
theorem test_decode_add :
    decode 64 0b0011_0000_0101_0011_0100_0000_0000_0000#32 = .ok (.add 5 3 4) := by decide
theorem test_decode_sub :
    decode 64 0b0011_0001_0111_0110_0001_0000_0000_0000#32 = .ok (.sub 7 6 1) := by decide
theorem test_decode_mul :
    decode 64 0b0011_0010_0010_0000_0001_0000_0000_0000#32 = .ok (.mul 2 0 1) := by decide
theorem test_decode_div :
    decode 64 0b0011_0011_0100_0000_0010_0101_0000_0000#32 = .ok (.div 4 0 2 5) := by decide
theorem test_decode_pow :
    decode 64 0b0011_0100_0100_0000_0010_0000_0000_0000#32 = .ok (.pow 4 0 2) := by decide
theorem test_decode_mulmod :
    decode 64 0b0100_0000_0011_0000_0001_0010_0000_0100#32 = .ok (.mulmod 3 0 1 2 4) := by decide
theorem test_decode_powmod :
    decode 64 0b0100_0001_1010_0001_1001_0000_0100_0000#32 = .ok (.powmod 10 1 9 0 64) := by decide

/-- 95_test_vectors.md section 2.1: reserved opcodes. -/
theorem test_reserved_opcodes_refused :
    decode 64 0x00000000#32 = .error .reservedOpcode ∧
    decode 64 0xFFFFFFFF#32 = .error .reservedOpcode ∧
    decode 64 0x06000001#32 = .error .reservedOpcode ∧
    decode 64 0x16000000#32 = .error .reservedOpcode ∧
    decode 64 0x23000000#32 = .error .reservedOpcode ∧
    decode 64 0x35000000#32 = .error .reservedOpcode ∧
    decode 64 0x42000000#32 = .error .reservedOpcode := by decide

/-- 95_test_vectors.md section 2.1: a must-be-zero field of each format. -/
theorem test_must_be_zero_refused :
    decode 64 0x01010001#32 = .error .mustBeZero ∧ decode 64 0x01001001#32 = .error .mustBeZero ∧
    decode 64 0x01000101#32 = .error .mustBeZero ∧ decode 64 0x05001001#32 = .error .mustBeZero ∧
    decode 64 0x10100000#32 = .error .mustBeZero ∧ decode 64 0x10000001#32 = .error .mustBeZero ∧
    decode 64 0x12100000#32 = .error .mustBeZero ∧ decode 64 0x12000100#32 = .error .mustBeZero ∧
    decode 64 0x20000001#32 = .error .mustBeZero ∧ decode 64 0x22000100#32 = .error .mustBeZero ∧
    decode 64 0x30000100#32 = .error .mustBeZero ∧ decode 64 0x30000001#32 = .error .mustBeZero ∧
    decode 64 0x33201301#32 = .error .mustBeZero := by decide

/-- 95_test_vectors.md section 2.1: widths, and DIV with one destination. -/
theorem test_widths_and_destinations_refused :
    decode 64 0x01000000#32 = .error .badWidth ∧ decode 64 0x01000041#32 = .error .badWidth ∧
    decode 64 0x05000000#32 = .error .badWidth ∧ decode 64 0x40301241#32 = .error .badWidth ∧
    decode 64 0x41301200#32 = .error .badWidth ∧
    decode 64 0x33201200#32 = .error .equalDestinations ∧
    decode 64 0x33012000#32 = .error .equalDestinations := by decide

/-! ### One step per command -/

/-- Vector K3. -/
theorem test_ldi_zero_extends : ran 0x01000003 { State.reset with imm := 0xFFFFFFFFFFFFFFFF }
    (fun t => decide (t.reg 0 = some ⟨3, 0xFFFFFFFFFFFFFFFF⟩ ∧ t.status = 0x2)) = true := by decide

/-- Section 2.2: LDW64 enters LOAD with its destination unconstructed. -/
theorem test_ldw64_enters_load : ran 0x02000003 sample
    (fun t => decide (t.reg 0 = none ∧ t.status = 0x9)) = true := by decide

/-- Vector K6, beat by beat. -/
theorem test_ldw64_loads : played (loadMoves (.ldw64 1 2) [1, 2]) State.reset
    (fun t => decide (t.reg 1 = some ⟨2, 2 ^ 65 + 1⟩ ∧ t.answers.head? = some (.data 0x2))) =
    true := by decide

/-- Vector K10, beat by beat. -/
theorem test_ldw32_high_word_first : played
    (loadMoves (.ldw32 2 2) [0x00112233, 0x44556677, 0x8899AABB, 0xCCDDEEFF]) State.reset
    (fun t => decide (t.reg 2 = some ⟨2, 0x8899AABBCCDDEEFF0011223344556677⟩)) = true := by decide

/-- Section 2.2: a beat of LDW32 with its upper half not zero is refused, LCNT stays. -/
theorem test_ldw32_wide_beat_refused :
    played [beatMove 0x100000000] (sampleLoad32 1 [0xA00000000])
    (fun t => decide (t.lcnt = 1 ∧ t.answers = [.slverr])) = true := by decide

/-- Vector K11. -/
theorem test_ldrnd_first_word_low : ran 0x04100002 { State.reset with rnd := [5, 9] }
    (fun t => decide (t.reg 1 = some ⟨2, 9 * 2 ^ 64 + 5⟩ ∧ t.rnd = [])) = true := by decide

/-- Vector K15. -/
theorem test_cvt_drops_limbs : ran 0x05000001 (start [(0, ⟨2, 2 ^ 64 + 5⟩)])
    (fun t => decide (t.reg 0 = some ⟨1, 5⟩)) = true := by decide

/-- Vector K16. -/
theorem test_cvt_unconstructed : ran 0x05490001 (start [(4, ⟨1, 1⟩)])
    (fun t => decide (t.reg 4 = none ∧ t.status = 0x204)) = true := by decide

/-- Section 2.3, W0. -/
theorem test_iszero_reads_every_limb : ran 0x10000000 (start [(0, ⟨2, 2 ^ 64⟩)])
    (fun t => decide (t.res = 0)) = true := by decide

/-- Section 2.3, W4. -/
theorem test_isodd : ran 0x11040000 (start [(4, ⟨2, 2 ^ 64 + 5⟩)])
    (fun t => decide (t.res = 1)) = true := by decide

/-- Vector C4. -/
theorem test_cmp_less : ran 0x12012000 (start [(1, ⟨2, 0⟩), (2, ⟨2, 2 ^ 64 - 1⟩)])
    (fun t => decide (t.res = 0xFFFFFFFFFFFFFFFF)) = true := by decide

/-- Vector F4. -/
theorem test_cmp_width_mismatch : ran 0x12002000 sample
    (fun t => decide (t.res = 1 ∧ t.status = 0x304)) = true := by decide

/-- Vector E3. -/
theorem test_eq64_upper_limbs :
    ran 0x13040000 { start [(4, ⟨2, 2 ^ 64 + 5⟩)] with imm := 5, res := 7 }
    (fun t => decide (t.res = 0)) = true := by decide

/-- Section 2.3, W0. -/
theorem test_fhb : ran 0x14000000 (start [(0, ⟨2, 2 ^ 64⟩)])
    (fun t => decide (t.res = 65)) = true := by decide

/-- Section 2.3, W2. -/
theorem test_fulc : ran 0x15020000 (start [(2, ⟨2, 2 ^ 64 - 1⟩)])
    (fun t => decide (t.res = 1)) = true := by decide

/-- Section 2.4, count 63. -/
theorem test_shl_crosses_limbs :
    ran 0x20100000 { start [(0, ⟨2, 0x8000000000000001⟩)] with imm := 63 }
    (fun t => decide (t.reg 1 = some ⟨2, 0x40000000000000008000000000000000⟩)) = true := by decide

/-- Section 2.4, count 2^64 - 1. -/
theorem test_shl_by_the_largest_count :
    ran 0x20100000 { start [(0, ⟨2, 0x8000000000000001⟩)] with imm := 0xFFFFFFFFFFFFFFFF }
    (fun t => decide (t.reg 1 = some ⟨2, 0⟩ ∧ t.status = 0x2)) = true := by decide

/-- Section 2.4, count 65. -/
theorem test_shr_crosses_limbs :
    ran 0x21100000 { start [(0, ⟨2, 0x80000000000000010000000000000002⟩)] with imm := 65 }
    (fun t => decide (t.reg 1 = some ⟨2, 0x4000000000000000⟩)) = true := by decide

/-- Vector N3. -/
theorem test_not_within_the_width : ran 0x22100000 (start [(0, ⟨1, 0⟩)])
    (fun t => decide (t.reg 1 = some ⟨1, 2 ^ 64 - 1⟩)) = true := by decide

/-- Vector A1. -/
theorem test_add_wraps : ran 0x30201000 (start [(0, ⟨2, 2 ^ 128 - 1⟩), (1, ⟨2, 1⟩)])
    (fun t => decide (t.reg 2 = some ⟨2, 0⟩)) = true := by decide

/-- Vector A3. -/
theorem test_add_in_place : ran 0x30333000 (start [(3, ⟨2, 2 ^ 64 + 2 ^ 63⟩)])
    (fun t => decide (t.reg 3 = some ⟨2, 3 * 2 ^ 64⟩)) = true := by decide

/-- Vector B1. -/
theorem test_sub_borrows : ran 0x31761000 (start [(6, ⟨2, 0⟩), (1, ⟨2, 1⟩)])
    (fun t => decide (t.reg 7 = some ⟨2, 2 ^ 128 - 1⟩ ∧ t.status = 0x2)) = true := by decide

/-- Vector B5. -/
theorem test_sub_width_mismatch : ran 0x31002000 sample
    (fun t => decide (t.reg 0 = none ∧ t.status = 0x304)) = true := by decide

/-- Vector U6. -/
theorem test_mul_two_limbs : ran 0x32201000
    (start [(0, ⟨2, 0x0FEDCBA987654321123456789ABCDEF0⟩), (1, ⟨2, 0x21111111111111111⟩)])
    (fun t => decide (t.reg 2 = some ⟨2, 0x248F82FF0390A620FEC94F918F48BDF0⟩)) = true := by decide

/-- Vector V9. -/
theorem test_div_in_place : ran 0x33001100
    (start [(0, ⟨2, 0x0FEDCBA987654321123456789ABCDEF0⟩), (1, ⟨1, 0x100000001⟩)])
    (fun t => decide (t.reg 0 = some ⟨2, 0x000000000FEDCBA9777777779ABCDF00⟩ ∧
      t.reg 1 = some ⟨2, 0xFFFFFFF0⟩)) = true := by decide

/-- Vector F6. -/
theorem test_div_by_zero : ran 0x33001300 sample
    (fun t => decide (t.reg 0 = none ∧ t.reg 3 = none ∧ t.reg 1 = some ⟨2, 0⟩ ∧
      t.status = 0x404)) = true := by decide

/-- Vector X7p. -/
theorem test_pow_wide_exponent : ran 0x34201000 (start [(0, ⟨1, 3⟩), (1, ⟨4, 100⟩)])
    (fun t => decide (t.reg 2 = some ⟨1, 0xD6947D55CF3813D1⟩)) = true := by decide

/-- Vector X5p. -/
theorem test_pow_zero_zero : ran 0x34201000 (start [(0, ⟨1, 0⟩), (1, ⟨1, 0⟩)])
    (fun t => decide (t.reg 2 = some ⟨1, 1⟩)) = true := by decide

/-- Vector M5. -/
theorem test_mulmod_largest_modulus : ran 0x40301201
    (start [(0, ⟨1, 2 ^ 64 - 1⟩), (1, ⟨1, 2 ^ 64 - 1⟩), (2, ⟨1, 2 ^ 63⟩)])
    (fun t => decide (t.reg 3 = some ⟨1, 1⟩)) = true := by decide

/-- Vector M6. -/
theorem test_mulmod_width_safety : ran 0x40301201
    (start [(0, ⟨1, 2 ^ 64 - 1⟩), (1, ⟨1, 2 ^ 64 - 1⟩), (2, ⟨1, 2 ^ 63 + 1⟩)])
    (fun t => decide (t.reg 3 = none ∧ t.status = 0x604)) = true := by decide

/-- Vector Q3. -/
theorem test_powmod_exponent_zero : ran 0x41301201
    (start [(0, ⟨1, 2⟩), (1, ⟨1, 0⟩), (2, ⟨1, 1⟩)])
    (fun t => decide (t.reg 3 = some ⟨1, 1⟩)) = true := by decide

/-- Vector Q14. -/
theorem test_powmod_width_safety : ran 0x41301202
    (start [(0, ⟨1, 3⟩), (1, ⟨1, 4⟩), (2, ⟨2, 2 ^ 64 + 1⟩)])
    (fun t => decide (t.reg 3 = none ∧ t.status = 0x604)) = true := by decide

/-- Vector F10. -/
theorem test_illegal_outranks : ran 0x33491501 sample
    (fun t => decide (t.w = sample.w ∧ t.res = 1 ∧ t.cmdr = 0x33491501 ∧ t.status = 0x104)) =
    true := by decide

/-- Vector F9. -/
theorem test_zero_modulus_outranks : ran 0x40402101 sample
    (fun t => decide (t.status = 0x504)) = true := by decide

/-! ### The port (95_test_vectors.md section 2.8) -/

theorem test_window : played
    [readMove 0x1000, readMove 0x1008, readMove 0x1010, readMove 0x2000, readMove 0x5800] sample
    (fun t => decide (t.answers = [.slverr, .data 7, .slverr, .data 0, .data 0x64])) = true := by
  decide

theorem test_views : played
    [readMove 0x0010, readMove 0x0030, readMove 0x0038, readMove 0x00C8, readMove 0x0090] sample
    (fun t => decide (t.answers = [.data 1, .data 0, .data 0x11030000, .data 0x01404010,
      .data 0x2])) = true := by decide

theorem test_refusals : played
    [.access (.read 0x0010 4), .access (.read 0x0011 8), readMove 0x0000, readMove 0x0040,
      readMove 0x17F8, readMove 0x9000, writeMove 0x0010 0, writeMove 0x0020 5,
      writeMove 0x0000 0x101000001, writeMove 0x0028 2] sample
    (fun t => decide (t.answers = List.replicate 10 .slverr ∧
      { t with answers := [] } = sample)) = true := by decide

/-- Section 2.7, after F5. -/
theorem test_fault_phase : played
    [readMove 0x0010, readMove 0x0018, readMove 0x0080, writeMove 0x0000 0x01000001, .engine,
      resetMove, readMove 0x0010] sampleFault
    (fun t => decide (t.answers = [.data 0, .okay, .slverr, .data 2, .data 1, .data 0x404] ∧
      t.cmdr = 0)) = true := by decide

/-- Vector X1. -/
theorem test_export : (start [(2, ⟨2, 0x8899AABBCCDDEEFF0011223344556677⟩)]).windowBytes 64 2 2 =
    some [0x77, 0x66, 0x55, 0x44, 0x33, 0x22, 0x11, 0x00,
      0xFF, 0xEE, 0xDD, 0xCC, 0xBB, 0xAA, 0x99, 0x88] := by decide

/-- 70_reset_and_hazards.md R264: a run whose last access was answered ends well; one whose last access
was made while `rst` was asserted does not, though the phase is IDLE. -/
theorem test_good_end :
    (∃ t, Host.Core.run core 1 { sample with pending := [readMove 0x0010] } = .next t ∧ GoodEnd t) ∧
    ∃ t, Host.Core.run core 2 { sample with pending := [.rst true, readMove 0x0010] } = .next t ∧
      t.phase = .idle ∧ ¬ GoodEnd t :=
  ⟨⟨_, rfl, by unfold GoodEnd; decide⟩, ⟨_, rfl, rfl, fun h => h.2.1 rfl⟩⟩

/-- 30_encoding.md R94. -/
theorem test_pseudo_commands :
    (encode (Pseudo.clr 0 2).expand.1, (Pseudo.clr 0 2).expand.2) = (0x01000002#32, some 0) ∧
    encode (Pseudo.com 3).expand.1 = 0x22330000#32 := by decide

/-- 30_encoding.md R93. -/
theorem test_assembler_line : asmLine (.powmod 10 1 9 0 64) = "POWMOD W10, W1, W9, W0, 64" := by
  decide

/-! ### The sample states meet the invariant -/

/-- The registers of a state are in their form, in a form that `decide` evaluates. -/
theorem regs_of {s : State} (h : ∀ i : Reg, (match s.reg i with
    | some v => decide (1 ≤ v.len ∧ v.len ≤ 64 ∧ v.val < ringSize v.len)
    | none => true) = true) : ∀ i v, s.reg i = some v → WideOk 64 v := by
  intro i v hv
  have := h i
  rw [hv] at this
  simpa [WideOk] using this

theorem sample_inv : Inv 64 sample where
  regs := regs_of (by decide)
  codes := by decide
  fault := by decide
  done := by decide
  load := fun h => by cases h
  noLoad := by decide
  held := fun h => by cases h

theorem sampleFault_inv : Inv 64 sampleFault where
  regs := regs_of (by decide)
  codes := by decide
  fault := by decide
  done := by decide
  load := fun h => by cases h
  noLoad := by decide
  held := fun h => by cases h

theorem sampleRun_inv (c : Word) : Inv 64 (sampleRun c) where
  regs := sample_inv.regs
  codes := sample_inv.codes
  fault := ⟨nofun, fun h => absurd rfl h⟩
  done := fun h => by cases h
  load := fun h => by cases h
  noLoad := fun _ => ⟨rfl, rfl⟩
  held := fun h => by cases h

theorem sampleLoad64_inv : Inv 64 sampleLoad64 where
  regs := sample_inv.regs
  codes := by decide
  fault := by decide
  done := by decide
  load := fun _ => .inl ⟨7, 3, by decide, by decide, by decide, by decide⟩
  noLoad := fun h => absurd rfl h
  held := fun h => by cases h

theorem sampleLoad32_inv : Inv 64 (sampleLoad32 3 [0xA0000000B, 0xC00000000]) where
  regs := sample_inv.regs
  codes := by decide
  fault := by decide
  done := by decide
  load := fun _ => .inr ⟨7, 2, by decide, by decide, by decide, by decide⟩
  noLoad := fun h => absurd rfl h
  held := fun h => by cases h

theorem sampleLoad32_even_inv : Inv 64 (sampleLoad32 2 [0xA0000000B]) where
  regs := sample_inv.regs
  codes := by decide
  fault := by decide
  done := by decide
  load := fun _ => .inr ⟨7, 2, by decide, by decide, by decide, by decide⟩
  noLoad := fun h => absurd rfl h
  held := fun h => by cases h

theorem sampleHeld_inv : Inv 64 sampleHeld where
  regs := regs_of (by decide)
  codes := by decide
  fault := by decide
  done := by decide
  load := fun h => by cases h
  noLoad := by decide
  held := fun _ => by unfold InReset; decide

theorem inv_pending {M : Nat} {s : State} (h : Inv M s) (hr : s.rst = false) (l : List Move) :
    Inv M { s with pending := l } :=
  ⟨h.regs, h.codes, h.fault, h.done, h.load, h.noLoad, fun h' => by simp [hr] at h'⟩

/-! ### Witnesses: for every statement with hypotheses, a state and operands that meet them -/

theorem witness_DecodeOfEncodedCommand :
    255 ≤ 255 ∧ (Instr.mulmod 15 15 15 15 255).wellFormed 255 = true ∧
      (Instr.ldi 0 1).wellFormed 1 = true ∧ (Instr.div 0 15 15 15).wellFormed 0 = true := by decide

theorem witness_EncodeOfDecodedWord :
    decode 64 0x40FFFF40#32 = .ok (.mulmod 15 15 15 15 64) ∧
      decode 255 0x010000FF#32 = .ok (.ldi 0 255) := by decide

/-- Both clauses of the statement, and each of the four cases. -/
theorem witness_IllegalWordsFault :
    (sampleRun 0).phase = .run ∧
    illegalCase 64 0x06000001#32 ∧ illegalCase 64 0x33201301#32 ∧ illegalCase 64 0x01000041#32 ∧
    illegalCase 64 0x01000000#32 ∧ illegalCase 64 0x33201200#32 ∧
    ¬ illegalCase 64 0x01000040#32 ∧ ¬ illegalCase 64 0x33201300#32 := by
  unfold illegalCase reservedOp unusedFieldsZero
  refine ⟨rfl, ?_, ?_, ?_, ?_, ?_, ?_, ?_⟩ <;> decide

/-- In RUN, and in each phase in which the engine does nothing, with an empty list and a place. -/
theorem witness_StepRunsDecodedCommand :
    (sample.phase = .idle ∧ sample.pending = []) ∧
    (sampleLoad64.phase = .load ∧ sampleLoad64.pending = []) ∧
    (sampleFault.phase = .fault ∧ sampleFault.pending = []) ∧
    ({ sampleLoad64 with pending := [.engine, beatMove 3] } : State).pending =
      .engine :: [beatMove 3] ∧
    (sampleRun 0x30401000).phase = .run ∧
    decode 64 (sampleRun 0x30401000).cmdr = .ok (.add 4 0 1) ∧
    (sampleRun 0x30401000).pending = [] ∧
    ({ sampleRun 0x30401000 with pending := [.engine, readMove 0x0010] } : State).pending =
      .engine :: [readMove 0x0010] := by decide

theorem witness_AcceptedCommandIsExecuted :
    let s : State := { sampleRun 0x30401000 with pending := [readMove 0x0010, writeMove 0x0000 5] }
    s.phase = .run ∧ s.rst = false ∧ decode Config.maxLimbs s.cmdr = .ok (.add 4 0 1) ∧
      ∀ m ∈ s.pending, (∃ a, m = .access a) ∧ ¬ Spec.resets m := by
  refine ⟨rfl, rfl, by decide, fun m hm => ?_⟩
  have : m = readMove 0x0010 ∨ m = writeMove 0x0000 5 := by simpa using hm
  rcases this with rfl | rfl
  · exact ⟨⟨_, rfl⟩, by unfold Spec.resets; decide⟩
  · exact ⟨⟨_, rfl⟩, by unfold Spec.resets; decide⟩

theorem witness_LdiRule : 255 ≤ 255 ∧ 1 ≤ 1 ∧ 1 ≤ 255 ∧ 1 ≤ 255 ∧ 255 ≤ 255 := by decide

/-- A write outside LOAD, a beat that is not the last, and the last. -/
theorem witness_Ldw64Rule :
    (64 ≤ 255 ∧ 1 ≤ 3 ∧ 3 ≤ 64) ∧
    (({ sample with pending := [beatMove 3] } : State).pending =
      .access (.write 0x0020 8 3) :: [] ∧ sample.rst = false ∧ sample.phase ≠ .load) ∧
    ∃ s t : State, ∃ v rest, Inv 64 s ∧ s.phase = .load ∧ s.cmdr = Spec.word 0x02 7 0 0 0 3 ∧
      s.rst = false ∧ s.pending = .access (.write 0x0020 8 v) :: rest ∧ s.lcnt.toNat + 1 ≠ 3 ∧
      Inv 64 t ∧ t.phase = .load ∧ t.cmdr = Spec.word 0x02 7 0 0 0 3 ∧
      t.rst = false ∧ t.pending = .access (.write 0x0020 8 v) :: rest ∧ t.lcnt.toNat + 1 = 3 := by
  refine ⟨by decide, ⟨rfl, rfl, by decide⟩, { sampleLoad64 with lcnt := 1, lbuf := [1], pending := [beatMove 3] },
    { sampleLoad64 with pending := [beatMove 3] }, 3, [], ?_, rfl, by decide, rfl, rfl, by decide,
    inv_pending sampleLoad64_inv rfl _, rfl, by decide, rfl, rfl, by decide⟩
  exact ⟨sample_inv.regs, by decide, by decide, by decide,
    fun _ => .inl ⟨7, 3, by decide, by decide, by decide, by decide⟩, fun h => absurd rfl h,
    fun h => by cases h⟩

/-- A refused beat, the first of a pair, the second of a pair, and the last. -/
theorem witness_Ldw32Rule :
    (64 ≤ 255 ∧ 1 ≤ 2 ∧ 2 ≤ 64) ∧
    (∃ s : State, Inv 64 s ∧ s.phase = .load ∧ s.cmdr = Spec.word 0x03 7 0 0 0 2 ∧ s.rst = false ∧
      s.pending = .access (.write 0x0020 8 0x100000000) :: [] ∧
      2 ^ 32 ≤ (0x100000000 : Limb).toNat) ∧
    (∃ s : State, Inv 64 s ∧ s.phase = .load ∧ s.cmdr = Spec.word 0x03 7 0 0 0 2 ∧ s.rst = false ∧
      s.pending = .access (.write 0x0020 8 0xFFFFFFFF) :: [] ∧
      (0xFFFFFFFF : Limb).toNat < 2 ^ 32 ∧ s.lcnt.toNat % 2 = 0) ∧
    (∃ s : State, Inv 64 s ∧ s.phase = .load ∧ s.cmdr = Spec.word 0x03 7 0 0 0 2 ∧ s.rst = false ∧
      s.pending = .access (.write 0x0020 8 0xFFFFFFFF) :: [] ∧ s.lcnt.toNat % 2 = 1 ∧
      s.lcnt.toNat + 1 ≠ 2 * 2) ∧
    (∃ s : State, Inv 64 s ∧ s.phase = .load ∧ s.cmdr = Spec.word 0x03 7 0 0 0 2 ∧ s.rst = false ∧
      s.pending = .access (.write 0x0020 8 0xFFFFFFFF) :: [] ∧ s.lcnt.toNat % 2 = 1 ∧
      s.lcnt.toNat + 1 = 2 * 2) := by
  refine ⟨by decide,
    ⟨{ sampleLoad32 2 [0xA0000000B] with pending := [beatMove 0x100000000] },
      inv_pending sampleLoad32_even_inv rfl _, rfl, by decide, rfl, rfl, by decide⟩,
    ⟨{ sampleLoad32 2 [0xA0000000B] with pending := [beatMove 0xFFFFFFFF] },
      inv_pending sampleLoad32_even_inv rfl _, rfl, by decide, rfl, rfl, by decide, by decide⟩,
    ⟨{ sampleLoad32 1 [0xA00000000] with pending := [beatMove 0xFFFFFFFF] },
      ?_, rfl, by decide, rfl, rfl, by decide, by decide⟩,
    ⟨{ sampleLoad32 3 [0xA0000000B, 0xC00000000] with pending := [beatMove 0xFFFFFFFF] },
      inv_pending sampleLoad32_inv rfl _, rfl, by decide, rfl, rfl, by decide, by decide⟩⟩
  exact ⟨sample_inv.regs, by decide, by decide, by decide,
    fun _ => .inr ⟨7, 2, by decide, by decide, by decide, by decide⟩, fun h => absurd rfl h,
    fun h => by cases h⟩

theorem witness_LdrndRule : 255 ≤ 255 ∧ 1 ≤ 1 ∧ 1 ≤ 255 ∧ 1 ≤ 255 ∧ 255 ≤ 255 := by decide

theorem witness_CvtRule : (64 ≤ 255 ∧ 1 ≤ 64 ∧ 64 ≤ 64) ∧ sample.reg 9 = none ∧
    sample.reg 0 = some ⟨2, 100⟩ := by decide

/-- Shared by ISZERO and ISODD: an unconstructed and a constructed source. -/
theorem witness_one_source : sample.reg 9 = none ∧ sample.reg 1 = some ⟨2, 0⟩ := by decide

theorem witness_IszeroRule : sample.reg 9 = none ∧ sample.reg 1 = some ⟨2, 0⟩ := witness_one_source
theorem witness_IsoddRule : sample.reg 9 = none ∧ sample.reg 1 = some ⟨2, 0⟩ := witness_one_source
theorem witness_Eq64Rule : sample.reg 9 = none ∧ sample.reg 3 = some ⟨1, 9⟩ := by decide
/-- A count below the width, and the width itself. -/
theorem witness_ShlRule : sample.reg 9 = none ∧ sample.reg 1 = some ⟨2, 0⟩ ∧
    64 * 2 ≤ ({ sample with imm := 128 } : State).imm.toNat := by decide

theorem witness_FhbRule : 64 ≤ 255 ∧ Inv 64 sample ∧ sample.reg 9 = none ∧
    sample.reg 1 = some ⟨2, 0⟩ ∧ sample.reg 0 = some ⟨2, 100⟩ :=
  ⟨by decide, sample_inv, by decide, by decide, by decide⟩
theorem witness_FulcRule : 64 ≤ 255 ∧ Inv 64 sample ∧ sample.reg 9 = none ∧
    sample.reg 1 = some ⟨2, 0⟩ ∧ sample.reg 0 = some ⟨2, 100⟩ := witness_FhbRule
theorem witness_ShrRule : Inv 64 sample ∧ sample.reg 9 = none ∧ sample.reg 0 = some ⟨2, 100⟩ ∧
    64 * 2 ≤ ({ sample with imm := 128 } : State).imm.toNat :=
  ⟨sample_inv, by decide, by decide, by decide⟩
theorem witness_NotRule : Inv 64 sample ∧ sample.reg 9 = none ∧ sample.reg 0 = some ⟨2, 100⟩ :=
  ⟨sample_inv, by decide, by decide⟩

/-- Unequal widths, and equal widths with less, equal and greater. -/
theorem witness_CmpRule : sample.reg 9 = none ∧ sample.reg 0 = some ⟨2, 100⟩ ∧
    sample.reg 1 = some ⟨2, 0⟩ ∧ sample.reg 2 = some ⟨1, 7⟩ ∧ (2 ≠ 1 ∧ 0 < 100) := by decide

/-- Unequal widths (W0, W2) and equal ones (W0, W1). -/
theorem witness_AddRule : sample.reg 9 = none ∧ sample.reg 0 = some ⟨2, 100⟩ ∧
    sample.reg 1 = some ⟨2, 0⟩ ∧ sample.reg 2 = some ⟨1, 7⟩ := by decide
theorem witness_SubRule : Inv 64 sample ∧ sample.reg 9 = none ∧ sample.reg 0 = some ⟨2, 100⟩ ∧
    sample.reg 1 = some ⟨2, 0⟩ ∧ sample.reg 2 = some ⟨1, 7⟩ := ⟨sample_inv, witness_AddRule⟩
theorem witness_MulRule : sample.reg 9 = none ∧ sample.reg 0 = some ⟨2, 100⟩ ∧
    sample.reg 1 = some ⟨2, 0⟩ ∧ sample.reg 2 = some ⟨1, 7⟩ := witness_AddRule

/-- A zero divisor (W1) and one that is not zero (W2). -/
theorem witness_DivRule : (2 : Reg) ≠ 3 ∧ sample.reg 9 = none ∧ sample.reg 0 = some ⟨2, 100⟩ ∧
    sample.reg 1 = some ⟨2, 0⟩ ∧ sample.reg 2 = some ⟨1, 7⟩ := by decide

theorem witness_PowRule : Inv 64 sample ∧ sample.reg 9 = none ∧ sample.reg 0 = some ⟨2, 100⟩ ∧
    sample.reg 1 = some ⟨2, 0⟩ := ⟨sample_inv, by decide, by decide, by decide⟩

/-- Modulus 0; the largest modulus accepted for one limb, and the next. -/
theorem witness_MulmodRule :
    (64 ≤ 255 ∧ 1 ≤ 1 ∧ 1 ≤ 64) ∧ sample.reg 9 = none ∧ sample.reg 1 = some ⟨2, 0⟩ ∧
    (∃ m : Wide, (start [(4, m)]).reg 4 = some m ∧ m.val ≠ 0 ∧
      2 * (m.val - 1) < 2 ^ (64 * 1) ∧ 2 ^ (64 * 1) ≤ 2 * (m.val + 1 - 1)) ∧
    ∃ m : Wide, (start [(4, m)]).reg 4 = some m ∧ m.val ≠ 0 ∧
      2 ^ (64 * 1) ≤ 2 * (m.val - 1) :=
  ⟨by decide, by decide, by decide, ⟨⟨1, 2 ^ 63⟩, by decide, by decide, by decide, by decide⟩,
    ⟨⟨1, 2 ^ 63 + 1⟩, by decide, by decide, by decide⟩⟩

/-- Modulus 0; exponents 0 and not 0; the largest modulus accepted for one limb, and the next. -/
theorem witness_PowmodRule :
    (64 ≤ 255 ∧ 1 ≤ 1 ∧ 1 ≤ 64) ∧ sample.reg 9 = none ∧ sample.reg 1 = some ⟨2, 0⟩ ∧
    sample.reg 2 = some ⟨1, 7⟩ ∧
    (∃ m : Wide, (start [(4, m)]).reg 4 = some m ∧ m.val ≠ 0 ∧
      (m.val - 1) ^ 2 < 2 ^ (64 * 1) ∧ 2 ^ (64 * 1) ≤ (m.val + 1 - 1) ^ 2) ∧
    ∃ m : Wide, (start [(4, m)]).reg 4 = some m ∧ m.val ≠ 0 ∧
      2 ^ (64 * 1) ≤ (m.val - 1) ^ 2 :=
  ⟨by decide, by decide, by decide, by decide,
    ⟨⟨1, 2 ^ 32⟩, by decide, by decide, by decide, by decide⟩,
    ⟨⟨1, 2 ^ 32 + 1⟩, by decide, by decide, by decide⟩⟩

/-- A completion and a fault. -/
theorem witness_CommandFrame : (∃ t, exec (.add 4 0 1) sample = .next t) ∧
    (∃ t, exec (.add 4 0 2) sample = .next t) ∧ (4 : Reg) ∈ destinations (.add 4 0 1) ∧
    (5 : Reg) ∉ destinations (.add 4 0 1) ∧ writesRes (.add 4 0 1) = false :=
  ⟨⟨_, rfl⟩, ⟨_, rfl⟩, by decide, by decide, rfl⟩

theorem witness_CompletionOrFault : sample.errcode = 0 := by decide

/-- An illegal word, and DIV by zero. -/
theorem witness_FaultIsPrecise :
    (Inv 64 (sampleRun 0x06000001) ∧ (sampleRun 0x06000001).phase = .run ∧
      (∀ i, decode 64 0x06000001#32 ≠ .ok i) ∧
      ∃ t, (sampleRun 0x06000001).engineStep 64 = .next t ∧ t.phase = .fault) ∧
    Inv 64 (sampleRun 0x33001300) ∧ (sampleRun 0x33001300).phase = .run ∧
      decode 64 0x33001300#32 = .ok (.div 0 0 1 3) ∧
      ∃ t, (sampleRun 0x33001300).engineStep 64 = .next t ∧ t.phase = .fault :=
  ⟨⟨sampleRun_inv _, rfl, nofun, _, rfl, rfl⟩, sampleRun_inv _, rfl, by decide, _, rfl, rfl⟩

/-- Each cause, and none: W9 is unconstructed, W1 is 0, W0 and W2 differ in width, and W4 is a modulus
the width 1 cannot carry. -/
theorem witness_FaultCausesAndPriority :
    let s := { start [(0, ⟨2, 100⟩), (1, ⟨2, 0⟩), (2, ⟨1, 7⟩), (4, ⟨2, 2 ^ 64⟩)] with phase := .run }
    s.phase = .run ∧ s.errcode = 0 ∧ (∃ r ∈ sources (.mulmod 4 9 1 1 1), s.reg r = none) ∧
    (∀ r ∈ sources (.add 4 0 2), s.reg r ≠ none) ∧ widthsDiffer s (.add 4 0 2) ∧
    divisorIsZero s (.div 4 0 1 5) ∧ modulusIsZero s (.powmod 4 0 2 1 1) ∧
    widthUnsafe s (.mulmod 5 0 2 4 1) ∧ widthUnsafe s (.powmod 5 0 2 4 1) ∧
    ¬ widthsDiffer s (.add 4 0 1) ∧ ¬ divisorIsZero s (.add 4 0 1) ∧
    ¬ modulusIsZero s (.add 4 0 1) ∧ ¬ widthUnsafe s (.add 4 0 1) := by
  refine ⟨rfl, rfl, by decide, by decide, ⟨⟨2, 100⟩, ⟨1, 7⟩, by decide, by decide, by decide⟩,
    ⟨⟨2, 0⟩, by decide, rfl⟩, ⟨⟨2, 0⟩, by decide, rfl⟩, ⟨⟨2, 2 ^ 64⟩, by decide, by decide, by decide⟩,
    ⟨⟨2, 2 ^ 64⟩, by decide, by decide, by decide⟩, ?_, id, id, id⟩
  rintro ⟨a, b, ha, hb, h⟩
  cases (show some (⟨2, 100⟩ : Wide) = some a from ha)
  cases (show some (⟨2, 0⟩ : Wide) = some b from hb)
  exact h rfl

/-- A reset, an engine's step, and a refused write. -/
theorem witness_FaultIsSticky : sampleFault.phase = .fault ∧ sampleFault.rst = false ∧
    (∃ t, stepWith 64 { sampleFault with pending := [resetMove] } = .next t) ∧
    (∃ t, stepWith 64 { sampleFault with pending := [.engine] } = .next t) ∧
    ∃ t, stepWith 64 { sampleFault with pending := [.access (.write 0x0020 8 1)] } = .next t :=
  ⟨rfl, rfl, ⟨_, rfl⟩, ⟨_, rfl⟩, ⟨_, rfl⟩⟩

theorem witness_MisshapenAccessRefused : sample.rst = false ∧ (4 ≠ 8 ∨ (0x10 : Nat) % 8 ≠ 0) ∧
    (8 ≠ 8 ∨ (0x11 : Offset).toNat % 8 ≠ 0) ∧
    ({ sample with pending := [.access (.read 0x0011 8)] } : State).pending =
      .access (.read 0x0011 8) :: [] := by decide

/-- Granted at the ends of each range, and refused beside them. -/
theorem witness_ReadPermissions : sample.rst = false ∧ 64 ≤ 255 ∧
    (∀ l, Inv 64 { sample with pending := l }) ∧ sample.phase = .idle ∧
    [0x10, 0x30, 0x38, 0x08, 0x18, 0x80, 0xF8, 0x1000, 0x1008, 0x1010, 0x78, 0x100].all
      (fun off => decide ((BitVec.ofNat 16 off).toNat = off ∧ off % 8 = 0)) = true ∧
    0x1008 = 0x1000 + 0x800 * (0 : Reg).val + 8 * 1 ∧ sample.reg 0 = some ⟨2, 100⟩ ∧ 1 < 2 :=
  ⟨by decide, by decide, fun l => inv_pending sample_inv rfl l, rfl, by decide, by decide,
    by decide, by decide⟩

/-- In IDLE, in LOAD, and refused in FAULT. -/
theorem witness_WritePermissions : (sample.rst = false ∧ sampleLoad64.rst = false) ∧
    (∀ l, Inv 64 { sample with pending := l }) ∧ (∀ l, Inv 64 { sampleLoad64 with pending := l }) ∧
    (∀ l, Inv 64 { sampleFault with pending := l }) ∧ sample.phase = .idle ∧
    sampleLoad64.phase = .load ∧ sampleFault.phase = .fault ∧
    (0xFFFFFFFF : Limb).toNat < 2 ^ 32 ∧ ¬ (0x100000000 : Limb).toNat < 2 ^ 32 :=
  ⟨by decide, fun l => inv_pending sample_inv rfl l, fun l => inv_pending sampleLoad64_inv rfl l,
    fun l => inv_pending sampleFault_inv rfl l, rfl, rfl, rfl, by decide, by decide⟩

theorem witness_CommandAcceptance : sample.rst = false ∧ sample.phase = .idle ∧
    (0xFFFFFFFF : Limb).toNat < 2 ^ 32 ∧ 2 ^ 32 ≤ (0x100000000 : Limb).toNat ∧
    sampleFault.rst = false ∧ sampleFault.phase ≠ .idle ∧
    ({ sample with pending := [.access (.write 0x0000 8 0)] } : State).pending =
      .access (.write 0x0000 8 0) :: [] := by decide

theorem witness_ImmAccess : sample.rst = false ∧ sample.phase = .idle ∧
    sampleFault.rst = false ∧ sampleFault.phase = .fault ∧ (sampleRun 0).phase = .run ∧
    sampleLoad64.phase = .load := by decide

theorem witness_CtrlWrite : sampleLoad64.rst = false ∧
    ({ sampleLoad64 with pending := [resetMove] } : State).pending =
      .access (.write 0x0028 8 1) :: [] ∧ 1 < (2 : Limb).toNat := by decide

theorem witness_HardReset :
    ({ sampleLoad64 with pending := [.rst true] } : State).pending = .rst true :: [] ∧
    (∀ l, Inv 64 { sampleHeld with pending := l }) ∧ sampleHeld.rst = true ∧
    ∃ t, stepWith 64 { sampleHeld with pending := [readMove 0x0010] } = .next t :=
  ⟨rfl, fun _ => ⟨sampleHeld_inv.regs, sampleHeld_inv.codes, sampleHeld_inv.fault,
    sampleHeld_inv.done, sampleHeld_inv.load, sampleHeld_inv.noLoad,
    fun _ => by unfold InReset; rfl⟩, rfl, ⟨_, rfl⟩⟩

theorem witness_StatusBits : sample.rst = false ∧ sampleLoad64.rst = false ∧
    ({ sampleLoad64 with pending := [readMove 0x0010] } : State).pending =
      .access (.read 0x0010 8) :: [] := by decide

theorem witness_RegisterReads : sample.rst = false ∧ 64 ≤ 255 ∧ sample.phase = .idle ∧
    (0x0080 : Offset).toNat = 0x0080 + 8 * (0 : Reg).val ∧
    (0x00F8 : Offset).toNat = 0x0080 + 8 * (15 : Reg).val ∧ sample.reg 15 = none ∧
    sample.reg 0 = some ⟨2, 100⟩ ∧ (1 ≤ 2 ∧ 2 ≤ 64 ∧ 100 < ringSize 2) := by decide

/-- Limb 0 and the last limb of a register, the first refused limb, and the largest offset. -/
theorem witness_WindowReads : sample.rst = false ∧ sample.phase = .idle ∧ 254 ≤ 254 ∧
    ((sampleRun 0).rst = false ∧ (sampleRun 0).phase = .run ∧ sampleLoad64.phase = .load) ∧
    (0x1000 : Offset).toNat = 0x1000 + 0x800 * (0 : Reg).val + 8 * 0 ∧
    (0x1008 : Offset).toNat = 0x1000 + 0x800 * (0 : Reg).val + 8 * 1 ∧
    (0x8FF0 : Offset).toNat = 0x1000 + 0x800 * (15 : Reg).val + 8 * 254 ∧
    sample.reg 15 = none ∧ sample.reg 0 = some ⟨2, 100⟩ ∧ (2 ≤ 2 ∧ 1 < 2) := by decide

theorem witness_ByteBufferExport : 64 ≤ 255 ∧ Inv 64 sample ∧ sample.phase = .idle ∧
    sample.reg 0 = some ⟨2, 100⟩ := ⟨by decide, sample_inv, rfl, by decide⟩

theorem witness_ReadsChangeNothing :
    ({ sample with pending := [.access (.read 0xFFF8 3)] } : State).pending =
      .access (.read 0xFFF8 3) :: [] := rfl

theorem witness_StepKeepsTheInvariant : 64 ≤ 255 ∧ Inv 64 (sampleRun 0x30401000) ∧
    (∃ t, stepWith 64 (sampleRun 0x30401000) = .next t) ∧
    (∀ l, Inv 64 { sampleLoad64 with pending := l }) ∧
    ∃ t, stepWith 64 { sampleLoad64 with pending := [beatMove 3] } = .next t :=
  ⟨by decide, sampleRun_inv _, ⟨_, rfl⟩,
    fun l => inv_pending sampleLoad64_inv rfl l, ⟨_, rfl⟩⟩

/-- A phase left by acceptance, by the engine's step to FAULT and to LOAD, by the last beat, and by a
reset. -/
theorem witness_PhasesAreLeftOnlyAsStated :
    (∃ t, stepWith 64 { sample with pending := [writeMove 0x0000 1] } = .next t ∧
      t.phase ≠ sample.phase) ∧
    (∃ t, stepWith 64 { sampleRun 0 with pending := [.engine] } = .next t ∧ t.phase ≠ .run) ∧
    (∃ t, stepWith 64 (sampleRun 0x03700002) = .next t ∧ t.phase = .load ∧
      decode 64 (sampleRun 0x03700002).cmdr = .ok (.ldw32 7 2)) ∧
    (∃ t, stepWith 64 { sampleLoad64 with pending := [beatMove 3] } = .next t ∧
      t.phase ≠ .load) ∧
    ∃ t, stepWith 64 { sampleFault with pending := [resetMove] } = .next t ∧ t.phase ≠ .fault :=
  ⟨⟨_, rfl, by decide⟩, ⟨_, rfl, by decide⟩, ⟨_, rfl, rfl, by decide⟩, ⟨_, rfl, by decide⟩,
    ⟨_, rfl, by decide⟩⟩

theorem witness_OnlyTheHostWritesImm :
    (∃ t, stepWith 64 { sample with pending := [writeMove 0x0008 5] } = .next t ∧
      t.imm ≠ sample.imm) ∧
    ∃ t, stepWith 64 { sample with pending := [.rst true] } = .next t ∧ t.imm ≠ sample.imm :=
  ⟨⟨_, rfl, by decide⟩, ⟨_, rfl, by decide⟩⟩

theorem witness_BusyHidesTheRegisters :
    let s : State := { sampleLoad64 with pending := [readMove 0x0018] }
    let u : State := { s with w := State.reset.w, imm := 1, res := 2 }
    (s.phase = .run ∨ s.phase = .load) ∧ s.pending = .access (.read 0x0018 8) :: [] ∧
    (∃ w imm res, u = { s with w := w, imm := imm, res := res }) ∧
    (∃ s', stepWith 64 s = .next s') ∧ ∃ u', stepWith 64 u = .next u' :=
  ⟨.inr rfl, rfl, ⟨_, _, _, rfl⟩, ⟨_, rfl⟩, ⟨_, rfl⟩⟩

theorem witness_ResetLeavesNoSecret : Spec.resets resetMove ∧ Spec.resets (.rst true) ∧
    sample.rst = sampleFault.rst ∧ sample.rnd = sampleFault.rnd ∧
    sample.drawn = sampleFault.drawn ∧ sample.answers = sampleFault.answers ∧
    (∀ l, Inv 64 { sample with pending := l }) ∧ (∀ l, Inv 64 { sampleFault with pending := l }) ∧
    (∃ t, stepWith 64 { sample with pending := [resetMove] } = .next t) ∧
    ∃ t, stepWith 64 { sampleFault with pending := [resetMove] } = .next t :=
  ⟨.inl rfl, .inr rfl, rfl, rfl, rfl, rfl, fun l => inv_pending sample_inv rfl l,
    fun l => inv_pending sampleFault_inv rfl l, ⟨_, rfl⟩, ⟨_, rfl⟩⟩

theorem witness_WholeLoadOfLimbs :
    let s : State := { sampleRun 0x02700002 with
      pending := .engine :: ([1, 2].map beatMove ++ [readMove 0x0010]) }
    s.rst = false ∧ s.phase = .run ∧ 1 ≤ 2 ∧ 2 ≤ Config.maxLimbs ∧
      s.cmdr = Spec.word 0x02 7 0 0 0 2 ∧ ([1, 2] : List Limb).length = 2 ∧
      s.pending = .engine :: ([1, 2].map beatMove ++ [readMove 0x0010]) := by decide

theorem witness_WholeLoadOfHalfLimbs :
    let s : State := { sampleRun 0x03700001 with
      pending := .engine :: ([0xFFFFFFFF, 2].map beatMove ++ []) }
    s.rst = false ∧ s.phase = .run ∧ 1 ≤ 1 ∧ 1 ≤ Config.maxLimbs ∧
      s.cmdr = Spec.word 0x03 7 0 0 0 1 ∧ ([0xFFFFFFFF, 2] : List Limb).length = 2 * 1 ∧
      (∀ v ∈ ([0xFFFFFFFF, 2] : List Limb), v.toNat < 2 ^ 32) ∧
      s.pending = .engine :: ([0xFFFFFFFF, 2].map beatMove ++ []) := by
  refine ⟨rfl, rfl, by decide, by decide, by decide, rfl, fun v hv => ?_, rfl⟩
  rcases List.mem_pair.1 hv with rfl | rfl <;> decide

theorem witness_LimbForms : 2 ^ 128 - 1 < 2 ^ (64 * 2) ∧ 1 < 2 ^ (64 * 2) ∧ 1 < 2 ∧
    (1 < 2 ^ 128 - 1 ∧ 0 = 0) := by decide

theorem witness_RippleCarryArithmetic :
    2 ^ 128 - 1 < 2 ^ (64 * 2) ∧ 1 < 2 ^ (64 * 2) ∧ 0 < 2 ^ (64 * 0) ∧ 1 ≤ 2 ∧
    2 ^ (64 * 2) ≤ 2 ^ 200 := by decide

theorem witness_LongDivision : 0 < 1 ∧ 0 < 2 ^ 64 := by decide

theorem witness_ModularAlgorithms : 0 < 1 ∧ 0 < 97 ∧ 0 = 0 ∧ 1 ≠ 0 := by decide

/-- The counts 9 and N. -/
theorem witness_ShiftLeftThenRight : Inv 64 sample ∧ sample.reg 0 = some ⟨2, 100⟩ ∧
    sample.imm.toNat ≤ 64 * 2 ∧ ({ sample with imm := 128 } : State).imm.toNat ≤ 64 * 2 :=
  ⟨sample_inv, by decide, by decide, by decide⟩

theorem witness_RingIdentities :
    let s := start [(0, ⟨2, 2 ^ 128 - 16⟩), (1, ⟨2, 3 * 2 ^ 64 + 32⟩), (6, ⟨2, 1⟩)]
    Inv 64 s ∧ s.reg 0 = some ⟨2, 2 ^ 128 - 16⟩ ∧ s.reg 1 = some ⟨2, 3 * 2 ^ 64 + 32⟩ ∧
      s.reg 6 = some ⟨2, 1⟩ ∧ 2 = 2 := by
  refine ⟨⟨regs_of (by decide), by decide, by decide, by decide, nofun, by decide, nofun⟩,
    by decide, by decide, by decide, rfl⟩

/-- The smallest modulus, and a toy group (program P3's kind). -/
theorem witness_SharedSecretsAgree :
    let s := start [(0, ⟨1, 23⟩), (1, ⟨1, 5⟩), (2, ⟨1, 6⟩), (3, ⟨1, 0⟩)]
    s.reg 0 = some ⟨1, 23⟩ ∧ s.reg 1 = some ⟨1, 5⟩ ∧ s.reg 2 = some ⟨1, 6⟩ ∧
      s.reg 3 = some ⟨1, 0⟩ ∧ 2 ≤ 2 ∧ 2 ≤ 23 ∧ (23 - 1) ^ 2 < 2 ^ (64 * 1) := by decide

end Sys2Proof.Tests
end

section
/-! PROOFS. The registers of 10_state.md as the host reads them: a read as one step, the fields of
`STATUS`, the data of `CAP` and `WLEN[i]`, and the values after reset. -/

namespace Sys2Proof.Machine

open Sys2Proof.Safety Sys2Proof.Spec

/-! ### A read as a step -/

/-- A read of any size and offset is answered as `BusRead` says and changes nothing
(20_memory.md R52, R66). -/
theorem stepWith_read {maxLimbs : Nat} {s : State} {off : Offset} {n : Nat} {rest : List Move}
    (hr : s.rst = false) (hp : s.pending = .access (.read off n) :: rest) :
    stepWith maxLimbs s =
      answered s rest ((s.busRead maxLimbs off n).elim .slverr .data) := by
  have unlisted : ({ s with pending := rest } : State).busRead maxLimbs off n =
      s.busRead maxLimbs off n := rfl
  rw [stepWith_access hp, present_read (s := { s with pending := rest }) hr, unlisted]
  cases s.busRead maxLimbs off n <;> rfl

/-- An aligned read of a register the phase permits returns that register's data
(20_memory.md R52, R56). -/
theorem stepWith_read_permitted {maxLimbs : Nat} {s : State} {off : Offset} {rest : List Move}
    {r : PortReg} {v : Limb} (hr : s.rst = false)
    (hp : s.pending = .access (.read off 8) :: rest) (ha : off.toNat % 8 = 0)
    (hoff : portReg off.toNat = some r) (hperm : r.readPermitted s.phase = true)
    (hv : s.readReg maxLimbs r = some v) :
    stepWith maxLimbs s = answered s rest (.data v) := by
  have granted : s.busRead maxLimbs off 8 = some v := by
    rw [busRead_aligned ha, hoff, Option.bind_some, if_pos hperm, hv]
  rw [stepWith_read hr hp, granted, Option.elim_some]

/-! ### `STATUS` -/

@[simp] theorem Phase.busy_iff (p : Phase) : p.busy = true ↔ p = .run ∨ p = .load := by
  cases p <;> decide

/-- The fields of `STATUS`, each at its place: every field is below its bound, so none runs over
into the next (10_state.md R31). -/
theorem State.status_fields (s : State) :
    s.status.toNat % 2 = s.phase.busy.toNat ∧
    s.status.toNat / 2 % 2 = s.done.toNat ∧
    s.status.toNat / 4 % 2 = (decide (s.phase = .fault)).toNat ∧
    s.status.toNat / 8 % 2 = (decide (s.phase = .load)).toNat ∧
    s.status.toNat / 16 % 16 = 0 ∧
    s.status.toNat / 256 % 256 = s.errcode.toNat ∧
    s.status.toNat / 65536 % 65536 = s.lcnt.toNat ∧
    s.status.toNat / 4294967296 = 0 := by
  have busy := s.phase.busy.toNat_lt
  have done := s.done.toNat_lt
  have fault := (decide (s.phase = .fault)).toNat_lt
  have load := (decide (s.phase = .load)).toNat_lt
  have code := s.errcode.isLt
  have count := s.lcnt.isLt
  rw [State.status, BitVec.toNat_ofNat]
  refine ⟨?_, ?_, ?_, ?_, ?_, ?_, ?_, ?_⟩ <;> omega

@[simp] theorem State.reset_status : State.reset.status = 0 := by decide

/-- `STATUS` is readable in every phase (10_state.md R31). -/
theorem stepWith_read_status {maxLimbs : Nat} {s : State} {rest : List Move} (hr : s.rst = false)
    (hp : s.pending = .access (.read 0x0010 8) :: rest) :
    stepWith maxLimbs s = answered s rest (.data s.status) :=
  stepWith_read_permitted (r := .status) hr hp rfl rfl rfl rfl

/-! ### The other registers -/

/-- `CAP` as a number: NREG 16, MAXLIMBS, LIMB_BITS 64, VERSION 1 (10_state.md R33). -/
theorem capWord_toNat {maxLimbs : Nat} (h : maxLimbs ≤ 255) :
    (capWord maxLimbs).toNat = 0x01400010 + 0x100 * maxLimbs := by
  rw [capWord, BitVec.toNat_ofNat]
  simp only [Config.nreg, Config.limbBits, Config.version]
  omega

theorem State.wlen_of_none {s : State} {i : Reg} (h : s.reg i = none) : s.wlen i = 0 := by
  rw [State.wlen, h]

/-- A limb count is at most 255, so `WLEN[i]` holds it whole (10_state.md R35). -/
theorem State.wlen_toNat_of_some {maxLimbs : Nat} {s : State} {i : Reg} {a : Wide}
    (hmax : maxLimbs ≤ 255) (h : s.reg i = some a) (ha : WideOk maxLimbs a) :
    (s.wlen i).toNat = a.len := by
  obtain ⟨-, hlen, -⟩ := ha
  rw [State.wlen, h]
  exact Nat.mod_eq_of_lt (by omega)

/-- `WLEN[i]` is readable in IDLE and FAULT (10_state.md R35; 20_memory.md R55, R56). -/
theorem stepWith_read_wlen {maxLimbs : Nat} {s : State} {i : Reg} {off : Offset} {rest : List Move}
    (hr : s.rst = false) (hphase : s.phase = .idle ∨ s.phase = .fault)
    (hoff : off.toNat = 0x0080 + 8 * i.val) (hp : s.pending = .access (.read off 8) :: rest) :
    stepWith maxLimbs s = answered s rest (.data (s.wlen i)) :=
  stepWith_read_permitted (r := .wlen i) hr hp (by omega) (by rw [hoff, portReg_wlen i.val i.isLt])
    (decide_eq_true hphase) rfl

/-! ### The statements -/

/-- Settles O40: each bit from the fields of `STATUS`, and the read from the port's permissions. -/
theorem statusBits : Obligations.StatusBits := by
  intro s
  obtain ⟨busy, done, fault, dreq, reserved, code, count, upper⟩ := s.status_fields
  refine ⟨?_, ?_, ?_, ?_, reserved, code, count, upper, State.reset_status,
    fun _ _ => stepWith_read_status⟩
  · rw [busy, Bool.toNat_eq_one, Phase.busy_iff]
  · rw [done, Bool.toNat_eq_one]
  · rw [fault, Bool.toNat_eq_one, decide_eq_true_iff]
  · rw [dreq, Bool.toNat_eq_one, decide_eq_true_iff]

/-- Settles O41: each register lies at its offset, and its phases permit the read. -/
theorem registerReads : Obligations.RegisterReads := by
  intro maxLimbs s i rest hr hmax
  refine ⟨stepWith_read_status hr, fun hp => ?cap, fun hp => ?cmdr,
    fun hphase => ⟨fun hp => ?res, fun off hoff hp => ?wlen⟩⟩
  case cap =>
    exact ⟨capWord maxLimbs, capWord_toNat hmax,
      stepWith_read_permitted (r := .cap) hr hp rfl rfl rfl rfl⟩
  case cmdr =>
    exact ⟨s.cmdr.setWidth 64, BitVec.toNat_setWidth_of_le (by decide),
      stepWith_read_permitted (r := .cmdr) hr hp rfl rfl rfl rfl⟩
  case res => exact stepWith_read_permitted (r := .res) hr hp rfl rfl (decide_eq_true hphase) rfl
  case wlen =>
    have read := stepWith_read_wlen (maxLimbs := maxLimbs) hr hphase hoff hp
    exact ⟨fun hi => by rw [read, State.wlen_of_none hi],
      fun a hi ha => ⟨s.wlen i, State.wlen_toNat_of_some hmax hi ha, read⟩⟩

/-- Settles O45: the registers are unconstructed, so every `WLEN[i]` is 0, and what a reset gives
the block is `Block.reset`. -/
theorem resetValues : Obligations.ResetValues :=
  ⟨fun i => ⟨State.reset_reg i, State.wlen_of_none (State.reset_reg i)⟩,
    rfl, rfl, rfl, rfl, rfl, rfl, rfl, rfl, State.reset_status, rfl, State.applyReset_toBlock⟩

end Sys2Proof.Machine
end

section
/-! PROOFS. The slave port of 20_memory.md as the host uses it: a write as one step, the registers
`CMD`, `IMM` and `CTRL`, the window, and the byte buffer. -/

namespace Sys2Proof.Machine

open Sys2Proof.Safety Sys2Proof.Spec

/-! ### An access of one register as a step -/

/-- An aligned read is refused when the phase does not permit it or the register has no data for it
(20_memory.md R52, R56). -/
theorem stepWith_read_refused {maxLimbs : Nat} {s : State} {off : Offset} {rest : List Move}
    {r : PortReg} (hr : s.rst = false) (hp : s.pending = .access (.read off 8) :: rest)
    (ha : off.toNat % 8 = 0) (hoff : portReg off.toNat = some r)
    (hno : r.readPermitted s.phase = true → s.readReg maxLimbs r = none) :
    stepWith maxLimbs s = answered s rest .slverr := by
  have refused : s.busRead maxLimbs off 8 = none := by
    rw [busRead_aligned ha, hoff, Option.bind_some, ite_eq_right_iff]
    exact hno
  rw [stepWith_read hr hp, refused, Option.elim_none]

/-- An aligned write the phase permits has the effect of its register's rule: `t` is the state after
it, but for the move taken off the list and the answer (20_memory.md R53, R56). -/
theorem stepWith_write_permitted {maxLimbs : Nat} {s t : State} {off : Offset} {v : Limb}
    {rest : List Move} {r : PortReg} (hr : s.rst = false)
    (hp : s.pending = .access (.write off 8 v) :: rest) (ha : off.toNat % 8 = 0)
    (hoff : portReg off.toNat = some r) (hperm : r.writePermitted s.phase = true)
    (hw : ({ s with pending := rest } : State).writeReg maxLimbs v r =
      some { t with pending := rest }) :
    stepWith maxLimbs s = answered t rest .okay := by
  have granted : ({ s with pending := rest } : State).busWrite maxLimbs off 8 v =
      some { t with pending := rest } := by
    rw [busWrite_aligned ha, hoff, Option.bind_some, if_pos hperm, hw]
  rw [stepWith_access hp, present_write (s := { s with pending := rest }) hr, granted]
  rfl

/-- An aligned write is refused, and changes nothing, when the phase does not permit it or the
register's rule refuses the value (20_memory.md R53, R56). -/
theorem stepWith_write_refused {maxLimbs : Nat} {s : State} {off : Offset} {v : Limb}
    {rest : List Move} {r : PortReg} (hr : s.rst = false)
    (hp : s.pending = .access (.write off 8 v) :: rest) (ha : off.toNat % 8 = 0)
    (hoff : portReg off.toNat = some r)
    (hno : r.writePermitted s.phase = true →
      ({ s with pending := rest } : State).writeReg maxLimbs v r = none) :
    stepWith maxLimbs s = answered s rest .slverr := by
  have refused : ({ s with pending := rest } : State).busWrite maxLimbs off 8 v = none := by
    rw [busWrite_aligned ha, hoff, Option.bind_some, ite_eq_right_iff]
    exact hno
  rw [stepWith_access hp, present_write (s := { s with pending := rest }) hr, refused]
  rfl

/-- A phase that hides the registers is neither of the two that show them (20_memory.md R56). -/
theorem Phase.not_idle_or_fault_of_busy {p : Phase} (h : p = .run ∨ p = .load) :
    ¬ (p = .idle ∨ p = .fault) := by
  rcases h with rfl | rfl <;> decide

/-! ### What the registers `CMD` and `CTRL` do with a value -/

/-- `CMD` accepts a value whose upper half is zero (20_memory.md R62). -/
theorem State.writeReg_cmd_accepts {maxLimbs : Nat} {v : Limb} (s : State) (h : v.toNat < 2 ^ 32) :
    s.writeReg maxLimbs v .cmd = some (s.accept (BitVec.ofNat 32 v.toNat)) :=
  if_pos (decide_eq_true h)

/-- `CMD` refuses a value whose upper half is not zero (20_memory.md R62). -/
theorem State.writeReg_cmd_refuses {maxLimbs : Nat} {v : Limb} (s : State) (h : 2 ^ 32 ≤ v.toNat) :
    s.writeReg maxLimbs v .cmd = none :=
  if_neg (by simpa only [upperHalfZero, decide_eq_true_iff, not_lt] using h)

@[simp] theorem State.writeReg_ctrl_zero (maxLimbs : Nat) (s : State) :
    s.writeReg maxLimbs 0 .ctrl = some s := rfl

@[simp] theorem State.writeReg_ctrl_one (maxLimbs : Nat) (s : State) :
    s.writeReg maxLimbs 1 .ctrl = some s.applyReset := rfl

/-- `CTRL` refuses a value with one of the bits 63:1 set (20_memory.md R64). -/
theorem State.writeReg_ctrl_refuses {maxLimbs : Nat} {v : Limb} (s : State) (h : 1 < v.toNat) :
    s.writeReg maxLimbs v .ctrl = none := by
  rw [State.writeReg, if_neg (by omega), if_neg (by omega)]

/-! ### The window -/

theorem State.windowLimb_of_none {s : State} {i : Reg} (h : s.reg i = none) (j : Nat) :
    s.windowLimb i j = none := by
  rw [State.windowLimb, h]

theorem State.windowLimb_of_len_le {s : State} {i : Reg} {a : Wide} {j : Nat}
    (h : s.reg i = some a) (hj : a.len ≤ j) : s.windowLimb i j = none := by
  rw [State.windowLimb, h]
  exact if_neg (Nat.not_lt.2 hj)

theorem State.windowLimb_of_lt_len {s : State} {i : Reg} {a : Wide} {j : Nat}
    (h : s.reg i = some a) (hj : j < a.len) :
    s.windowLimb i j = some (BitVec.ofNat 64 (limbOf a.val j)) := by
  rw [State.windowLimb, h]
  exact if_pos hj

/-- A limb fits the 64 bits of a datum. -/
theorem toNat_ofNat_limbOf (v j : Nat) : (BitVec.ofNat 64 (limbOf v j)).toNat = limbOf v j := by
  rw [BitVec.toNat_ofNat, limbOf, Nat.mod_mod]

theorem winOffset_toNat (i : Reg) {j : Nat} (hj : j ≤ 254) :
    (winOffset i j).toNat = 0x1000 + 0x800 * i.val + 8 * j := by
  have hi := i.isLt
  rw [winOffset, BitVec.toNat_ofNat, Nat.mod_eq_of_lt (by omega)]

/-- In IDLE and FAULT a window read returns the limb (20_memory.md R58). -/
theorem State.busRead_winOffset {maxLimbs : Nat} {s : State} {i : Reg} {j : Nat} (hj : j ≤ 254)
    (hphase : s.phase = .idle ∨ s.phase = .fault) :
    s.busRead maxLimbs (winOffset i j) 8 = s.windowLimb i j := by
  have offset := winOffset_toNat i hj
  rw [busRead_aligned (by omega), offset, portReg_win i.val j i.isLt hj]
  exact if_pos (decide_eq_true hphase)

/-! ### The byte buffer -/

/-- Byte `b` of limb `j` is byte `8j + b` of the value (20_memory.md R57, R60). -/
theorem limbOf_byte (v j : Nat) {b : Nat} (hb : b < 8) :
    limbOf v j / 2 ^ (8 * b) % 256 = v / 2 ^ (8 * (8 * j + b)) % 256 := by
  have split : 2 ^ 64 = 2 ^ (8 * b) * 2 ^ (64 - 8 * b) := by rw [← pow_add]; congr 1; omega
  have byte : 256 ∣ 2 ^ (64 - 8 * b) := pow_dvd_pow 2 (by omega : 8 ≤ 64 - 8 * b)
  rw [limbOf, split, Nat.mod_mul_right_div_self, Nat.mod_mod_of_dvd _ byte, Nat.div_div_eq_div_mul,
    ← pow_add]
  congr 3
  omega

/-- A value with one limb more has that limb's eight bytes more (20_memory.md R60). -/
theorem exportBytes_succ (n v : Nat) :
    exportBytes ⟨n + 1, v⟩ = exportBytes ⟨n, v⟩ ++ byteLanes (BitVec.ofNat 64 (limbOf v n)) := by
  rw [exportBytes, exportBytes, byteLanes, Nat.mul_succ, List.range_add, List.map_append,
    List.map_map, toNat_ofNat_limbOf]
  congr 1
  refine List.map_congr_left fun b hb => BitVec.eq_of_toNat_eq ?_
  rw [Function.comp_apply, BitVec.toNat_ofNat, BitVec.toNat_ofNat, Nat.mod_mod,
    limbOf_byte v n (List.mem_range.1 hb)]

@[simp] theorem exportBytes_length (a : Wide) : (exportBytes a).length = 8 * a.len := by
  rw [exportBytes, List.length_map, List.length_range]

theorem exportBytes_getElem? {a : Wide} {k : Nat} (hk : k < 8 * a.len) :
    (exportBytes a)[k]? = some (BitVec.ofNat 8 (a.val / 2 ^ (8 * k) % 256)) := by
  rw [exportBytes, List.getElem?_map, List.getElem?_range hk, Option.map_some]

/-- The host's reads of the first `n` limbs give the bytes of those limbs (20_memory.md R60). -/
theorem State.windowBytes_eq_exportBytes {maxLimbs : Nat} {s : State} {i : Reg} {a : Wide} {n : Nat}
    (hphase : s.phase = .idle ∨ s.phase = .fault) (h : s.reg i = some a) (hmax : a.len ≤ 255)
    (hn : n ≤ a.len) : s.windowBytes maxLimbs i n = some (exportBytes ⟨n, a.val⟩) := by
  induction n with
  | zero => rfl
  | succ n ih =>
    rw [State.windowBytes, ih (by omega), State.busRead_winOffset (by omega) hphase,
      State.windowLimb_of_lt_len h hn, exportBytes_succ]

/-! ### The statements -/

/-- Settles O42: the phases hide the window or show it, and shown it answers with the limb the value
has or refuses. -/
theorem windowReads : Obligations.WindowReads := by
  intro maxLimbs s i j off rest hr hj hoff hp
  have aligned : off.toNat % 8 = 0 := by omega
  have window : portReg off.toNat = some (.win i j) := by rw [hoff, portReg_win i.val j i.isLt hj]
  have refused (hno : s.windowLimb i j = none) : stepWith maxLimbs s = answered s rest .slverr :=
    stepWith_read_refused hr hp aligned window fun _ => hno
  refine ⟨fun busy => ?hidden, fun shown => ⟨fun hi => ?unconstructed,
    fun a hi => ⟨fun above => ?above, fun below => ?limb⟩⟩⟩
  case hidden =>
    exact stepWith_read_refused hr hp aligned window fun permitted =>
      absurd (of_decide_eq_true permitted) (Phase.not_idle_or_fault_of_busy busy)
  case unconstructed => exact refused (State.windowLimb_of_none hi j)
  case above => exact refused (State.windowLimb_of_len_le hi above)
  case limb =>
    exact ⟨_, toNat_ofNat_limbOf a.val j, stepWith_read_permitted hr hp aligned window
      (decide_eq_true shown) (State.windowLimb_of_lt_len hi below)⟩

/-- Settles O43: what the host lays out is `exportBytes` of the value, whose limb count the invariant
bounds. -/
theorem byteBufferExport : Obligations.ByteBufferExport := by
  intro maxLimbs s i a hmax inv hphase hi
  obtain ⟨-, hlen, -⟩ := inv.regs i a hi
  refine ⟨exportBytes a,
    State.windowBytes_eq_exportBytes hphase hi (hlen.trans hmax) (Nat.le_refl _),
    exportBytes_length a, fun k hk => ⟨_, exportBytes_getElem? hk, ?_⟩⟩
  rw [BitVec.toNat_ofNat, Nat.mod_mod]

/-- Settles O36: in IDLE the value decides between acceptance and refusal, elsewhere the phase
refuses. -/
theorem commandAcceptance : Obligations.CommandAcceptance := by
  intro maxLimbs s v rest hr hp
  refine ⟨fun idle small => ?accepted, fun refused => ?refused⟩
  case accepted =>
    exact stepWith_write_permitted (r := .cmd) (t := s.accept (BitVec.ofNat 32 v.toNat)) hr hp rfl
      rfl (decide_eq_true idle) (State.writeReg_cmd_accepts _ small)
  case refused =>
    refine stepWith_write_refused (r := .cmd) hr hp rfl rfl fun permitted => ?_
    rcases refused with busy | large
    · exact absurd (of_decide_eq_true permitted) busy
    · exact State.writeReg_cmd_refuses _ large

/-- Settles O37: the phase alone decides, for a write and for a read. -/
theorem immAccess : Obligations.ImmAccess := by
  intro maxLimbs s v rest hr
  refine ⟨fun hp => ⟨fun idle => ?written, fun busy => ?kept⟩,
    fun hp => ⟨fun shown => ?read, fun busy => ?hidden⟩⟩
  case written =>
    exact stepWith_write_permitted (r := .imm) (t := { s with imm := v }) hr hp rfl rfl
      (decide_eq_true idle) rfl
  case kept =>
    exact stepWith_write_refused (r := .imm) hr hp rfl rfl fun permitted =>
      absurd (of_decide_eq_true permitted) busy
  case read => exact stepWith_read_permitted (r := .imm) hr hp rfl rfl (decide_eq_true shown) rfl
  case hidden =>
    exact stepWith_read_refused (r := .imm) hr hp rfl rfl fun permitted =>
      absurd (of_decide_eq_true permitted) (Phase.not_idle_or_fault_of_busy busy)

/-- Settles O38: every phase permits the write, so the value alone decides. -/
theorem ctrlWrite : Obligations.CtrlWrite := by
  intro maxLimbs s v rest hr hp
  refine ⟨fun one => ?reset, fun zero => ?nothing, fun large => ?refused⟩
  case reset =>
    subst one
    exact stepWith_write_permitted (r := .ctrl) (t := cleared s) hr hp rfl rfl rfl
      (State.writeReg_ctrl_one maxLimbs _)
  case nothing =>
    subst zero
    exact stepWith_write_permitted (r := .ctrl) hr hp rfl rfl rfl
      (State.writeReg_ctrl_zero maxLimbs _)
  case refused =>
    exact stepWith_write_refused (r := .ctrl) hr hp rfl rfl fun _ =>
      State.writeReg_ctrl_refuses _ large

end Sys2Proof.Machine
end

section
/-! PROOFS. The illegal command words of 30_encoding.md R88, and the engine's step on a word by what the
decoder answers. -/

namespace Sys2Proof

open Sys2Proof.Spec

/-! ### The fields as the decoder and as the statements read them -/

theorem opField_eq_opBits (c : Word) : opField c = opBits c := by
  have := c.isLt
  rw [opField, opBits, bitSlice]
  omega

theorem wlField_eq_wlBits (c : Word) : wlField c = wlBits c := by
  rw [wlField, wlBits, bitSlice]
  omega

theorem opBits_lt (c : Word) : opBits c < 256 := Nat.div_lt_of_lt_mul c.isLt

theorem rdField_eq_rcField_iff (c : Word) : rdField c = rcField c ↔ rdBits c = rcBits c :=
  Fin.ext_iff

/-! ### The four cases -/

/-- Case 1: the opcode map has a row for every opcode but the reserved ones (30_encoding.md R83). -/
theorem opcodeRow_eq_none_iff {op : Nat} (hop : op < 256) :
    opcodeRow op = none ↔ reservedOp op := by
  unfold opcodeRow
  split
  case h_22 => -- no row: the opcode is none of the 21
    simp only [reservedOp, true_iff, imp_false] at *
    omega
  all_goals simp [reservedOp]

/-- Case 2: the mask of an opcode's format tests that its must-be-zero fields are zero
(30_encoding.md R82). -/
theorem mask_test_iff_unusedFieldsZero {c : Word} {f : Format}
    {build : Reg → Reg → Reg → Reg → Nat → Instr}
    (hrow : opcodeRow (opField c) = some (f, build)) :
    c &&& f.mask = BitVec.ofNat 32 (opField c * 2 ^ 24) ↔ unusedFieldsZero c := by
  have rd : (rdField c).val = rdBits c := rfl
  have ra : (raField c).val = raBits c := rfl
  have rb : (rbField c).val = rbBits c := rfl
  have rc : (rcField c).val = rcBits c := rfl
  rw [mask_test, rd, ra, rb, rc, wlField_eq_wlBits]
  rw [opField_eq_opBits] at hrow
  unfold opcodeRow at hrow
  split at hrow <;> cases hrow
  all_goals simp [unusedFieldsZero, *]

/-- Case 3: the formats that use `wl`, by opcode (30_encoding.md R85). -/
theorem usesWl_iff_mem {op : Nat} {f : Format} {build : Reg → Reg → Reg → Reg → Nat → Instr}
    (hrow : opcodeRow op = some (f, build)) :
    f.usesWl = true ↔ op ∈ [0x01, 0x02, 0x03, 0x04, 0x05, 0x40, 0x41] := by
  unfold opcodeRow at hrow
  split at hrow <;> cases hrow
  all_goals decide

theorem not_illegalCase_iff {maxLimbs : Nat} {c : Word} :
    ¬ illegalCase maxLimbs c ↔
      ¬ reservedOp (opBits c) ∧ unusedFieldsZero c ∧
      (opBits c ∈ [0x01, 0x02, 0x03, 0x04, 0x05, 0x40, 0x41] →
        1 ≤ wlBits c ∧ wlBits c ≤ maxLimbs) ∧
      (opBits c = 0x33 → rdBits c ≠ rcBits c) := by
  simp only [illegalCase, not_or, not_and, not_not, not_lt, Nat.one_le_iff_ne_zero, ne_eq]

/-- The decoder answers a command exactly for the words in none of the four cases
(30_encoding.md R88, R92). -/
theorem exists_decode_ok_iff {maxLimbs : Nat} {c : Word} :
    (∃ i, decode maxLimbs c = .ok i) ↔ ¬ illegalCase maxLimbs c := by
  rw [not_illegalCase_iff, ← opcodeRow_eq_none_iff (opBits_lt c), ← opField_eq_opBits,
    ← wlField_eq_wlBits, Ne, ← rdField_eq_rcField_iff]
  constructor
  · rintro ⟨i, hi⟩
    obtain ⟨f, build, hrow, hmask, hwl, hdiv, -⟩ := decode_ok hi
    exact ⟨by simp [hrow], (mask_test_iff_unusedFieldsZero hrow).1 hmask,
      fun hop => hwl ((usesWl_iff_mem hrow).2 hop), hdiv⟩
  · rintro ⟨hop, hzero, hwl, hdiv⟩
    obtain ⟨⟨f, build⟩, hrow⟩ := Option.ne_none_iff_exists'.1 hop
    exact ⟨_, decode_of_row hrow ((mask_test_iff_unusedFieldsZero hrow).2 hzero)
      (fun hu => hwl ((usesWl_iff_mem hrow).1 hu)) hdiv⟩

/-- The decoder rejects a word in one of the four cases. -/
theorem exists_decode_error_of_illegalCase {maxLimbs : Nat} {c : Word}
    (h : illegalCase maxLimbs c) : ∃ e, decode maxLimbs c = .error e := by
  cases hd : decode maxLimbs c with
  | ok i => exact absurd h (exists_decode_ok_iff.1 ⟨i, hd⟩)
  | error e => exact ⟨e, rfl⟩

end Sys2Proof

namespace Sys2Proof.Machine

open Sys2Proof.Spec

/-! ### The engine's step in RUN -/

theorem engineStep_of_decode_ok {maxLimbs : Nat} {s : State} {i : Instr} (hrun : s.phase = .run)
    (hd : decode maxLimbs s.cmdr = .ok i) : s.engineStep maxLimbs = exec i s := by
  rw [State.engineStep, hrun, hd]

theorem engineStep_of_decode_error {maxLimbs : Nat} {s : State} {e : Illegal}
    (hrun : s.phase = .run) (hd : decode maxLimbs s.cmdr = .error e) :
    s.engineStep maxLimbs = faulted s 0x01 := by
  rw [State.engineStep, hrun, hd]
  exact congrArg Host.Outcome.next (s.takeFault_illegal [])

/-! ### The statement -/

/-- Settles O4: the decoder rejects exactly the words in the four cases, and the engine's step follows
the decoder. -/
theorem illegalWordsFault : Obligations.IllegalWordsFault := by
  intro maxLimbs s hrun
  refine ⟨fun illegal => ?fault, fun legal => ?command⟩
  case fault =>
    obtain ⟨e, he⟩ := exists_decode_error_of_illegalCase illegal
    exact engineStep_of_decode_error hrun he
  case command =>
    obtain ⟨i, hi⟩ := exists_decode_ok_iff.2 legal
    exact ⟨i, hi, engineStep_of_decode_ok hrun hi⟩

end Sys2Proof.Machine
end

section
/-! PROOFS. The construction and conversion commands of 40_construct.md: LDI, CVT, and the loads LDW64
and LDW32 with their beats as steps of the block. -/

namespace Sys2Proof

open Sys2Proof.Machine Sys2Proof.Spec

/-! ### Words and sums as the statements write them -/

theorem legalWl_of_bounds {maxLimbs wl : Nat} (hwl : 1 ≤ wl) (hle : wl ≤ maxLimbs) :
    legalWl maxLimbs wl = true := by
  rw [legalWl, decide_eq_true hwl, decide_eq_true hle, Bool.and_self]

/-- `Spec.word` lays the fields out as `encode` does, so this is the round trip of the command
(30_encoding.md R81). -/
theorem decode_word_ldw64 {maxLimbs wl : Nat} (rd : Reg) (hmax : maxLimbs ≤ 255) (hwl : 1 ≤ wl)
    (hle : wl ≤ maxLimbs) : decode maxLimbs (Spec.word 0x02 rd 0 0 0 wl) = .ok (.ldw64 rd wl) :=
  Laws.RoundTrip.ldw64 rd wl maxLimbs hmax (legalWl_of_bounds hwl hle)

/-- As `decode_word_ldw64`, for LDW32. -/
theorem decode_word_ldw32 {maxLimbs wl : Nat} (rd : Reg) (hmax : maxLimbs ≤ 255) (hwl : 1 ≤ wl)
    (hle : wl ≤ maxLimbs) : decode maxLimbs (Spec.word 0x03 rd 0 0 0 wl) = .ok (.ldw32 rd wl) :=
  Laws.RoundTrip.ldw32 rd wl maxLimbs hmax (legalWl_of_bounds hwl hle)

/-- The value of a list of limbs is the sum of the limbs at their places (00_scope.md R10). -/
theorem limbsVal_eq_sumLimbs (ls : List Limb) : limbsVal ls = sumLimbs ls ls.length := by
  induction ls with
  | nil => rfl
  | cons l ls ih =>
    have place (j : Nat) : 2 ^ (64 * (j + 1)) = 2 ^ 64 * 2 ^ (64 * j) := by
      rw [Nat.mul_succ, pow_add, mul_comm]
    rw [limbsVal, ih, sumLimbs, sumLimbs, List.length_cons, Finset.sum_range_succ', Finset.mul_sum,
      add_comm]
    simp only [place, List.getD_cons_zero, List.getD_cons_succ, Nat.mul_zero, pow_zero, mul_one,
      mul_left_comm]

theorem limbsVal_of_length {ls : List Limb} {n : Nat} (h : ls.length = n) :
    limbsVal ls = sumLimbs ls n := by
  rw [limbsVal_eq_sumLimbs, h]

end Sys2Proof

namespace Sys2Proof.Safety

open Sys2Proof.Machine

/-! ### The load in progress -/

theorem Inv.loadOk_of_ldw64 {maxLimbs : Nat} {s : State} {rd : Reg} {wl : Nat}
    (inv : Inv maxLimbs s) (hload : s.phase = .load)
    (hd : decode maxLimbs s.cmdr = .ok (.ldw64 rd wl)) : LoadOk s rd wl 1 := by
  rcases inv.load hload with ⟨rd', wl', hd', ok⟩ | ⟨rd', wl', hd', -⟩
  · cases hd.symm.trans hd'
    exact ok
  · cases hd.symm.trans hd'

theorem Inv.loadOk_of_ldw32 {maxLimbs : Nat} {s : State} {rd : Reg} {wl : Nat}
    (inv : Inv maxLimbs s) (hload : s.phase = .load)
    (hd : decode maxLimbs s.cmdr = .ok (.ldw32 rd wl)) : LoadOk s rd wl 2 := by
  rcases inv.load hload with ⟨rd', wl', hd', -⟩ | ⟨rd', wl', hd', ok⟩
  · cases hd.symm.trans hd'
  · cases hd.symm.trans hd'
    exact ok

/-- The last beat of LDW64 appends the last limb (10_state.md R38; 40_construct.md R102). -/
theorem LoadOk.length_append_of_last {s : State} {rd : Reg} {wl : Nat} (ok : LoadOk s rd wl 1)
    (last : s.lcnt.toNat + 1 = wl) (v : Limb) : (s.lbuf ++ [v]).length = wl := by
  obtain ⟨-, -, held⟩ := ok
  rw [List.length_append, List.length_singleton]
  omega

/-- At the last beat of LDW32 the last limb is already begun (10_state.md R38;
40_construct.md R103). -/
theorem LoadOk.length_of_last {s : State} {rd : Reg} {wl : Nat} (ok : LoadOk s rd wl 2)
    (last : s.lcnt.toNat + 1 = 2 * wl) : s.lbuf.length = wl := by
  obtain ⟨-, -, held⟩ := ok
  omega

end Sys2Proof.Safety

namespace Sys2Proof.Machine

open Sys2Proof.Safety Sys2Proof.Spec

/-! ### How a command with one destination ends -/

theorem commit_setReg (dests : List Reg) (s : State) (rd : Reg) (len val : Nat) :
    commit dests s (.ok (s.setReg rd (some ⟨len, val⟩))) = wrote s rd len val := rfl

theorem commit_fault {f : FaultCode} (hf : f ≠ .illegal) (s : State) (rd : Reg) :
    commit [rd] s (.error f) = faultedAt s f.code rd := by
  rw [commit_error, State.takeFault_of_ne s hf]
  rfl

/-! ### A beat as a step -/

theorem State.writeDin_ldw64 {maxLimbs : Nat} {s : State} {rd : Reg} {wl : Nat}
    (hd : decode maxLimbs s.cmdr = .ok (.ldw64 rd wl)) (v : Limb) :
    s.writeDin maxLimbs v = some (s.beat64 rd wl v) := by
  rw [State.writeDin, hd]

theorem State.writeDin_ldw32 {maxLimbs : Nat} {s : State} {rd : Reg} {wl : Nat}
    (hd : decode maxLimbs s.cmdr = .ok (.ldw32 rd wl)) {v : Limb} (hv : v.toNat < 2 ^ 32) :
    s.writeDin maxLimbs v = some (s.beat32 rd wl v) := by
  rw [State.writeDin, hd]
  exact if_pos (decide_eq_true hv)

/-- LDW32 refuses a beat whose upper half is not zero (40_construct.md R103). -/
theorem State.writeDin_ldw32_refuses {maxLimbs : Nat} {s : State} {rd : Reg} {wl : Nat}
    (hd : decode maxLimbs s.cmdr = .ok (.ldw32 rd wl)) {v : Limb} (hv : 2 ^ 32 ≤ v.toNat) :
    s.writeDin maxLimbs v = none := by
  rw [State.writeDin, hd]
  exact if_neg (by simpa only [upperHalfZero, decide_eq_true_iff, not_lt] using hv)

/-- A `DIN` write outside LOAD is refused (20_memory.md R56). -/
theorem stepWith_din_of_ne_load {maxLimbs : Nat} {s : State} {v : Limb} {rest : List Move}
    (hr : s.rst = false) (hp : s.pending = .access (.write 0x0020 8 v) :: rest)
    (hphase : s.phase ≠ .load) : stepWith maxLimbs s = answered s rest .slverr :=
  stepWith_write_refused (r := .din) hr hp rfl rfl fun permitted =>
    absurd (of_decide_eq_true permitted) hphase

section Beats

variable {maxLimbs : Nat} {s : State} {rd : Reg} {wl : Nat} {v : Limb} {rest : List Move}
  (hmax : wl ≤ 255) (inv : Inv maxLimbs s) (hload : s.phase = .load) (hr : s.rst = false)
  (hp : s.pending = .access (.write 0x0020 8 v) :: rest)

include hload hr hp in
/-- A beat that is taken has the load's effect (20_memory.md R61). -/
theorem stepWith_beat {t : State}
    (hw : ({ s with pending := rest } : State).writeDin maxLimbs v =
      some { t with pending := rest }) :
    stepWith maxLimbs s = answered t rest .okay :=
  stepWith_write_permitted (r := .din) hr hp rfl rfl (decide_eq_true hload) hw

include hmax inv hload hr hp in
/-- A beat of LDW64 that is not the last appends its word and counts (40_construct.md R102). -/
theorem stepWith_beat64_append (hd : decode maxLimbs s.cmdr = .ok (.ldw64 rd wl))
    (more : s.lcnt.toNat + 1 ≠ wl) :
    stepWith maxLimbs s =
      answered { s with lbuf := s.lbuf ++ [v], lcnt := s.lcnt + 1 } rest .okay := by
  have ok : LoadOk { s with pending := rest } rd wl 1 := inv.loadOk_of_ldw64 hload hd
  refine stepWith_beat hload hr hp ?_
  rw [State.writeDin_ldw64 (s := { s with pending := rest }) hd, beat64_eq ok hmax, if_neg more]

include hmax inv hload hr hp in
/-- The last beat of LDW64 completes the command (40_construct.md R102). -/
theorem stepWith_beat64_last (hd : decode maxLimbs s.cmdr = .ok (.ldw64 rd wl))
    (last : s.lcnt.toNat + 1 = wl) :
    stepWith maxLimbs s =
      answered { s with
        w := s.w.set rd.val (some ⟨wl, sumLimbs (s.lbuf ++ [v]) wl⟩)
        lbuf := [], lcnt := 0, phase := .idle, done := true } rest .okay := by
  have ok : LoadOk { s with pending := rest } rd wl 1 := inv.loadOk_of_ldw64 hload hd
  have value : limbsVal (s.lbuf ++ [v]) = sumLimbs (s.lbuf ++ [v]) wl :=
    limbsVal_of_length (ok.length_append_of_last last v)
  refine stepWith_beat hload hr hp ?_
  rw [State.writeDin_ldw64 (s := { s with pending := rest }) hd, beat64_eq ok hmax, if_pos last,
    value]

include hr hp in
/-- A beat of LDW32 with a nonzero upper half is refused (40_construct.md R103). -/
theorem stepWith_beat32_refused (hd : decode maxLimbs s.cmdr = .ok (.ldw32 rd wl))
    (large : 2 ^ 32 ≤ v.toNat) : stepWith maxLimbs s = answered s rest .slverr :=
  stepWith_write_refused (r := .din) hr hp rfl rfl fun _ =>
    State.writeDin_ldw32_refuses (s := { s with pending := rest }) hd large

include hmax inv hload hr hp in
/-- The first word of a pair is the high half of a new limb (40_construct.md R103). -/
theorem stepWith_beat32_even (hd : decode maxLimbs s.cmdr = .ok (.ldw32 rd wl))
    (small : v.toNat < 2 ^ 32) (even : s.lcnt.toNat % 2 = 0) :
    stepWith maxLimbs s =
      answered { s with lbuf := s.lbuf ++ [v <<< 32], lcnt := s.lcnt + 1 } rest .okay := by
  have ok : LoadOk { s with pending := rest } rd wl 2 := inv.loadOk_of_ldw32 hload hd
  refine stepWith_beat hload hr hp ?_
  rw [State.writeDin_ldw32 (s := { s with pending := rest }) hd small, beat32_even ok hmax v even]

include hmax inv hload hr hp in
/-- The second word of a pair is ORed into the limb the first began, and the last beat completes the
command (40_construct.md R103). -/
theorem stepWith_beat32_odd (hd : decode maxLimbs s.cmdr = .ok (.ldw32 rd wl))
    (small : v.toNat < 2 ^ 32) (odd : s.lcnt.toNat % 2 = 1) :
    ∃ buf l, s.lbuf = buf ++ [l] ∧
      (s.lcnt.toNat + 1 ≠ 2 * wl → stepWith maxLimbs s =
        answered { s with lbuf := buf ++ [l ||| v], lcnt := s.lcnt + 1 } rest .okay) ∧
      (s.lcnt.toNat + 1 = 2 * wl → stepWith maxLimbs s =
        answered { s with
          w := s.w.set rd.val (some ⟨wl, sumLimbs (buf ++ [l ||| v]) wl⟩)
          lbuf := [], lcnt := 0, phase := .idle, done := true } rest .okay) := by
  have ok : LoadOk { s with pending := rest } rd wl 2 := inv.loadOk_of_ldw32 hload hd
  obtain ⟨buf, l, (hbuf : s.lbuf = buf ++ [l]), beat⟩ := beat32_odd ok hmax v odd
  have taken := State.writeDin_ldw32 (s := { s with pending := rest }) hd small
  rw [beat] at taken
  refine ⟨buf, l, hbuf, fun more => ?more, fun last => ?last⟩
  case more => exact stepWith_beat hload hr hp (by rw [taken, if_neg more])
  case last =>
    have value : limbsVal (buf ++ [l ||| v]) = sumLimbs (buf ++ [l ||| v]) wl := by
      have full : s.lbuf.length = wl := ok.length_of_last last
      refine limbsVal_of_length ?_
      rw [← full, hbuf, List.length_append, List.length_append, List.length_singleton,
        List.length_singleton]
    exact stepWith_beat hload hr hp (by rw [taken, if_pos last, value])

end Beats

/-! ### The statements -/

/-- Settles O8: the phase decides whether a `DIN` write is a beat, the counter whether it is
the last. -/
theorem ldw64Rule : Obligations.Ldw64Rule := by
  intro maxLimbs s rd wl hmax hwl hle
  have decoded := decode_word_ldw64 rd hmax hwl hle
  refine ⟨decoded, rfl, fun v rest hr hp =>
    ⟨stepWith_din_of_ne_load hr hp, fun inv hload hcmdr => ?beats⟩⟩
  case beats =>
    have hd : decode maxLimbs s.cmdr = .ok (.ldw64 rd wl) := by rw [hcmdr, decoded]
    have fits := hle.trans hmax
    exact ⟨stepWith_beat64_append fits inv hload hr hp hd,
      fun last => ⟨[], stepWith_beat64_last fits inv hload hr hp hd last⟩⟩

/-- Settles O9: the word decides whether the beat is taken, the counter's parity which half it
fills. -/
theorem ldw32Rule : Obligations.Ldw32Rule := by
  intro maxLimbs s rd wl hmax hwl hle
  have decoded := decode_word_ldw32 rd hmax hwl hle
  refine ⟨decoded, rfl, fun v rest inv hload hcmdr hr hp => ?beats⟩
  case beats =>
    have hd : decode maxLimbs s.cmdr = .ok (.ldw32 rd wl) := by rw [hcmdr, decoded]
    have fits := hle.trans hmax
    refine ⟨stepWith_beat32_refused hr hp hd, stepWith_beat32_even fits inv hload hr hp hd,
      fun small odd => ?second⟩
    case second =>
      obtain ⟨buf, l, hbuf, append, complete⟩ :=
        stepWith_beat32_odd fits inv hload hr hp hd small odd
      exact ⟨buf, l, hbuf, append, fun last => ⟨[], complete last⟩⟩

/-- Settles O7: LDI makes no check, so it completes from every state. -/
theorem ldiRule : Obligations.LdiRule := by
  intro maxLimbs s rd wl hmax hwl hle
  exact ⟨Laws.RoundTrip.ldi rd wl maxLimbs hmax (legalWl_of_bounds hwl hle),
    commit_setReg [rd] s rd wl s.imm.toNat⟩

/-- Settles O11: the source is CVT's only check. -/
theorem cvtRule : Obligations.CvtRule := by
  intro maxLimbs s rd ra wl hmax hwl hle
  have command : exec (.cvt rd ra wl) s = execCvt rd ra wl s := rfl
  refine ⟨Laws.RoundTrip.cvt rd ra wl maxLimbs hmax (legalWl_of_bounds hwl hle),
    fun unconstructed => ?fault, fun a source => ?value⟩
  case fault =>
    rw [command, execCvt, State.source_none unconstructed, error_bind]
    exact commit_fault (by decide) s rd
  case value =>
    rw [command, execCvt, State.source_some source, ok_bind]
    exact commit_setReg [rd] s rd wl _

end Sys2Proof.Machine
end

section
/-! PROOFS. The predicate and measurement commands of 41_predicates.md: ISZERO, ISODD, CMP, EQ64, FHB
and FULC. -/

namespace Sys2Proof

open Sys2Proof.Machine

/-! ### Command words without a width -/

/-- A word that decodes in a block decodes to the same command in every block with more limbs: only the
width check reads `MAXLIMBS` (30_encoding.md R85, R92). -/
theorem decode_mono {m n : Nat} {c : Word} {i : Instr} (hle : m ≤ n) (h : decode m c = .ok i) :
    decode n c = .ok i := by
  obtain ⟨f, build, hrow, hmask, hwl, hdiv, rfl⟩ := decode_ok h
  refine decode_of_row hrow hmask (fun hu => ?width) hdiv
  case width =>
    obtain ⟨hpos, hmax⟩ := hwl hu
    exact ⟨hpos, hmax.trans hle⟩

/-- A command that is well formed whatever `MAXLIMBS` is decodes from its word in every block. -/
theorem Laws.RoundTrip.Statement.decode_encode {i : Instr} (h : Laws.RoundTrip.Statement i)
    (hwf : i.wellFormed 0 = true) (maxLimbs : Nat) : decode maxLimbs (encode i) = .ok i :=
  decode_mono (Nat.zero_le maxLimbs) (h 0 (Nat.zero_le 255) hwf)

end Sys2Proof

namespace Sys2Proof.Machine

open Sys2Proof.Safety Sys2Proof.Spec

/-! ### How a command without a wide destination ends -/

theorem commit_setRes (dests : List Reg) (s : State) (v : Limb) :
    commit dests s (.ok (s.setRes v)) = resulted s v := rfl

theorem commit_nil_error (s : State) (f : FaultCode) :
    commit [] s (.error f) = faulted s f.code := by
  cases f <;> rfl

/-- A command whose only check is its source faults without it and leaves `RES`
(41_predicates.md R120). -/
theorem commit_nil_source_none {s : State} {ra : Reg} (h : s.reg ra = none)
    (k : Wide → Except FaultCode State) : commit [] s (s.source ra >>= k) = faulted s 0x02 := by
  rw [State.source_none h, error_bind, commit_nil_error]
  rfl

/-- A command whose only check is its source writes what it computes from it to `RES`
(41_predicates.md R120). -/
theorem commit_nil_source_some {s : State} {ra : Reg} {a : Wide} (h : s.reg ra = some a)
    (result : Wide → Limb) :
    commit [] s (s.source ra >>= fun a => .ok (s.setRes (result a))) = resulted s (result a) := by
  rw [State.source_some h, ok_bind, commit_setRes]

/-! ### The words written to `RES` -/

theorem boolWord_decide (p : Prop) [Decidable p] : boolWord (decide p) = if p then 1 else 0 := by
  simp only [boolWord, decide_eq_true_eq]

theorem ofNat_mod_two (a : Nat) : BitVec.ofNat 64 (a % 2) = if a % 2 = 1 then 1 else 0 := by
  rcases Nat.mod_two_eq_zero_or_one a with even | odd
  · rw [even]; rfl
  · rw [odd]; rfl

theorem cmpWord_of_lt {a b : Nat} (h : a < b) : cmpWord a b = 0xFFFFFFFFFFFFFFFF#64 := if_pos h

@[simp] theorem cmpWord_self (a : Nat) : cmpWord a a = 0 := by
  rw [cmpWord, if_neg (lt_irrefl a), if_pos rfl]

theorem cmpWord_of_gt {a b : Nat} (h : b < a) : cmpWord a b = 1 := by
  rw [cmpWord, if_neg h.not_gt, if_neg h.ne']

/-! ### Bit lengths and used limbs -/

theorem lt_two_pow_of_bitlen_le {a n : Nat} (h : bitlen a ≤ n) : a < 2 ^ n :=
  (lt_two_pow_bitlen a).trans_le (Nat.pow_le_pow_right two_pos h)

theorem two_pow_le_of_lt_bitlen {a n : Nat} (h : n < bitlen a) : 2 ^ n ≤ a :=
  not_lt.1 (mt bitlen_le h.not_ge)

/-- A value above 0 has a most significant 1 bit, and its bit length is one more than that bit's index
(00_scope.md R9). -/
theorem exists_bitlen_eq_succ {a : Nat} (h : a ≠ 0) :
    ∃ k, bitlen a = k + 1 ∧ 2 ^ k ≤ a ∧ a < 2 ^ (k + 1) := by
  obtain ⟨k, hk⟩ := Nat.exists_eq_add_one_of_ne_zero (mt bitlen_eq_zero.1 h)
  exact ⟨k, hk, two_pow_le_of_bitlen hk, lt_two_pow_of_bitlen_le hk.le⟩

@[simp] theorem usedLimbs_zero : usedLimbs 0 = 0 := by rw [usedLimbs, bitlen_zero]

/-- A value needs no more than `n` limbs if its bit length is at most that of `n` limbs
(41_predicates.md R126). -/
theorem usedLimbs_le_iff {a n : Nat} : usedLimbs a ≤ n ↔ bitlen a ≤ 64 * n := by
  rw [usedLimbs]
  omega

/-- Every limb above the used ones is 0 (41_predicates.md R126). -/
theorem limbOf_of_usedLimbs_le {a j : Nat} (h : usedLimbs a ≤ j) : limbOf a j = 0 := by
  have small : a < 2 ^ (64 * j) := lt_two_pow_of_bitlen_le (usedLimbs_le_iff.1 h)
  rw [limbOf, Nat.div_eq_of_lt small, Nat.zero_mod]

/-- The highest used limb holds the most significant 1 bit, and nothing is above it
(41_predicates.md R126). -/
theorem limbOf_ne_zero_of_usedLimbs {a k : Nat} (h : usedLimbs a = k + 1) : limbOf a k ≠ 0 := by
  have large : 2 ^ (64 * k) ≤ a :=
    two_pow_le_of_lt_bitlen (not_le.1 (mt usedLimbs_le_iff.2 (by omega)))
  have small : a < 2 ^ (64 * (k + 1)) := lt_two_pow_of_bitlen_le (usedLimbs_le_iff.1 h.le)
  have top : a / 2 ^ (64 * k) < 2 ^ 64 := Nat.div_lt_of_lt_mul (by rwa [← pow_add])
  rw [limbOf, Nat.mod_eq_of_lt top]
  exact (Nat.div_pos large (by positivity)).ne'

theorem exists_usedLimbs_eq_succ {a : Nat} (h : a ≠ 0) : ∃ k, usedLimbs a = k + 1 := by
  obtain ⟨b, hb, -⟩ := exists_bitlen_eq_succ h
  exact Nat.exists_eq_add_one_of_ne_zero (by rw [usedLimbs]; omega)

/-- The bit length of a register's value is at most the register's width (41_predicates.md R125). -/
theorem bitlen_le_of_wideOk {maxLimbs : Nat} {a : Wide} (ha : WideOk maxLimbs a) :
    bitlen a.val ≤ 64 * a.len := by
  obtain ⟨-, -, hval⟩ := ha
  exact bitlen_le hval

/-- A measure of a register that is at most its width in bits fits `RES`. -/
theorem toNat_ofNat_of_le_width {maxLimbs n : Nat} {a : Wide} (hmax : maxLimbs ≤ 255)
    (ha : WideOk maxLimbs a) (hn : n ≤ 64 * a.len) : (BitVec.ofNat 64 n).toNat = n := by
  obtain ⟨-, hlen, -⟩ := ha
  exact Nat.mod_eq_of_lt (by omega)

/-! ### The statements -/

/-- Settles O14: the two sources are checked first, then their widths. -/
theorem cmpRule : Obligations.CmpRule := by
  intro maxLimbs s ra rb
  have command : exec (.cmp ra rb) s = execCmp ra rb s := rfl
  refine ⟨(Laws.RoundTrip.cmp ra rb).decode_encode rfl maxLimbs, fun unconstructed => ?source,
    fun a b ha hb => ⟨fun differ => ?width, fun same => ?value⟩⟩
  case source =>
    rw [command, execCmp, two_sources_fault unconstructed, commit_nil_error]
    rfl
  case width =>
    rw [command, execCmp, State.source_some ha, ok_bind, State.source_some hb, ok_bind,
      sameWidth_fault differ, error_bind, commit_nil_error]
    rfl
  case value =>
    have completes : exec (.cmp ra rb) s = resulted s (cmpWord a.val b.val) := by
      rw [command, execCmp, State.source_some ha, ok_bind, State.source_some hb, ok_bind,
        sameWidth_ok same, ok_bind]
      exact commit_setRes [] s _
    rw [completes]
    exact ⟨fun less => by rw [cmpWord_of_lt less], fun equal => by rw [equal, cmpWord_self],
      fun greater => by rw [cmpWord_of_gt greater]⟩

/-- Settles O16: the result is the bit length, which the register's width bounds. -/
theorem fhbRule : Obligations.FhbRule := by
  intro maxLimbs s ra hmax inv
  refine ⟨(Laws.RoundTrip.fhb ra).decode_encode rfl maxLimbs,
    fun unconstructed => commit_nil_source_none unconstructed _,
    fun a source => ⟨_, commit_nil_source_some source fun a => BitVec.ofNat 64 (bitlen a.val), ?_⟩⟩
  have ok := inv.regs ra a source
  have bound := bitlen_le_of_wideOk ok
  rw [toNat_ofNat_of_le_width hmax ok bound]
  exact ⟨bound, fun zero => by rw [zero, bitlen_zero]; rfl, exists_bitlen_eq_succ⟩

/-- Settles O17: the result is the number of used limbs, of which the highest is not 0. -/
theorem fulcRule : Obligations.FulcRule := by
  intro maxLimbs s ra hmax inv
  refine ⟨(Laws.RoundTrip.fulc ra).decode_encode rfl maxLimbs,
    fun unconstructed => commit_nil_source_none unconstructed _,
    fun a source => ⟨_, commit_nil_source_some source fun a => BitVec.ofNat 64 (usedLimbs a.val),
      ?_⟩⟩
  have ok := inv.regs ra a source
  have bound : usedLimbs a.val ≤ a.len := usedLimbs_le_iff.2 (bitlen_le_of_wideOk ok)
  rw [toNat_ofNat_of_le_width hmax ok (by omega)]
  refine ⟨bound, fun zero => by rw [zero, usedLimbs_zero]; rfl, fun nonzero => ?highest⟩
  case highest =>
    obtain ⟨k, hk⟩ := exists_usedLimbs_eq_succ nonzero
    exact ⟨k, hk, limbOf_ne_zero_of_usedLimbs hk,
      fun j hj => limbOf_of_usedLimbs_le (hk.trans_le hj)⟩

/-- Settles O12: the source is ISZERO's only check. -/
theorem iszeroRule : Obligations.IszeroRule := by
  intro maxLimbs s ra
  refine ⟨(Laws.RoundTrip.iszero ra).decode_encode rfl maxLimbs,
    fun unconstructed => commit_nil_source_none unconstructed _, fun a source => ?_⟩
  rw [← boolWord_decide]
  exact commit_nil_source_some source fun a => boolWord (decide (a.val = 0))

/-- Settles O13: the source is ISODD's only check. -/
theorem isoddRule : Obligations.IsoddRule := by
  intro maxLimbs s ra
  refine ⟨(Laws.RoundTrip.isodd ra).decode_encode rfl maxLimbs,
    fun unconstructed => commit_nil_source_none unconstructed _, fun a source => ?_⟩
  rw [← ofNat_mod_two]
  exact commit_nil_source_some source fun a => BitVec.ofNat 64 (a.val % 2)

/-- Settles O15: the source is EQ64's only check, and `IMM` is compared with the whole value. -/
theorem eq64Rule : Obligations.Eq64Rule := by
  intro maxLimbs s ra
  refine ⟨(Laws.RoundTrip.eq64 ra).decode_encode rfl maxLimbs,
    fun unconstructed => commit_nil_source_none unconstructed _, fun a source => ?_⟩
  rw [← boolWord_decide]
  exact commit_nil_source_some source fun a => boolWord (decide (a.val = s.scalar))

end Sys2Proof.Machine
end

section
/-! PROOFS. The shift and complement commands of 42_bitwise.md: SHL, SHR and NOT. -/

namespace Sys2Proof.Machine

open Sys2Proof.Safety Sys2Proof.Spec

/-! ### How a command with one source and one wide destination ends -/

/-- A command whose only check is its source faults without it and takes its destination away
(42_bitwise.md R140; 60_exceptions.md R232). -/
theorem commit_source_none {s : State} {ra : Reg} (h : s.reg ra = none) (rd : Reg)
    (k : Wide → Except FaultCode State) :
    commit [rd] s (s.source ra >>= k) = faultedAt s 0x02 rd := by
  rw [State.source_none h, error_bind]
  exact commit_fault (by decide) s rd

/-- A command whose only check is its source writes what it computes from it at the source's width
(42_bitwise.md R140). -/
theorem commit_source_some {s : State} {ra : Reg} {a : Wide} (h : s.reg ra = some a) (rd : Reg)
    (value : Wide → Nat) :
    commit [rd] s (s.source ra >>= fun a => .ok (s.setReg rd (some ⟨a.len, value a⟩))) =
      wrote s rd a.len (value a) := by
  rw [State.source_some h, ok_bind, commit_setReg]

/-! ### The values of the shifts -/

theorem shlValue_of_width_le {a : Wide} {k : Nat} (h : 64 * a.len ≤ k) : shlValue a k = 0 :=
  if_pos h

theorem shrValue_of_width_le {a : Wide} {k : Nat} (h : 64 * a.len ≤ k) : shrValue a k = 0 :=
  if_pos h

/-- At a count of the width or more `2^N` divides the product, so the remainder is the 0 the shift
gives there (42_bitwise.md R141). -/
theorem shlValue_eq (a : Wide) (k : Nat) : shlValue a k = a.val * 2 ^ k % 2 ^ (64 * a.len) := by
  by_cases h : 64 * a.len ≤ k
  case pos =>
    have beyond : 2 ^ (64 * a.len) ∣ a.val * 2 ^ k := (pow_dvd_pow 2 h).mul_left a.val
    rw [shlValue_of_width_le h, Nat.mod_eq_zero_of_dvd beyond]
  case neg => exact if_neg h

/-- At a count of the width or more the divisor exceeds the value, so the quotient is the 0 the shift
gives there (42_bitwise.md R142). -/
theorem shrValue_eq {a : Wide} (ha : a.val < 2 ^ (64 * a.len)) (k : Nat) :
    shrValue a k = a.val / 2 ^ k := by
  by_cases h : 64 * a.len ≤ k
  case pos =>
    have beyond : a.val < 2 ^ k := ha.trans_le (Nat.pow_le_pow_right two_pos h)
    rw [shrValue_of_width_le h, Nat.div_eq_of_lt beyond]
  case neg => exact if_neg h

/-! ### The limbs of the complement -/

/-- Bit `i` of limb `j` is bit `64·j + i` of the value (00_scope.md R10). -/
theorem testBit_limbOf (v j i : Nat) :
    (limbOf v j).testBit i = (decide (i < 64) && v.testBit (64 * j + i)) := by
  rw [limbOf, Nat.testBit_mod_two_pow, Nat.testBit_div_two_pow, Nat.add_comm]

/-- Below the width every bit of `2^(64·L) - 1 - v` is the flipped bit of `v`, so every limb is
(42_bitwise.md R143). -/
theorem limbOf_complement {v len j : Nat} (hv : v < 2 ^ (64 * len)) (hj : j < len) :
    limbOf (2 ^ (64 * len) - 1 - v) j = limbOf v j ^^^ 0xFFFFFFFFFFFFFFFF := by
  have ones : 0xFFFFFFFFFFFFFFFF = 2 ^ 64 - 1 := by decide
  refine Nat.eq_of_testBit_eq fun i => ?_
  rw [ones, Nat.testBit_xor, Nat.testBit_two_pow_sub_one, testBit_limbOf, testBit_limbOf,
    Nat.sub_sub, Nat.add_comm 1, Nat.testBit_two_pow_sub_succ hv]
  by_cases hi : i < 64
  case pos =>
    have inside : 64 * j + i < 64 * len := by omega
    simp only [hi, inside, decide_true, Bool.true_and, Bool.xor_true]
  case neg => simp only [hi, decide_false, Bool.false_and, Bool.xor_false]

/-! ### The statements -/

/-- Settles O18: the source is SHL's only check, and the count never faults. -/
theorem shlRule : Obligations.ShlRule := by
  intro maxLimbs s rd ra
  refine ⟨(Laws.RoundTrip.shl rd ra).decode_encode rfl maxLimbs,
    fun unconstructed => commit_source_none unconstructed rd _, fun a source => ?value⟩
  case value =>
    have completes : exec (.shl rd ra) s = wrote s rd a.len (shlValue a s.imm.toNat) :=
      commit_source_some source rd fun a => shlValue a s.scalar
    exact ⟨by rw [completes, shlValue_eq],
      fun wide => by rw [completes, shlValue_of_width_le wide]⟩

/-- Settles O19: the source is SHR's only check, and the invariant bounds its value by its width. -/
theorem shrRule : Obligations.ShrRule := by
  intro maxLimbs s rd ra inv
  refine ⟨(Laws.RoundTrip.shr rd ra).decode_encode rfl maxLimbs,
    fun unconstructed => commit_source_none unconstructed rd _, fun a source => ?value⟩
  case value =>
    obtain ⟨-, -, bound⟩ := inv.regs ra a source
    have completes : exec (.shr rd ra) s = wrote s rd a.len (shrValue a s.imm.toNat) :=
      commit_source_some source rd fun a => shrValue a s.scalar
    exact ⟨by rw [completes, shrValue_eq bound],
      fun wide => by rw [completes, shrValue_of_width_le wide]⟩

/-- Settles O20: the source is NOT's only check, and the invariant bounds its value by its width. -/
theorem notRule : Obligations.NotRule := by
  intro maxLimbs s rd ra inv
  refine ⟨(Laws.RoundTrip.not rd ra).decode_encode rfl maxLimbs,
    fun unconstructed => commit_source_none unconstructed rd _, fun a source => ?value⟩
  case value =>
    obtain ⟨-, -, bound⟩ := inv.regs ra a source
    exact ⟨commit_source_some source rd fun a => ringSize a.len - 1 - a.val,
      fun _ hj => limbOf_complement bound hj⟩

end Sys2Proof.Machine
end

section
/-! PROOFS. The ring arithmetic commands of 43_arith.md: ADD, SUB, MUL, DIV and POW. -/

namespace Sys2Proof.Machine

open Sys2Proof.Safety Sys2Proof.Spec

/-! ### Commands with two sources and one wide destination -/

/-- A command that reads two sources first faults without one of them and takes its destination away
(43_arith.md R160; 60_exceptions.md R232). -/
theorem commit_two_sources_none {s : State} {ra rb : Reg} (h : s.reg ra = none ∨ s.reg rb = none)
    (rd : Reg) (k : Wide → Wide → Except FaultCode State) :
    commit [rd] s (s.source ra >>= fun a => s.source rb >>= k a) = faultedAt s 0x02 rd := by
  rw [two_sources_fault h]
  exact commit_fault (by decide) s rd

theorem two_sources_some {s : State} {ra rb : Reg} {a b : Wide} (ha : s.reg ra = some a)
    (hb : s.reg rb = some b) {β : Type} (k : Wide → Wide → Except FaultCode β) :
    (s.source ra >>= fun a => s.source rb >>= k a) = k a b := by
  rw [State.source_some ha, ok_bind, State.source_some hb, ok_bind]

/-- The common form of ADD, SUB and MUL: two sources of one width, and a value at that width
(43_arith.md R173). -/
def execSameWidth (value : Wide → Wide → Nat) (rd ra rb : Reg) (s : State) :
    Host.Outcome State Fault Refusal :=
  commit [rd] s do
    let a ← s.source ra
    let b ← s.source rb
    sameWidth a b
    return s.setReg rd (some ⟨a.len, value a b⟩)

theorem exec_add (rd ra rb : Reg) (s : State) : exec (.add rd ra rb) s =
    execSameWidth (fun a b => (a.val + b.val) % ringSize a.len) rd ra rb s := rfl

theorem exec_sub (rd ra rb : Reg) (s : State) : exec (.sub rd ra rb) s =
    execSameWidth (fun a b => (((a.val : Int) - b.val) % (ringSize a.len : Int)).toNat)
      rd ra rb s := rfl

theorem exec_mul (rd ra rb : Reg) (s : State) : exec (.mul rd ra rb) s =
    execSameWidth (fun a b => a.val * b.val % ringSize a.len) rd ra rb s := rfl

section SameWidth

variable {s : State} {ra rb : Reg} {a b : Wide} (value : Wide → Wide → Nat) (rd : Reg)

theorem execSameWidth_source_none (h : s.reg ra = none ∨ s.reg rb = none) :
    execSameWidth value rd ra rb s = faultedAt s 0x02 rd :=
  commit_two_sources_none h rd _

theorem execSameWidth_of_ne (ha : s.reg ra = some a) (hb : s.reg rb = some b)
    (differ : a.len ≠ b.len) : execSameWidth value rd ra rb s = faultedAt s 0x03 rd := by
  rw [execSameWidth, two_sources_some ha hb, sameWidth_fault differ, error_bind]
  exact commit_fault (by decide) s rd

theorem execSameWidth_of_eq (ha : s.reg ra = some a) (hb : s.reg rb = some b)
    (same : a.len = b.len) :
    execSameWidth value rd ra rb s = wrote s rd a.len (value a b) := by
  rw [execSameWidth, two_sources_some ha hb, sameWidth_ok same, ok_bind]
  exact commit_setReg [rd] s rd a.len (value a b)

end SameWidth

/-! ### Values modulo `2^N` -/

theorem toNat_sub_emod_of_le {a b size : Nat} (ha : a < size) (h : b ≤ a) :
    (((a : Int) - b) % (size : Int)).toNat = a - b := by
  rw [Int.emod_eq_of_lt (by omega) (by omega)]
  omega

/-- A negative difference becomes its representative one modulus up (43_arith.md R163). -/
theorem toNat_sub_emod_of_lt {a b size : Nat} (hb : b < size) (h : a < b) :
    (((a : Int) - b) % (size : Int)).toNat = size + a - b := by
  rw [← Int.add_emod_right, Int.emod_eq_of_lt (by omega) (by omega)]
  omega

theorem one_lt_ringSize {len : Nat} (h : 1 ≤ len) : 1 < ringSize len :=
  Nat.one_lt_two_pow (by omega)

/-- Modulo more than 1 the identity is reduced already, so the exponent 0 is no exception
(43_arith.md R169). -/
theorem squareMultiply_mulMod_of_one_lt {k : Nat} (hk : 1 < k) (base e : Nat) :
    squareMultiply (mulMod k) base e = base ^ e % k := by
  rw [squareMultiply_mulMod]
  split
  case isTrue zero => rw [zero, pow_zero, Nat.mod_eq_of_lt hk]
  case isFalse => rfl

/-! ### How DIV ends -/

theorem commit_fault_two {f : FaultCode} (hf : f ≠ .illegal) (s : State) (rd rc : Reg) :
    commit [rd, rc] s (.error f) =
      .next { s with
        w := (s.w.set rd.val none).set rc.val none, errcode := f.code, phase := .fault } := by
  rw [commit_error, State.takeFault_of_ne s hf]
  rfl

/-! ### The statements -/

/-- Settles O22: the invariant bounds both values by the common width, so the difference modulo `2^N`
is the difference itself or one modulus up. -/
theorem subRule : Obligations.SubRule := by
  intro maxLimbs s rd ra rb inv
  rw [exec_sub]
  refine ⟨(Laws.RoundTrip.sub rd ra rb).decode_encode rfl maxLimbs, execSameWidth_source_none _ rd,
    fun a b ha hb => ⟨execSameWidth_of_ne _ rd ha hb, fun same h => ?above, fun same h => ?below⟩⟩
  case above =>
    obtain ⟨-, -, bound⟩ := inv.regs ra a ha
    rw [execSameWidth_of_eq _ rd ha hb same, toNat_sub_emod_of_le bound h]
  case below =>
    obtain ⟨-, -, bound⟩ := inv.regs rb b hb
    rw [execSameWidth_of_eq _ rd ha hb same, toNat_sub_emod_of_lt (same ▸ bound) h]
    rfl

/-- Settles O24: the sources are checked first, then the divisor; the results are those of Euclidean
division. -/
theorem divRule : Obligations.DivRule := by
  intro maxLimbs s rd ra rb rc distinct
  have command : exec (.div rd ra rb rc) s = execDiv rd ra rb rc s := rfl
  rw [command, execDiv]
  refine ⟨(Laws.RoundTrip.div rd ra rb rc).decode_encode (decide_eq_true distinct) maxLimbs,
    fun unconstructed => ?source, fun a b ha hb => ⟨fun zero => ?zero, fun nonzero =>
      ⟨a.val / b.val, a.val % b.val, Nat.div_add_mod a.val b.val,
        Nat.mod_lt a.val (Nat.pos_of_ne_zero nonzero), ?value⟩⟩⟩
  case source =>
    rw [two_sources_fault unconstructed]
    exact commit_fault_two (by decide) s rd rc
  case zero =>
    rw [two_sources_some ha hb, divisorNonzero_fault zero, error_bind]
    exact commit_fault_two (by decide) s rd rc
  case value =>
    rw [two_sources_some ha hb, divisorNonzero_ok nonzero, ok_bind]
    rfl

/-- Settles O25: the sources are POW's only checks, and by the invariant the base has a limb, so the
modulus is above 1. -/
theorem powRule : Obligations.PowRule := by
  intro maxLimbs s rd ra rb inv
  have command : exec (.pow rd ra rb) s = execPow rd ra rb s := rfl
  refine ⟨(Laws.RoundTrip.pow rd ra rb).decode_encode rfl maxLimbs,
    fun unconstructed => commit_two_sources_none unconstructed rd _, fun a e ha he => ?value⟩
  case value =>
    obtain ⟨limbs, -, -⟩ := inv.regs ra a ha
    rw [command, execPow, two_sources_some ha he,
      squareMultiply_mulMod_of_one_lt (one_lt_ringSize limbs)]
    exact commit_setReg [rd] s rd a.len _

/-- Settles O21: ADD has the common form of two sources of one width. -/
theorem addRule : Obligations.AddRule := by
  intro maxLimbs s rd ra rb
  rw [exec_add]
  exact ⟨(Laws.RoundTrip.add rd ra rb).decode_encode rfl maxLimbs, execSameWidth_source_none _ rd,
    fun a b ha hb => ⟨execSameWidth_of_ne _ rd ha hb, execSameWidth_of_eq _ rd ha hb⟩⟩

/-- Settles O23: MUL has the common form of two sources of one width. -/
theorem mulRule : Obligations.MulRule := by
  intro maxLimbs s rd ra rb
  rw [exec_mul]
  exact ⟨(Laws.RoundTrip.mul rd ra rb).decode_encode rfl maxLimbs, execSameWidth_source_none _ rd,
    fun a b ha hb => ⟨execSameWidth_of_ne _ rd ha hb, execSameWidth_of_eq _ rd ha hb⟩⟩

end Sys2Proof.Machine
end

section
/-! PROOFS. The modular commands of 44_modular.md: MULMOD and POWMOD. -/

namespace Sys2Proof.Machine

open Sys2Proof.Safety Sys2Proof.Spec

/-! ### The common form of the two commands -/

theorem three_sources_some {s : State} {ra rb rc : Reg} {a b c : Wide} (ha : s.reg ra = some a)
    (hb : s.reg rb = some b) (hc : s.reg rc = some c) {β : Type}
    (k : Wide → Wide → Wide → Except FaultCode β) :
    (s.source ra >>= fun a => s.source rb >>= fun b => s.source rc >>= k a b) = k a b c := by
  rw [two_sources_some ha hb, State.source_some hc, ok_bind]

/-- The common form of MULMOD and POWMOD: three sources, a modulus that is not 0 and passes the width
safety check, and a value at the working width (44_modular.md R203, R214). -/
def execModular (safe : Wide → Nat → Except FaultCode Unit) (value : Wide → Wide → Wide → Nat)
    (rd ra rb rc : Reg) (wl : Nat) (s : State) : Host.Outcome State Fault Refusal :=
  commit [rd] s do
    let a ← s.source ra
    let b ← s.source rb
    let m ← s.source rc
    modulusNonzero m
    safe m wl
    return s.setReg rd (some ⟨wl, value a b m⟩)

theorem exec_mulmod (rd ra rb rc : Reg) (wl : Nat) (s : State) : exec (.mulmod rd ra rb rc wl) s =
    execModular mulWidthSafe (fun a b m => a.val * b.val % m.val) rd ra rb rc wl s := rfl

theorem exec_powmod (rd ra rb rc : Reg) (wl : Nat) (s : State) : exec (.powmod rd ra rb rc wl) s =
    execModular powWidthSafe (fun a e m => squareMultiply (mulMod m.val) a.val e.val)
      rd ra rb rc wl s := rfl

section Modular

variable {s : State} {ra rb rc : Reg} {a b m : Wide} {wl : Nat}
  {safe : Wide → Nat → Except FaultCode Unit} (value : Wide → Wide → Wide → Nat) (rd : Reg)

theorem execModular_source_none (h : s.reg ra = none ∨ s.reg rb = none ∨ s.reg rc = none) :
    execModular safe value rd ra rb rc wl s = faultedAt s 0x02 rd := by
  rw [execModular, three_sources_fault h]
  exact commit_fault (by decide) s rd

variable (ha : s.reg ra = some a) (hb : s.reg rb = some b) (hm : s.reg rc = some m)
include ha hb hm

theorem execModular_of_zero (zero : m.val = 0) :
    execModular safe value rd ra rb rc wl s = faultedAt s 0x05 rd := by
  rw [execModular, three_sources_some ha hb hm, modulusNonzero_fault zero, error_bind]
  exact commit_fault (by decide) s rd

theorem execModular_of_unsafe_width (nonzero : m.val ≠ 0)
    (refused : safe m wl = .error .widthSafety) :
    execModular safe value rd ra rb rc wl s = faultedAt s 0x06 rd := by
  rw [execModular, three_sources_some ha hb hm, modulusNonzero_ok nonzero, ok_bind, refused,
    error_bind]
  exact commit_fault (by decide) s rd

theorem execModular_of_safe_width (nonzero : m.val ≠ 0) (passed : safe m wl = .ok ()) :
    execModular safe value rd ra rb rc wl s = wrote s rd wl (value a b m) := by
  rw [execModular, three_sources_some ha hb hm, modulusNonzero_ok nonzero, ok_bind, passed, ok_bind]
  exact commit_setReg [rd] s rd wl (value a b m)

end Modular

/-! ### A remainder fits the working width -/

/-- Either width safety check bounds `m - 1`, the largest remainder, by the size of the ring
(44_modular.md R203). -/
theorem mod_lt_of_pred_lt {m size : Nat} (nonzero : m ≠ 0) (h : m - 1 < size) (x : Nat) :
    x % m < size :=
  (Nat.le_pred_of_lt (Nat.mod_lt x (Nat.pos_of_ne_zero nonzero))).trans_lt h

/-! ### The statements -/

/-- Settles O26: the sources are checked first, then the modulus, then the width; `m - 1` is at most
the `2 (m - 1)` that the last check bounds. -/
theorem mulmodRule : Obligations.MulmodRule := by
  intro maxLimbs s rd ra rb rc wl hmax hwl hle
  rw [exec_mulmod]
  refine ⟨Laws.RoundTrip.mulmod rd ra rb rc wl maxLimbs hmax (legalWl_of_bounds hwl hle),
    execModular_source_none _ rd, fun a b m ha hb hm => ⟨execModular_of_zero _ rd ha hb hm,
      fun nonzero large => ?refused, fun nonzero small => ⟨?value, ?fits⟩⟩⟩
  case refused =>
    exact execModular_of_unsafe_width _ rd ha hb hm nonzero (mulWidthSafe_fault large)
  case value =>
    exact execModular_of_safe_width _ rd ha hb hm nonzero (mulWidthSafe_ok small)
  case fits =>
    have pred_le : m.val - 1 ≤ 2 * (m.val - 1) := Nat.le_mul_of_pos_left _ two_pos
    exact mod_lt_of_pred_lt nonzero (pred_le.trans_lt small) _

/-- Settles O27: the checks are MULMOD's in the same order; square-and-multiply gives 1 for the
exponent 0, whatever the modulus, and the remainder of the power for every other. -/
theorem powmodRule : Obligations.PowmodRule := by
  intro maxLimbs s rd ra rb rc wl hmax hwl hle
  rw [exec_powmod]
  refine ⟨Laws.RoundTrip.powmod rd ra rb rc wl maxLimbs hmax (legalWl_of_bounds hwl hle),
    execModular_source_none _ rd, fun a e m ha he hm => ⟨execModular_of_zero _ rd ha he hm,
      fun nonzero large => ?refused, fun nonzero small => ?value⟩⟩
  case refused =>
    exact execModular_of_unsafe_width _ rd ha he hm nonzero (powWidthSafe_fault large)
  case value =>
    rw [execModular_of_safe_width _ rd ha he hm nonzero (powWidthSafe_ok small),
      squareMultiply_mulMod]
    refine ⟨fun zero => by rw [if_pos zero], fun positive => ⟨by rw [if_neg positive], ?fits⟩⟩
    case fits =>
      have pred_le : m.val - 1 ≤ (m.val - 1) ^ 2 := Nat.le_pow two_pos
      exact mod_lt_of_pred_lt nonzero (pred_le.trans_lt small) _

end Sys2Proof.Machine
end

section
/-! PROOFS. The faults of 60_exceptions.md: what fault entry changes, which fault is raised, and how
the FAULT phase is left. -/

namespace Sys2Proof.Machine

open Sys2Proof.Safety Sys2Proof.Spec

/-! ### Fault entry -/

@[simp] theorem State.takeFault_errcode (s : State) (f : FaultCode) (l : List Reg) :
    (s.takeFault f l).errcode = f.code := by
  cases f <;> rfl

/-- A fault that is not ILLEGAL takes the listed registers away and no other
(60_exceptions.md R232). -/
theorem State.reg_takeFault (s : State) {f : FaultCode} (hf : f ≠ .illegal) (l : List Reg)
    (r : Reg) : (s.takeFault f l).reg r = if r ∈ l then none else s.reg r := by
  rw [State.takeFault_of_ne s hf]
  exact State.reg_clearRegs s l r

/-- The codes of the faults a legal command can raise (60_exceptions.md R231). -/
theorem FaultCode.code_bounds {f : FaultCode} (hf : f ≠ .illegal) :
    2 ≤ f.code.toNat ∧ f.code.toNat ≤ 6 := by
  cases f
  case illegal => exact absurd rfl hf
  all_goals decide

/-- In FAULT with DONE 0, `STATUS` shows FAULT without BUSY, DONE or DREQ (10_state.md R31). -/
theorem State.status_nibble_of_fault {s : State} (hphase : s.phase = .fault)
    (hdone : s.done = false) : s.status.toNat % 16 = 4 := by
  obtain ⟨busy, done, fault, dreq, -⟩ := s.status_fields
  simp only [hphase, hdone, Phase.busy, decide_true, reduceCtorEq, decide_false, Bool.toNat_true,
    Bool.toNat_false] at busy done fault dreq
  omega

/-! ### How a command ends -/

/-- The three ends of a command: a load enters LOAD; or every source is read and the command
completes; or it takes a fault, UNCONSTRUCTED exactly when a source is unconstructed
(60_exceptions.md R230, R233). -/
theorem exec_cases {i : Instr} {s t : State} (h : exec i s = .next t) :
    (∃ rd, sources i = [] ∧ t = s.enterLoad rd) ∨
    (∃ w res rnd drawn, (∀ r ∈ sources i, s.reg r ≠ none) ∧
      t = ({ s with w := w, res := res, rnd := rnd, drawn := drawn } : State).complete) ∨
    ∃ f : FaultCode, f ≠ .illegal ∧ (f = .unconstructed ↔ ∃ r ∈ sources i, s.reg r = none) ∧
      t = s.takeFault f (destinations i) := by
  rcases exec_ends i s with ⟨rd, wl, load, hload⟩ | ⟨r, ends, hend⟩
  · cases hload.symm.trans h
    exact .inl ⟨rd, by rcases load with rfl | rfl <;> rfl, rfl⟩
  · cases ends with
    | fault f legal cause =>
      cases hend.symm.trans h
      exact .inr (.inr ⟨f, legal, cause, rfl⟩)
    | ok w res rnd drawn read =>
      cases hend.symm.trans h
      exact .inr (.inl ⟨w, res, rnd, drawn, read, rfl⟩)

/-- A command leaves `CMDR` and `IMM` (10_state.md R28, R34). -/
theorem exec_keeps_cmdr_imm {i : Instr} {s t : State} (h : exec i s = .next t) :
    t.cmdr = s.cmdr ∧ t.imm = s.imm := by
  rcases exec_cases h with ⟨rd, -, rfl⟩ | ⟨w, res, rnd, drawn, -, rfl⟩ | ⟨f, legal, -, rfl⟩
  · exact ⟨rfl, rfl⟩
  · exact ⟨rfl, rfl⟩
  · rw [State.takeFault_of_ne s legal]
    exact ⟨rfl, rfl⟩

/-- A command that ends in FAULT took a fault, which is not ILLEGAL (60_exceptions.md R232). -/
theorem exec_of_phase_fault {i : Instr} {s t : State} (h : exec i s = .next t)
    (hphase : t.phase = .fault) :
    ∃ f : FaultCode, f ≠ .illegal ∧ t = s.takeFault f (destinations i) := by
  rcases exec_cases h with ⟨rd, -, rfl⟩ | ⟨w, res, rnd, drawn, -, rfl⟩ | ⟨f, legal, -, ht⟩
  · cases hphase
  · cases hphase
  · exact ⟨f, legal, ht⟩

/-! ### Which fault a command raises -/

/-- An unconstructed source comes before every other cause (60_exceptions.md R233). -/
theorem errcode_of_source_none {i : Instr} {s t : State} (h : exec i s = .next t)
    (missing : ∃ r ∈ sources i, s.reg r = none) : t.errcode = 0x02 := by
  rcases exec_cases h with ⟨rd, no_source, -⟩ | ⟨w, res, rnd, drawn, read, -⟩ | ⟨f, -, cause, rfl⟩
  · simp [no_source] at missing
  · obtain ⟨r, hr, hnone⟩ := missing
    exact absurd hnone (read r hr)
  · rw [cause.2 missing]
    exact s.takeFault_errcode .unconstructed (destinations i)

section Checks

variable {s t : State} {dests : List Reg} {ra rb : Reg} {a b : Wide}

/-- A source that is constructed lets the command go on with its value. -/
theorem commit_after_source {k : Wide → Except FaultCode State} (ha : s.reg ra = some a)
    (h : commit dests s (s.source ra >>= k) = .next t) : commit dests s (k a) = .next t := by
  rwa [State.source_some ha] at h

theorem commit_after_two_sources {k : Wide → Wide → Except FaultCode State} (ha : s.reg ra = some a)
    (hb : s.reg rb = some b)
    (h : commit dests s (s.source ra >>= fun a => s.source rb >>= k a) = .next t) :
    commit dests s (k a b) = .next t := by
  rwa [two_sources_some ha hb] at h

variable {x : Except FaultCode Unit} {k : Unit → Except FaultCode State}

/-- A check that passes lets the command go on. -/
theorem commit_after_check (hx : x = .ok ()) (h : commit dests s (x >>= k) = .next t) :
    commit dests s (k ()) = .next t := by
  rwa [hx] at h

/-- A check that faults ends the command with its code. -/
theorem errcode_of_check_fault {f : FaultCode} (hx : x = .error f)
    (h : commit dests s (x >>= k) = .next t) : t.errcode = f.code := by
  rw [hx, error_bind, commit_error] at h
  cases h
  exact s.takeFault_errcode f dests

/-- A command whose checks have all passed keeps the code if the state it computed does. -/
theorem errcode_of_commit_ok {u : State} (h : commit dests s (.ok u) = .next t)
    (kept : u.errcode = s.errcode) : t.errcode = s.errcode := by
  cases h
  exact kept

end Checks

/-! MULMOD and POWMOD with constructed sources, by their two checks (44_modular.md R203, R214). -/

section Modular

variable {s t : State} {rd ra rb rc : Reg} {wl : Nat} {m : Wide}
  {safe : Wide → Nat → Except FaultCode Unit} {value : Wide → Wide → Wide → Nat}
  (h : execModular safe value rd ra rb rc wl s = .next t)
  (constructed : ∀ r ∈ [ra, rb, rc], ∃ a, s.reg r = some a) (hm : s.reg rc = some m)
include h constructed hm

theorem errcode_of_zero_modulus (zero : m.val = 0) : t.errcode = 0x05 := by
  obtain ⟨a, ha⟩ := constructed ra (by simp)
  obtain ⟨b, hb⟩ := constructed rb (by simp)
  cases (execModular_of_zero value rd ha hb hm zero).symm.trans h
  rfl

variable (nonzero : m.val ≠ 0)
include nonzero

theorem errcode_of_unsafe_width (refused : safe m wl = .error .widthSafety) :
    t.errcode = 0x06 := by
  obtain ⟨a, ha⟩ := constructed ra (by simp)
  obtain ⟨b, hb⟩ := constructed rb (by simp)
  cases (execModular_of_unsafe_width value rd ha hb hm nonzero refused).symm.trans h
  rfl

theorem errcode_of_safe_width (passed : safe m wl = .ok ()) : t.errcode = s.errcode := by
  obtain ⟨a, ha⟩ := constructed ra (by simp)
  obtain ⟨b, hb⟩ := constructed rb (by simp)
  cases (execModular_of_safe_width value rd ha hb hm nonzero passed).symm.trans h
  rfl

end Modular

/-! A command's code by the cause that holds, its sources constructed (60_exceptions.md R231). -/

section Causes

variable {s t : State} {i : Instr} (h : exec i s = .next t)
include h

theorem errcode_of_widthsDiffer (differ : widthsDiffer s i) : t.errcode = 0x03 := by
  cases i with
  | cmp ra rb | add rd ra rb | sub rd ra rb | mul rd ra rb =>
    obtain ⟨a, b, ha, hb, ne⟩ := differ
    exact errcode_of_check_fault (sameWidth_fault ne) (commit_after_two_sources ha hb h)
  | _ => exact differ.elim

variable (constructed : ∀ r ∈ sources i, ∃ a, s.reg r = some a)
include constructed

theorem errcode_of_divisorIsZero (zero : divisorIsZero s i) : t.errcode = 0x04 := by
  cases i with
  | div rd ra rb rc =>
    obtain ⟨a, ha⟩ := constructed ra (by simp [sources])
    obtain ⟨b, hb, hzero⟩ := zero
    exact errcode_of_check_fault (divisorNonzero_fault hzero) (commit_after_two_sources ha hb h)
  | _ => exact zero.elim

theorem errcode_of_modulusIsZero (zero : modulusIsZero s i) : t.errcode = 0x05 := by
  cases i with
  | mulmod rd ra rb rc wl | powmod rd ra rb rc wl =>
    obtain ⟨m, hm, hzero⟩ := zero
    exact errcode_of_zero_modulus h constructed hm hzero
  | _ => exact zero.elim

theorem errcode_of_widthUnsafe (narrow : widthUnsafe s i) : t.errcode = 0x06 := by
  cases i with
  | mulmod rd ra rb rc wl =>
    obtain ⟨m, hm, nonzero, large⟩ := narrow
    exact errcode_of_unsafe_width h constructed hm nonzero (mulWidthSafe_fault large)
  | powmod rd ra rb rc wl =>
    obtain ⟨m, hm, nonzero, large⟩ := narrow
    exact errcode_of_unsafe_width h constructed hm nonzero (powWidthSafe_fault large)
  | _ => exact narrow.elim

/-- Without a cause of its own a command with constructed sources raises no fault
(60_exceptions.md R231). -/
theorem errcode_of_no_cause (widths : ¬ widthsDiffer s i) (divisor : ¬ divisorIsZero s i)
    (modulus : ¬ modulusIsZero s i) (width : ¬ widthUnsafe s i) : t.errcode = s.errcode := by
  cases i with
  | ldi rd wl | ldw64 rd wl | ldw32 rd wl =>
    cases h
    rfl
  | ldrnd rd wl =>
    exact errcode_of_commit_ok (dests := [rd]) h
      (by rw [State.setReg_errcode, State.drawLimbs_state])
  | cvt rd ra wl | shl rd ra | shr rd ra | not rd ra
  | iszero ra | isodd ra | eq64 ra | fhb ra | fulc ra =>
    obtain ⟨a, ha⟩ := constructed ra (by simp [sources])
    exact errcode_of_commit_ok (commit_after_source ha h) rfl
  | pow rd ra rb =>
    obtain ⟨a, ha⟩ := constructed ra (by simp [sources])
    obtain ⟨b, hb⟩ := constructed rb (by simp [sources])
    exact errcode_of_commit_ok (commit_after_two_sources ha hb h) rfl
  | cmp ra rb | add rd ra rb | sub rd ra rb | mul rd ra rb =>
    obtain ⟨a, ha⟩ := constructed ra (by simp [sources])
    obtain ⟨b, hb⟩ := constructed rb (by simp [sources])
    have same : a.len = b.len := not_not.1 fun ne => widths ⟨a, b, ha, hb, ne⟩
    have h := commit_after_check (sameWidth_ok same) (commit_after_two_sources ha hb h)
    exact errcode_of_commit_ok h rfl
  | div rd ra rb rc =>
    obtain ⟨a, ha⟩ := constructed ra (by simp [sources])
    obtain ⟨b, hb⟩ := constructed rb (by simp [sources])
    have nonzero : b.val ≠ 0 := fun zero => divisor ⟨b, hb, zero⟩
    have h := commit_after_check (divisorNonzero_ok nonzero) (commit_after_two_sources ha hb h)
    exact errcode_of_commit_ok h rfl
  | mulmod rd ra rb rc wl =>
    obtain ⟨m, hm⟩ := constructed rc (by simp [sources])
    have nonzero : m.val ≠ 0 := fun zero => modulus ⟨m, hm, zero⟩
    have fits := Nat.lt_of_not_le fun large => width ⟨m, hm, nonzero, large⟩
    exact errcode_of_safe_width h constructed hm nonzero (mulWidthSafe_ok fits)
  | powmod rd ra rb rc wl =>
    obtain ⟨m, hm⟩ := constructed rc (by simp [sources])
    have nonzero : m.val ≠ 0 := fun zero => modulus ⟨m, hm, zero⟩
    have fits := Nat.lt_of_not_le fun large => width ⟨m, hm, nonzero, large⟩
    exact errcode_of_safe_width h constructed hm nonzero (powWidthSafe_ok fits)

end Causes

/-! ### The FAULT phase at the port -/

/-- A register that FAULT does not let the host write refuses every write there
(20_memory.md R56). -/
theorem stepWith_write_refused_in_fault {maxLimbs : Nat} {s : State} {off : Offset} {v : Limb}
    {rest : List Move} (r : PortReg) (hr : s.rst = false) (hphase : s.phase = .fault)
    (hp : s.pending = .access (.write off 8 v) :: rest) (ha : off.toNat % 8 = 0)
    (hoff : portReg off.toNat = some r) (hno : r.writePermitted .fault = false) :
    stepWith maxLimbs s = answered s rest .slverr :=
  stepWith_write_refused hr hp ha hoff fun permitted => by
    rw [hphase, hno] at permitted
    cases permitted

/-- An access in FAULT is answered and changes nothing else, or it is the write of 1 to `CTRL`
(20_memory.md R56; 60_exceptions.md R236). -/
theorem present_in_fault (maxLimbs : Nat) {s : State} (hphase : s.phase = .fault) (a : Access) :
    (∃ x, s.present maxLimbs a = s.answer x) ∨
      (a = .write 0x0028 8 1 ∧ s.present maxLimbs a = s.applyReset.answer .okay) := by
  have not_idle : s.phase ≠ .idle := by simp [hphase]
  have not_load : s.phase ≠ .load := by simp [hphase]
  rcases present_cases maxLimbs s a with answer | ⟨-, ⟨v, -, idle, -⟩ | ⟨v, -, idle, -⟩ |
    ⟨v, u, -, load, -⟩ | reset⟩
  · exact .inl answer
  · exact absurd idle not_idle
  · exact absurd idle not_idle
  · exact absurd load not_load
  · exact .inr reset

/-! ### The statements -/

/-- Settles O30: the phase is RUN before, so DONE is 0; a step on an illegal word is the fault
ILLEGAL, and a command that ends in FAULT took a fault of its own. -/
theorem faultIsPrecise : Obligations.FaultIsPrecise := by
  intro maxLimbs s t inv hrun hstep hphase
  have hdone : s.done = false := Bool.eq_false_iff.2 fun done => by
    cases hrun.symm.trans (inv.done done)
  cases hd : decode maxLimbs s.cmdr with
  | error e =>
    cases (engineStep_of_decode_error hrun hd).symm.trans hstep
    exact ⟨State.status_nibble_of_fault rfl hdone, fun _ => rfl, nofun⟩
  | ok i =>
    obtain ⟨f, legal, rfl⟩ :=
      exec_of_phase_fault ((engineStep_of_decode_ok hrun hd).symm.trans hstep) hphase
    have frame := s.takeFault_of_ne legal (destinations i)
    refine ⟨?status, fun illegal => absurd rfl (illegal i), ?command⟩
    case status =>
      exact State.status_nibble_of_fault hphase (by rw [frame]; exact hdone)
    case command =>
      rintro _ ⟨⟩
      obtain ⟨lower, upper⟩ := FaultCode.code_bounds legal
      rw [State.takeFault_errcode]
      refine ⟨lower, upper, by rw [frame], fun r hr => ?_, fun r hr => ?_⟩
      · rw [s.reg_takeFault legal, if_pos hr]
      · rw [s.reg_takeFault legal, if_neg hr]

/-- Settles O31: an illegal word does not decode; a command that decodes raises the fault of the
first cause that holds. -/
theorem faultCausesAndPriority : Obligations.FaultCausesAndPriority := by
  intro maxLimbs s hrun hcode
  cases hd : decode maxLimbs s.cmdr with
  | error e =>
    exact ⟨_, engineStep_of_decode_error hrun hd, rfl, rfl, fun _ => rfl, nofun⟩
  | ok i =>
    obtain ⟨t, h⟩ := exec_next i s
    obtain ⟨cmdr, imm⟩ := exec_keeps_cmdr_imm h
    refine ⟨t, (engineStep_of_decode_ok hrun hd).trans h, cmdr, imm,
      fun illegal => absurd illegal (exists_decode_ok_iff.1 ⟨i, hd⟩), ?_⟩
    rintro _ ⟨⟩
    refine ⟨errcode_of_source_none h, fun read => ?_⟩
    have constructed : ∀ r ∈ sources i, ∃ a, s.reg r = some a := fun r hr =>
      Option.ne_none_iff_exists'.1 (read r hr)
    exact ⟨errcode_of_widthsDiffer h, errcode_of_divisorIsZero h constructed,
      errcode_of_modulusIsZero h constructed, errcode_of_widthUnsafe h constructed,
      fun widths divisor modulus wide =>
        (errcode_of_no_cause h constructed widths divisor modulus wide).trans hcode⟩

/-- Settles O32: of the moves in FAULT only a reset changes the block, and `CMD`, `IMM` and `DIN`
are not writable there. -/
theorem faultIsSticky : Obligations.FaultIsSticky := by
  intro maxLimbs s t hphase hstep
  refine ⟨?left, fun off v rest hoff hr hp => ?refused⟩
  case left =>
    rcases step_cases hstep with ⟨rest, -, engine⟩ | ⟨a, rest, hp, rfl⟩ | ⟨rest, hp, rfl⟩ |
      ⟨rest, -, rfl⟩
    · have not_run : ({ s with pending := rest } : State).phase ≠ .run := by simp [hphase]
      cases (engineStep_of_ne_run not_run).symm.trans engine
      exact .inr rfl
    · rcases present_in_fault maxLimbs (s := { s with pending := rest }) hphase a with
        ⟨x, answer⟩ | ⟨rfl, reset⟩
      · rw [answer]
        exact .inr rfl
      · rw [reset]
        exact .inl ⟨_, rest, hp, .inl rfl, rfl, rfl, State.reg_applyReset s⟩
    · exact .inl ⟨_, rest, hp, .inr rfl, rfl, rfl, State.reg_applyReset s⟩
    · exact .inr rfl
  case refused =>
    have answer : stepWith maxLimbs s = answered s rest .slverr := by
      rcases hoff with rfl | rfl | rfl
      · exact stepWith_write_refused_in_fault .cmd hr hphase hp rfl rfl rfl
      · exact stepWith_write_refused_in_fault .imm hr hphase hp rfl rfl rfl
      · exact stepWith_write_refused_in_fault .din hr hphase hp rfl rfl rfl
    cases answer.symm.trans hstep
    rfl

end Sys2Proof.Machine
end

section
/-! PROOFS. The encoder and the decoder of 30_encoding.md undo each other: a well-formed command is
read back from its word, and a word that decodes is the word of what it decodes to. -/

namespace Sys2Proof

open Sys2Proof.Spec

/-! ### From a command to its word and back -/

/-- The family `Laws.RoundTrip` has a member for every command (30_encoding.md R83). -/
theorem Laws.RoundTrip.statement : ∀ i : Instr, Laws.RoundTrip.Statement i
  | .ldi rd wl => Laws.RoundTrip.ldi rd wl
  | .ldw64 rd wl => Laws.RoundTrip.ldw64 rd wl
  | .ldw32 rd wl => Laws.RoundTrip.ldw32 rd wl
  | .ldrnd rd wl => Laws.RoundTrip.ldrnd rd wl
  | .cvt rd ra wl => Laws.RoundTrip.cvt rd ra wl
  | .iszero ra => Laws.RoundTrip.iszero ra
  | .isodd ra => Laws.RoundTrip.isodd ra
  | .cmp ra rb => Laws.RoundTrip.cmp ra rb
  | .eq64 ra => Laws.RoundTrip.eq64 ra
  | .fhb ra => Laws.RoundTrip.fhb ra
  | .fulc ra => Laws.RoundTrip.fulc ra
  | .shl rd ra => Laws.RoundTrip.shl rd ra
  | .shr rd ra => Laws.RoundTrip.shr rd ra
  | .not rd ra => Laws.RoundTrip.not rd ra
  | .add rd ra rb => Laws.RoundTrip.add rd ra rb
  | .sub rd ra rb => Laws.RoundTrip.sub rd ra rb
  | .mul rd ra rb => Laws.RoundTrip.mul rd ra rb
  | .div rd ra rb rc => Laws.RoundTrip.div rd ra rb rc
  | .pow rd ra rb => Laws.RoundTrip.pow rd ra rb
  | .mulmod rd ra rb rc wl => Laws.RoundTrip.mulmod rd ra rb rc wl
  | .powmod rd ra rb rc wl => Laws.RoundTrip.powmod rd ra rb rc wl

/-! ### From a word to its command and back -/

section Rows

variable {f : Format} {build : Reg → Reg → Reg → Reg → Nat → Instr}

/-- The checks of the decoder are those of well-formedness: the width of the formats that use it,
and the destinations of DIV (30_encoding.md R85, R91). -/
theorem wellFormed_of_row {op maxLimbs wl : Nat} {rd ra rb rc : Reg}
    (hrow : opcodeRow op = some (f, build))
    (hwl : f.usesWl = true → 1 ≤ wl ∧ wl ≤ maxLimbs) (hdiv : op = 0x33 → rd ≠ rc) :
    (build rd ra rb rc wl).wellFormed maxLimbs = true := by
  unfold opcodeRow at hrow
  split at hrow <;> cases hrow
  all_goals simp_all [Instr.wellFormed, legalWl, Format.usesWl]

/-- A row's command is encoded to the fields it was made from, if those its format does not use are
zero (30_encoding.md R82, R87). -/
theorem encode_of_row {c : Word} (hrow : opcodeRow (opField c) = some (f, build))
    (hmask : c &&& f.mask = BitVec.ofNat 32 (opField c * 2 ^ 24)) :
    encode (build (rdField c) (raField c) (rbField c) (rcField c) (wlField c)) =
      packWord (opField c) (rdField c) (raField c) (rbField c) (rcField c) (wlField c) := by
  have unused := (mask_test f c).1 hmask
  clear hmask
  generalize opField c = op at hrow ⊢
  unfold opcodeRow at hrow
  split at hrow <;> cases hrow
  all_goals simp [encode, packWord, unused]

end Rows

/-- A word that decodes holds a well-formed command (30_encoding.md R92). -/
theorem wellFormed_of_decode {maxLimbs : Nat} {c : Word} {i : Instr}
    (h : decode maxLimbs c = .ok i) : i.wellFormed maxLimbs = true := by
  obtain ⟨f, build, hrow, -, hwl, hdiv, rfl⟩ := decode_ok h
  exact wellFormed_of_row hrow hwl hdiv

/-- A word that decodes is the word of its command (30_encoding.md R87). -/
theorem encode_of_decode {maxLimbs : Nat} {c : Word} {i : Instr} (h : decode maxLimbs c = .ok i) :
    encode i = c := by
  obtain ⟨f, build, hrow, hmask, -, -, rfl⟩ := decode_ok h
  rw [encode_of_row hrow hmask, packWord_fields]

/-! ### The statements -/

/-- Settles O2: every command has its round trip. -/
theorem decodeOfEncodedCommand : Obligations.DecodeOfEncodedCommand :=
  fun maxLimbs i => Laws.RoundTrip.statement i maxLimbs

/-- Settles O3: the decoder makes the checks of well-formedness, and finds zero what its command
does not hold. -/
theorem encodeOfDecodedWord : Obligations.EncodeOfDecodedWord :=
  fun _ _ _ h => ⟨wellFormed_of_decode h, encode_of_decode h⟩

/-- Settles O1: each of the twelve words is the encoding of the command beside it. -/
theorem specWordsDecode : Obligations.SpecWordsDecode := by
  have read (i : Instr) (hwf : i.wellFormed 64 = true) : decode 64 (encode i) = .ok i :=
    decodeOfEncodedCommand 64 i (by decide) hwf
  exact ⟨read (.ldi 0 4) rfl, read (.ldw32 2 32) rfl, read (.ldrnd 1 4) rfl, read (.cvt 3 0 32) rfl,
    read (.fhb 5) rfl, read (.eq64 0) rfl, read (.cmp 1 2) rfl, read (.shl 1 0) rfl,
    read (.not 0 0) rfl, read (.add 2 0 1) rfl, read (.div 2 0 1 3) rfl,
    read (.mulmod 3 0 1 2 2) rfl⟩

end Sys2Proof
end

section
/-! PROOFS. The invariant: it holds after reset, and the engine's step, every access and every
change of `rst` keep it. -/

namespace Sys2Proof.Machine

/-! ### The fault codes -/

theorem FaultCode.code_le (f : FaultCode) : f.code.toNat ≤ 6 := by
  cases f <;> decide

theorem FaultCode.code_ne_zero (f : FaultCode) : f.code ≠ 0 := by
  cases f <;> decide

end Sys2Proof.Machine

namespace Sys2Proof.Safety

open Sys2Proof.Machine Sys2Proof.Spec

/-! ### Values in their form -/

/-- A value modulo `2^N` is in its form (00_scope.md R10). -/
theorem wideOk_mod {maxLimbs len : Nat} (hlen : 1 ≤ len) (hmax : len ≤ maxLimbs) (v : Nat) :
    WideOk maxLimbs ⟨len, v % ringSize len⟩ :=
  ⟨hlen, hmax, Nat.mod_lt v (ringSize_pos len)⟩

/-- What is at most a register's value is in its form at the register's width. -/
theorem WideOk.of_le {maxLimbs v : Nat} {a : Wide} (ha : WideOk maxLimbs a) (h : v ≤ a.val) :
    WideOk maxLimbs ⟨a.len, v⟩ := by
  obtain ⟨hlen, hmax, hval⟩ := ha
  exact ⟨hlen, hmax, h.trans_lt hval⟩

/-- A literal is one limb long, so every width holds it (40_construct.md R101). -/
theorem limb_lt_ringSize (v : Limb) {len : Nat} (hlen : 1 ≤ len) : v.toNat < ringSize len :=
  v.isLt.trans_le (Nat.pow_le_pow_right two_pos (by omega))

/-- The value of a list of limbs is in its form at the length of the list (40_construct.md R102). -/
theorem wideOk_limbsVal {maxLimbs len : Nat} {ls : List Limb} (hlen : 1 ≤ len)
    (hmax : len ≤ maxLimbs) (h : ls.length = len) : WideOk maxLimbs ⟨len, limbsVal ls⟩ :=
  ⟨hlen, hmax, h ▸ limbsVal_lt ls⟩

/-- The exact difference modulo `2^N` is below `2^N` (43_arith.md R163). -/
theorem toNat_emod_lt_ringSize (d : Int) (len : Nat) :
    (d % (ringSize len : Int)).toNat < ringSize len := by
  have size : (0 : Int) < ringSize len := by exact_mod_cast ringSize_pos len
  have upper := Int.emod_lt_of_pos d size
  have lower := Int.emod_nonneg d size.ne'
  omega

/-- POWMOD's result, the identity or a remainder, fits the working width (44_modular.md R203, R213).
-/
theorem squareMultiply_lt_ringSize {m wl base e : Nat} (hwl : 1 ≤ wl) (nonzero : m ≠ 0)
    (fits : (m - 1) ^ 2 < ringSize wl) : squareMultiply (mulMod m) base e < ringSize wl := by
  rw [squareMultiply_mulMod]
  split
  case isTrue => exact one_lt_ringSize hwl
  case isFalse => exact mod_lt_of_pred_lt nonzero ((Nat.le_pow two_pos).trans_lt fits) _

theorem wideOk_shlValue {maxLimbs : Nat} {a : Wide} (ha : WideOk maxLimbs a) (k : Nat) :
    WideOk maxLimbs ⟨a.len, shlValue a k⟩ := by
  obtain ⟨hlen, hmax, -⟩ := ha
  rw [shlValue_eq]
  exact wideOk_mod hlen hmax _

theorem wideOk_shrValue {maxLimbs : Nat} {a : Wide} (ha : WideOk maxLimbs a) (k : Nat) :
    WideOk maxLimbs ⟨a.len, shrValue a k⟩ := by
  have ⟨_, _, hval⟩ := ha
  rw [shrValue_eq hval]
  exact ha.of_le (Nat.div_le_self _ _)

/-! ### Commands keep the registers in their form -/

section Commands

variable {maxLimbs : Nat} {s t : State} (regs : RegsOk maxLimbs s)

include regs in
/-- A command that faults makes no value, so what it computes decides (60_exceptions.md R232). -/
theorem RegsOk.commit {dests : List Reg} {r : Except FaultCode State}
    (h : commit dests s r = .next t) (hr : ∀ u, r = .ok u → RegsOk maxLimbs u) :
    RegsOk maxLimbs t := by
  rcases commit_next h with ⟨u, hu, rfl⟩ | ⟨f, -, rfl⟩
  · exact hr u hu
  · exact regs.takeFault f dests

include regs in
/-- A command with one source and one wide destination. -/
theorem RegsOk.commit_one {rd ra : Reg} {value : Wide → Wide}
    (h : Machine.commit [rd] s (s.source ra >>= fun a => .ok (s.setReg rd (some (value a)))) =
      .next t)
    (ok : ∀ a, WideOk maxLimbs a → WideOk maxLimbs (value a)) : RegsOk maxLimbs t := by
  refine regs.commit h fun u hu => ?_
  obtain ⟨a, ha, hu⟩ := bind_ok hu
  cases hu
  exact regs.setReg rd (ok a (regs ra a (reg_of_source ha)))

include regs in
/-- ADD, SUB and MUL write a value below `2^N` at the width of their sources (43_arith.md R173). -/
theorem RegsOk.execSameWidth {value : Wide → Wide → Nat} {rd ra rb : Reg}
    (h : Machine.execSameWidth value rd ra rb s = .next t)
    (below : ∀ a b, value a b < ringSize a.len) : RegsOk maxLimbs t := by
  refine regs.commit h fun u hu => ?_
  obtain ⟨a, ha, hu⟩ := bind_ok hu
  obtain ⟨b, -, hu⟩ := bind_ok hu
  obtain ⟨-, -, hu⟩ := bind_ok hu
  cases hu
  obtain ⟨hlen, hmax, -⟩ := regs ra a (reg_of_source ha)
  exact regs.setReg rd ⟨hlen, hmax, below a b⟩

include regs in
/-- MULMOD and POWMOD write a value that their checks bound by the working width
(44_modular.md R203). -/
theorem RegsOk.execModular {safe : Wide → Nat → Except FaultCode Unit}
    {value : Wide → Wide → Wide → Nat} {rd ra rb rc : Reg} {wl : Nat}
    (hwl : 1 ≤ wl) (hmax : wl ≤ maxLimbs)
    (h : Machine.execModular safe value rd ra rb rc wl s = .next t)
    (below : ∀ a b m, m.val ≠ 0 → safe m wl = .ok () → value a b m < ringSize wl) :
    RegsOk maxLimbs t := by
  refine regs.commit h fun u hu => ?_
  obtain ⟨a, -, hu⟩ := bind_ok hu
  obtain ⟨b, -, hu⟩ := bind_ok hu
  obtain ⟨m, -, hu⟩ := bind_ok hu
  obtain ⟨_, nonzero, hu⟩ := bind_ok hu
  obtain ⟨_, passed, hu⟩ := bind_ok hu
  cases hu
  exact regs.setReg rd ⟨hwl, hmax, below a b m (of_decide_eq_true (of_require nonzero)) passed⟩

include regs in
/-- Every well-formed command keeps the registers in their form (10_state.md R21). -/
theorem RegsOk.exec {i : Instr} (hwf : i.wellFormed maxLimbs = true) (h : exec i s = .next t) :
    RegsOk maxLimbs t := by
  cases i with
  | ldi rd wl =>
    obtain ⟨hwl, hmax⟩ := Laws.RoundTrip.wl_bounds hwf
    cases h
    exact regs.setReg rd ⟨hwl, hmax, limb_lt_ringSize s.imm hwl⟩
  | ldw64 rd wl | ldw32 rd wl =>
    cases h
    exact regs.clearRegs [rd]
  | ldrnd rd wl =>
    obtain ⟨hwl, hmax⟩ := Laws.RoundTrip.wl_bounds hwf
    cases h
    have words : (s.drawLimbs wl).1.length = wl := by
      rw [State.drawLimbs_words, List.length_map, List.length_range]
    have drawn : RegsOk maxLimbs (s.drawLimbs wl).2 := by
      rw [State.drawLimbs_state]
      exact regs
    exact drawn.setReg rd (wideOk_limbsVal hwl hmax words)
  | cvt rd ra wl =>
    obtain ⟨hwl, hmax⟩ := Laws.RoundTrip.wl_bounds hwf
    exact regs.commit_one (value := fun a => ⟨wl, a.val % ringSize wl⟩) h
      fun a _ => wideOk_mod hwl hmax a.val
  | iszero ra | isodd ra | eq64 ra | fhb ra | fulc ra =>
    refine regs.commit h fun u hu => ?_
    obtain ⟨a, -, hu⟩ := bind_ok hu
    cases hu
    exact regs
  | cmp ra rb =>
    refine regs.commit h fun u hu => ?_
    obtain ⟨a, -, hu⟩ := bind_ok hu
    obtain ⟨b, -, hu⟩ := bind_ok hu
    obtain ⟨-, -, hu⟩ := bind_ok hu
    cases hu
    exact regs
  | shl rd ra =>
    exact regs.commit_one (value := fun a => ⟨a.len, shlValue a s.scalar⟩) h
      fun a ha => wideOk_shlValue ha s.scalar
  | shr rd ra =>
    exact regs.commit_one (value := fun a => ⟨a.len, shrValue a s.scalar⟩) h
      fun a ha => wideOk_shrValue ha s.scalar
  | not rd ra =>
    refine regs.commit_one (value := fun a => ⟨a.len, ringSize a.len - 1 - a.val⟩) h
      fun a ha => ?_
    obtain ⟨hlen, hmax, -⟩ := ha
    have := ringSize_pos a.len
    exact ⟨hlen, hmax, by dsimp only; omega⟩
  | add rd ra rb =>
    exact regs.execSameWidth ((exec_add rd ra rb s).symm.trans h)
      fun a b => Nat.mod_lt _ (ringSize_pos a.len)
  | sub rd ra rb =>
    exact regs.execSameWidth ((exec_sub rd ra rb s).symm.trans h)
      fun a b => toNat_emod_lt_ringSize _ a.len
  | mul rd ra rb =>
    exact regs.execSameWidth ((exec_mul rd ra rb s).symm.trans h)
      fun a b => Nat.mod_lt _ (ringSize_pos a.len)
  | div rd ra rb rc =>
    refine regs.commit h fun u hu => ?_
    obtain ⟨a, ha, hu⟩ := bind_ok hu
    obtain ⟨b, -, hu⟩ := bind_ok hu
    obtain ⟨-, -, hu⟩ := bind_ok hu
    cases hu
    have ok := regs ra a (reg_of_source ha)
    exact (regs.setReg rd (ok.of_le (Nat.div_le_self a.val b.val))).setReg rc
      (ok.of_le (Nat.mod_le a.val b.val))
  | pow rd ra rb =>
    refine regs.commit h fun u hu => ?_
    obtain ⟨a, ha, hu⟩ := bind_ok hu
    obtain ⟨e, -, hu⟩ := bind_ok hu
    cases hu
    obtain ⟨hlen, hmax, -⟩ := regs ra a (reg_of_source ha)
    rw [squareMultiply_mulMod_of_one_lt (one_lt_ringSize hlen)]
    exact regs.setReg rd (wideOk_mod hlen hmax _)
  | mulmod rd ra rb rc wl =>
    obtain ⟨hwl, hmax⟩ := Laws.RoundTrip.wl_bounds hwf
    refine regs.execModular hwl hmax ((exec_mulmod rd ra rb rc wl s).symm.trans h)
      fun a b m nonzero passed => ?_
    have fits := of_decide_eq_true (of_require passed)
    exact mod_lt_of_pred_lt nonzero ((Nat.le_mul_of_pos_left _ two_pos).trans_lt fits) _
  | powmod rd ra rb rc wl =>
    obtain ⟨hwl, hmax⟩ := Laws.RoundTrip.wl_bounds hwf
    exact regs.execModular hwl hmax ((exec_powmod rd ra rb rc wl s).symm.trans h)
      fun a b m nonzero passed =>
        squareMultiply_lt_ringSize hwl nonzero (of_decide_eq_true (of_require passed))

end Commands

/-! ### The load in progress, beat by beat -/

section Loads

variable {s : State} {rd : Reg} {wl : Nat}

/-- Entry to LOAD begins a load without a beat (40_construct.md R102, R103). -/
theorem loadOk_enterLoad (s : State) (rd : Reg) {parts : Nat} (hparts : 0 < parts) (hwl : 1 ≤ wl) :
    LoadOk (s.enterLoad rd) rd wl parts := by
  refine ⟨s.reg_setReg_same rd none, Nat.mul_pos hparts hwl, ?_⟩
  have none_yet : (0 + parts - 1) / parts = 0 := Nat.div_eq_of_lt (by omega)
  exact none_yet.symm

/-- A beat of LDW64 that is not the last has one limb more (40_construct.md R102). -/
theorem LoadOk.next64 (ok : LoadOk s rd wl 1) (hw : wl ≤ 255) (more : s.lcnt.toNat + 1 ≠ wl)
    (v : Limb) : LoadOk { s with lbuf := s.lbuf ++ [v], lcnt := s.lcnt + 1 } rd wl 1 := by
  obtain ⟨unconstructed, below, held⟩ := ok
  have count : (s.lcnt + 1).toNat = s.lcnt.toNat + 1 := lcnt_succ (by omega)
  refine ⟨unconstructed, ?_, ?_⟩ <;> dsimp only
  · omega
  · rw [List.length_append, List.length_singleton]
    omega

/-- The first beat of a pair of LDW32 begins a limb (40_construct.md R103). -/
theorem LoadOk.begin32 (ok : LoadOk s rd wl 2) (hw : wl ≤ 255) (even : s.lcnt.toNat % 2 = 0)
    (v : Limb) : LoadOk { s with lbuf := s.lbuf ++ [v], lcnt := s.lcnt + 1 } rd wl 2 := by
  obtain ⟨unconstructed, below, held⟩ := ok
  have count : (s.lcnt + 1).toNat = s.lcnt.toNat + 1 := lcnt_succ (by omega)
  refine ⟨unconstructed, ?_, ?_⟩ <;> dsimp only
  · omega
  · rw [List.length_append, List.length_singleton]
    omega

/-- The second beat of a pair of LDW32 that is not the last completes the limb begun
(40_construct.md R103). -/
theorem LoadOk.finish32 {buf : List Limb} (ok : LoadOk s rd wl 2) (hw : wl ≤ 255)
    (odd : s.lcnt.toNat % 2 = 1) (more : s.lcnt.toNat + 1 ≠ 2 * wl)
    (same : buf.length = s.lbuf.length) :
    LoadOk { s with lbuf := buf, lcnt := s.lcnt + 1 } rd wl 2 := by
  obtain ⟨unconstructed, below, held⟩ := ok
  have count : (s.lcnt + 1).toNat = s.lcnt.toNat + 1 := lcnt_succ (by omega)
  refine ⟨unconstructed, ?_, ?_⟩ <;> dsimp only
  · omega
  · omega

end Loads

/-! ### What the invariant says of the states a step starts from -/

section Inv

variable {maxLimbs : Nat} {s t : State}

/-- The invariant is about the block and the level of `rst` (00_scope.md R14). -/
theorem Inv.of_block_eq (inv : Inv maxLimbs s) (hblock : t.toBlock = s.toBlock)
    (hrst : t.rst = s.rst) : Inv maxLimbs t := by
  obtain ⟨block, rst, rnd, drawn, pending, answers⟩ := s
  obtain ⟨block', rst', rnd', drawn', pending', answers'⟩ := t
  dsimp only at hblock hrst
  subst hblock hrst
  obtain ⟨regs, codes, fault, done, load, noLoad, held⟩ := inv
  refine ⟨regs, codes, fault, done, load, noLoad, fun asserted => ?_⟩
  have reset : Block.reset = block' := congrArg State.toBlock (held asserted)
  rw [InReset, State.applyReset, reset]

/-- Every reset state meets the invariant (10_state.md R42). -/
theorem Inv.applyReset (maxLimbs : Nat) (s : State) : Inv maxLimbs s.applyReset where
  regs := RegsOk.applyReset maxLimbs s
  codes := Nat.zero_le 6
  fault := ⟨nofun, fun recorded => absurd rfl recorded⟩
  done := nofun
  load := nofun
  noLoad _ := ⟨rfl, rfl⟩
  held _ := rfl

/-- Asserting `rst` makes the reset state the block's (70_reset_and_hazards.md R260). -/
theorem Inv.assertRst (maxLimbs : Nat) (s : State) :
    Inv maxLimbs { s.applyReset with rst := true } where
  __ := Inv.applyReset maxLimbs s
  held _ := rfl

variable (inv : Inv maxLimbs s)
include inv

/-- The block leaves IDLE only while `rst` is released (70_reset_and_hazards.md R260). -/
theorem Inv.rst_of_ne_idle (h : s.phase ≠ .idle) : s.rst = false :=
  Bool.eq_false_iff.2 fun asserted =>
    h (congrArg (fun u : State => u.phase) (inv.held asserted)).symm

/-- Outside IDLE no command is complete (10_state.md R31). -/
theorem Inv.done_of_ne_idle (h : s.phase ≠ .idle) : s.done = false :=
  Bool.eq_false_iff.2 fun done => h (inv.done done)

/-- Outside FAULT no fault is recorded (10_state.md R31). -/
theorem Inv.errcode_of_ne_fault (h : s.phase ≠ .fault) : s.errcode = 0 :=
  not_not.1 (mt inv.fault.2 h)

/-! ### The engine's step keeps the invariant -/

/-- A completion keeps the invariant if its registers are in their form (60_exceptions.md R230). -/
theorem Inv.complete {w : Vector (Option Wide) 16} {res : Limb} {rnd : List Limb} {drawn : Nat}
    (hrun : s.phase = .run)
    (regs : RegsOk maxLimbs
      ({ s with w := w, res := res, rnd := rnd, drawn := drawn } : State).complete) :
    Inv maxLimbs ({ s with w := w, res := res, rnd := rnd, drawn := drawn } : State).complete := by
  have code := inv.errcode_of_ne_fault (by simp [hrun])
  have released := inv.rst_of_ne_idle (by simp [hrun])
  exact {
    regs
    codes := inv.codes
    fault := ⟨nofun, fun recorded => absurd code recorded⟩
    done := fun _ => rfl
    load := nofun
    noLoad := fun _ => inv.noLoad (by simp [hrun])
    held := fun asserted => absurd (released.symm.trans asserted) (by decide) }

/-- Fault entry keeps the invariant (60_exceptions.md R232). -/
theorem Inv.takeFault (hrun : s.phase = .run) (f : FaultCode) (l : List Reg) :
    Inv maxLimbs (s.takeFault f l) := by
  have regs : RegsOk maxLimbs (s.takeFault f l) := RegsOk.takeFault inv.regs f l
  have frame : s.takeFault f l = { s with
      w := (s.takeFault f l).w, errcode := f.code, phase := .fault } := by
    by_cases hf : f = .illegal
    · rw [hf, s.takeFault_illegal]
      rfl
    · rw [s.takeFault_of_ne hf]
  rw [frame] at regs ⊢
  have done := inv.done_of_ne_idle (by simp [hrun])
  have released := inv.rst_of_ne_idle (by simp [hrun])
  exact {
    regs
    codes := f.code_le
    fault := ⟨fun _ => f.code_ne_zero, fun _ => rfl⟩
    done := fun set => absurd (done.symm.trans set) (by decide)
    load := nofun
    noLoad := fun _ => inv.noLoad (by simp [hrun])
    held := fun asserted => absurd (released.symm.trans asserted) (by decide) }

/-- Entry to LOAD keeps the invariant: no beat has come (40_construct.md R102, R103). -/
theorem Inv.enterLoad {i : Instr} {rd : Reg} {wl : Nat} (hrun : s.phase = .run)
    (hd : decode maxLimbs s.cmdr = .ok i) (hi : i = .ldw64 rd wl ∨ i = .ldw32 rd wl) :
    Inv maxLimbs (s.enterLoad rd) := by
  have code := inv.errcode_of_ne_fault (by simp [hrun])
  have done := inv.done_of_ne_idle (by simp [hrun])
  have released := inv.rst_of_ne_idle (by simp [hrun])
  have width : 1 ≤ wl := by
    have hwf := wellFormed_of_decode hd
    rcases hi with rfl | rfl <;> exact (Laws.RoundTrip.wl_bounds hwf).1
  have begun : Loading maxLimbs (s.enterLoad rd) := by
    rcases hi with rfl | rfl
    · exact .inl ⟨rd, wl, hd, loadOk_enterLoad s rd Nat.one_pos width⟩
    · exact .inr ⟨rd, wl, hd, loadOk_enterLoad s rd Nat.two_pos width⟩
  exact {
    regs := RegsOk.clearRegs inv.regs [rd]
    codes := inv.codes
    fault := ⟨nofun, fun recorded => absurd code recorded⟩
    done := fun set => absurd (done.symm.trans set) (by decide)
    load := fun _ => begun
    noLoad := fun away => absurd rfl away
    held := fun asserted => absurd (released.symm.trans asserted) (by decide) }

/-- The command in `CMDR` keeps the invariant (60_exceptions.md R230). -/
theorem Inv.exec {i : Instr} (hrun : s.phase = .run) (hd : decode maxLimbs s.cmdr = .ok i)
    (h : exec i s = .next t) : Inv maxLimbs t := by
  have regs : RegsOk maxLimbs t := RegsOk.exec inv.regs (wellFormed_of_decode hd) h
  rcases exec_ends i s with ⟨rd, wl, hi, hload⟩ | ⟨r, ends, hend⟩
  · cases hload.symm.trans h
    exact inv.enterLoad hrun hd hi
  · cases ends with
    | fault f legal cause =>
      cases hend.symm.trans h
      exact inv.takeFault hrun f _
    | ok w res rnd drawn =>
      cases hend.symm.trans h
      exact inv.complete hrun regs

/-- The engine's step keeps the invariant (20_memory.md R68). -/
theorem Inv.engineStep (h : s.engineStep maxLimbs = .next t) : Inv maxLimbs t := by
  by_cases hrun : s.phase = .run
  case neg =>
    cases (engineStep_of_ne_run hrun).symm.trans h
    exact inv
  case pos =>
    cases hd : decode maxLimbs s.cmdr with
    | ok i => exact inv.exec hrun hd ((engineStep_of_decode_ok hrun hd).symm.trans h)
    | error e =>
      cases (engineStep_of_decode_error hrun hd).symm.trans h
      exact inv.takeFault hrun .illegal []

/-! ### A beat keeps the invariant -/

/-- A beat that is not the last keeps the load in progress (10_state.md R38). -/
theorem Inv.beat {buf : List Limb} (hload : s.phase = .load)
    (loading : Loading maxLimbs { s with lbuf := buf, lcnt := s.lcnt + 1 }) :
    Inv maxLimbs { s with lbuf := buf, lcnt := s.lcnt + 1 } where
  regs := inv.regs
  codes := inv.codes
  fault := inv.fault
  done := inv.done
  load _ := loading
  noLoad away := absurd hload away
  held asserted := absurd ((inv.rst_of_ne_idle (by simp [hload])).symm.trans asserted) (by decide)

/-- The last beat of a load keeps the invariant: the value has the limb count of its width
(40_construct.md R102, R103). -/
theorem Inv.lastBeat {rd : Reg} {wl : Nat} {ls : List Limb} (hload : s.phase = .load)
    (hwl : 1 ≤ wl) (hmax : wl ≤ maxLimbs) (hlen : ls.length = wl) :
    Inv maxLimbs { s with
      w := s.w.set rd.val (some ⟨wl, limbsVal ls⟩)
      lbuf := [], lcnt := 0, phase := .idle, done := true } where
  regs := RegsOk.setReg inv.regs rd (wideOk_limbsVal hwl hmax hlen)
  codes := inv.codes
  fault := ⟨nofun, fun recorded =>
    absurd (inv.errcode_of_ne_fault (by simp [hload])) recorded⟩
  done _ := rfl
  load := nofun
  noLoad _ := ⟨rfl, rfl⟩
  held asserted := absurd ((inv.rst_of_ne_idle (by simp [hload])).symm.trans asserted) (by decide)

/-- A beat of LDW64 keeps the invariant (40_construct.md R102). -/
theorem Inv.beat64 {rd : Reg} {wl : Nat} (hmax : maxLimbs ≤ 255) (hload : s.phase = .load)
    (hd : decode maxLimbs s.cmdr = .ok (.ldw64 rd wl)) (v : Limb) :
    Inv maxLimbs (s.beat64 rd wl v) := by
  obtain ⟨hwl, hle⟩ := Laws.RoundTrip.wl_bounds (wellFormed_of_decode hd)
  have ok := inv.loadOk_of_ldw64 hload hd
  rw [beat64_eq ok (hle.trans hmax)]
  split
  case isTrue last => exact inv.lastBeat hload hwl hle (ok.length_append_of_last last v)
  case isFalse more =>
    exact inv.beat hload (.inl ⟨rd, wl, hd, ok.next64 (hle.trans hmax) more v⟩)

/-- A beat of LDW32 keeps the invariant (40_construct.md R103). -/
theorem Inv.beat32 {rd : Reg} {wl : Nat} (hmax : maxLimbs ≤ 255) (hload : s.phase = .load)
    (hd : decode maxLimbs s.cmdr = .ok (.ldw32 rd wl)) (v : Limb) :
    Inv maxLimbs (s.beat32 rd wl v) := by
  obtain ⟨hwl, hle⟩ := Laws.RoundTrip.wl_bounds (wellFormed_of_decode hd)
  have ok := inv.loadOk_of_ldw32 hload hd
  rcases Nat.mod_two_eq_zero_or_one s.lcnt.toNat with even | odd
  · rw [beat32_even ok (hle.trans hmax) v even]
    exact inv.beat hload (.inr ⟨rd, wl, hd, ok.begin32 (hle.trans hmax) even _⟩)
  · obtain ⟨buf, l, hbuf, beat⟩ := beat32_odd ok (hle.trans hmax) v odd
    have same : (buf ++ [l ||| v]).length = s.lbuf.length := by
      rw [hbuf, List.length_append, List.length_append, List.length_singleton,
        List.length_singleton]
    rw [beat]
    split
    case isTrue last => exact inv.lastBeat hload hwl hle (same.trans (ok.length_of_last last))
    case isFalse more =>
      exact inv.beat hload (.inr ⟨rd, wl, hd, ok.finish32 (hle.trans hmax) odd more same⟩)

/-- A `DIN` write in LOAD keeps the invariant (20_memory.md R61). -/
theorem Inv.writeDin {v : Limb} (hmax : maxLimbs ≤ 255) (hload : s.phase = .load)
    (h : s.writeDin maxLimbs v = some t) : Inv maxLimbs t := by
  unfold State.writeDin at h
  split at h
  case h_1 rd wl hd =>
    cases h
    exact inv.beat64 hmax hload hd v
  case h_2 rd wl hd =>
    split at h
    · cases h
      exact inv.beat32 hmax hload hd v
    · cases h
  case h_3 => cases h

/-! ### The host's moves keep the invariant -/

/-- An accepted command word keeps the invariant: the phase was IDLE (20_memory.md R62). -/
theorem Inv.accept (hidle : s.phase = .idle) (released : s.rst = false) (c : Word) :
    Inv maxLimbs (s.accept c) where
  regs := inv.regs
  codes := inv.codes
  fault := ⟨nofun, fun recorded =>
    absurd (inv.errcode_of_ne_fault (by simp [hidle])) recorded⟩
  done := nofun
  load := nofun
  noLoad _ := inv.noLoad (by simp [hidle])
  held asserted := absurd (released.symm.trans asserted) (by decide)

/-- A write to `IMM` keeps the invariant (20_memory.md R63). -/
theorem Inv.setImm (released : s.rst = false) (v : Limb) : Inv maxLimbs { s with imm := v } where
  regs := inv.regs
  codes := inv.codes
  fault := inv.fault
  done := inv.done
  load := inv.load
  noLoad := inv.noLoad
  held asserted := absurd (released.symm.trans asserted) (by decide)

/-- What the port has answered is no part of the block (log 9). -/
theorem Inv.answer (a : Answer) : Inv maxLimbs (s.answer a) :=
  inv.of_block_eq rfl rfl

/-- Every access keeps the invariant (20_memory.md R52, R53). -/
theorem Inv.present (hmax : maxLimbs ≤ 255) (a : Access) : Inv maxLimbs (s.present maxLimbs a) := by
  rcases present_cases maxLimbs s a with ⟨x, answer⟩ | ⟨released, ⟨v, -, idle, -, answer⟩ |
    ⟨v, -, -, answer⟩ | ⟨v, u, -, load, beat, answer⟩ | ⟨-, answer⟩⟩
  all_goals rw [answer]
  · exact inv.answer x
  · exact (inv.accept idle released _).answer .okay
  · exact (inv.setImm released v).answer .okay
  · exact (inv.writeDin hmax load beat).answer .okay
  · exact (Inv.applyReset maxLimbs s).answer .okay

/-- Releasing `rst` keeps the invariant (70_reset_and_hazards.md R260). -/
theorem Inv.releaseRst : Inv maxLimbs { s with rst := false } where
  regs := inv.regs
  codes := inv.codes
  fault := inv.fault
  done := inv.done
  load := inv.load
  noLoad := inv.noLoad
  held := nofun

end Inv

/-! ### The statements -/

/-- Settles O46: the state after reset is its own reset. -/
theorem resetMeetsTheInvariant : Obligations.ResetMeetsTheInvariant :=
  fun maxLimbs => Inv.applyReset maxLimbs State.reset

/-- Settles O47: a step is the engine's, an access, or a change of the level of `rst`, and each
keeps the invariant. -/
theorem stepKeepsTheInvariant : Obligations.StepKeepsTheInvariant := by
  intro maxLimbs s t hmax inv hstep
  have unlisted (rest : List Move) : Inv maxLimbs { s with pending := rest } :=
    inv.of_block_eq rfl rfl
  rcases step_cases hstep with ⟨rest, -, engine⟩ | ⟨a, rest, -, rfl⟩ | ⟨rest, -, rfl⟩ |
    ⟨rest, -, rfl⟩
  · exact (unlisted rest).engineStep engine
  · exact (unlisted rest).present hmax a
  · exact Inv.assertRst maxLimbs { s with pending := rest }
  · exact (unlisted rest).releaseRst

end Sys2Proof.Safety
end

section
/-! PROOFS. The port of 20_memory.md as a whole: which accesses are answered with data or `OKAY`,
what an access can show and change, and what a reset leaves behind. -/

namespace Sys2Proof.Machine

open Sys2Proof.Safety Sys2Proof.Spec

/-! ### An access as a step -/

/-- A write that the port takes (20_memory.md R53). -/
theorem stepWith_write_okay {maxLimbs n : Nat} {s t : State} {off : Offset} {v : Limb}
    {rest : List Move} (hr : s.rst = false) (hp : s.pending = .access (.write off n v) :: rest)
    (h : ({ s with pending := rest } : State).busWrite maxLimbs off n v = some t) :
    stepWith maxLimbs s = .next (t.answer .okay) := by
  rw [stepWith_access hp, present_write (s := { s with pending := rest }) hr, h]

/-- A write that the port refuses changes nothing (20_memory.md R53, R54). -/
theorem stepWith_write_slverr {maxLimbs n : Nat} {s : State} {off : Offset} {v : Limb}
    {rest : List Move} (hr : s.rst = false) (hp : s.pending = .access (.write off n v) :: rest)
    (h : ({ s with pending := rest } : State).busWrite maxLimbs off n v = none) :
    stepWith maxLimbs s = answered s rest .slverr := by
  rw [stepWith_access hp, present_write (s := { s with pending := rest }) hr, h]
  rfl

/-- A read that the port refuses (20_memory.md R52). -/
theorem stepWith_read_slverr {maxLimbs n : Nat} {s : State} {off : Offset} {rest : List Move}
    (hr : s.rst = false) (hp : s.pending = .access (.read off n) :: rest)
    (h : s.busRead maxLimbs off n = none) : stepWith maxLimbs s = answered s rest .slverr := by
  rw [stepWith_read hr hp, h, Option.elim_none]

/-- An access while `rst` is asserted is left unanswered (70_reset_and_hazards.md R260). -/
theorem stepWith_unanswered {maxLimbs : Nat} {s : State} {a : Access} {rest : List Move}
    (hr : s.rst = true) (hp : s.pending = .access a :: rest) :
    stepWith maxLimbs s = answered s rest .unanswered := by
  rw [stepWith_access hp, present_rst (s := { s with pending := rest }) a hr]
  rfl

/-! ### Misshapen accesses -/

theorem legalAccess_eq_false {off : Offset} {n : Nat} (h : n ≠ 8 ∨ off.toNat % 8 ≠ 0) :
    legalAccess off n = false :=
  decide_eq_false (not_and_or.2 h)

theorem State.busRead_misshapen (maxLimbs : Nat) (s : State) {off : Offset} {n : Nat}
    (h : n ≠ 8 ∨ off.toNat % 8 ≠ 0) : s.busRead maxLimbs off n = none := by
  rw [State.busRead, legalAccess_eq_false h]
  rfl

theorem State.busWrite_misshapen (maxLimbs : Nat) (s : State) {off : Offset} {n : Nat}
    (h : n ≠ 8 ∨ off.toNat % 8 ≠ 0) (v : Limb) : s.busWrite maxLimbs off n v = none := by
  rw [State.busWrite, legalAccess_eq_false h]
  rfl

/-! ### Which reads are answered with data -/

/-- The reads the port answers with data, by offset, phase and register (20_memory.md R55, R56,
R58). -/
def readGranted (s : State) (off : Offset) : Prop :=
  off.toNat = 0x10 ∨ off.toNat = 0x30 ∨ off.toNat = 0x38 ∨
    ((s.phase = .idle ∨ s.phase = .fault) ∧
      (off.toNat = 0x08 ∨ off.toNat = 0x18 ∨ (0x80 ≤ off.toNat ∧ off.toNat ≤ 0xF8) ∨
        ∃ (i : Reg) (j : Nat) (a : Wide), off.toNat = 0x1000 + 0x800 * i.val + 8 * j ∧
          s.reg i = some a ∧ j < a.len))

theorem windowLimb_eq_some {s : State} {i : Reg} {j : Nat} {v : Limb}
    (h : s.windowLimb i j = some v) : ∃ a, s.reg i = some a ∧ j < a.len := by
  cases hi : s.reg i with
  | none => cases (State.windowLimb_of_none hi j).symm.trans h
  | some a =>
    refine ⟨a, rfl, not_le.1 fun above => ?_⟩
    cases (State.windowLimb_of_len_le hi above).symm.trans h

/-- Only a read of the list is answered with data: the register at its offset is readable in the
phase (20_memory.md R55, R56). -/
theorem readGranted_of_busRead {maxLimbs : Nat} {s : State} {off : Offset} {v : Limb}
    (ha : off.toNat % 8 = 0) (h : s.busRead maxLimbs off 8 = some v) : readGranted s off := by
  rw [busRead_aligned ha] at h
  obtain ⟨r, hreg, h⟩ := Option.bind_eq_some_iff.1 h
  have place := portReg_liesAt hreg
  split at h
  case isFalse => cases h
  case isTrue permitted =>
    cases r with
    | cmd | din | ctrl => cases h
    | status => exact .inl place
    | cap => exact .inr (.inl place)
    | cmdr => exact .inr (.inr (.inl place))
    | imm => exact .inr (.inr (.inr ⟨of_decide_eq_true permitted, .inl place⟩))
    | res => exact .inr (.inr (.inr ⟨of_decide_eq_true permitted, .inr (.inl place)⟩))
    | wlen i =>
      obtain ⟨lower, upper⟩ := place
      exact .inr (.inr (.inr ⟨of_decide_eq_true permitted, .inr (.inr (.inl (by omega)))⟩))
    | win i j =>
      obtain ⟨-, lower, upper⟩ := place
      obtain ⟨a, hi, hj⟩ := windowLimb_eq_some h
      exact .inr (.inr (.inr ⟨of_decide_eq_true permitted,
        .inr (.inr (.inr ⟨i, j, a, by omega, hi, hj⟩))⟩))

section Reads

variable {maxLimbs : Nat} {s : State} {off : Offset} {rest : List Move} (hr : s.rst = false)
  (hp : s.pending = .access (.read off 8) :: rest)
include hr hp

/-- A register at a fixed offset that the phase permits is answered with its data. -/
theorem stepWith_read_at (n : Nat) {r : PortReg} {v : Limb} (hoff : off.toNat = n)
    (haligned : n % 8 = 0) (hreg : portReg n = some r) (hperm : r.readPermitted s.phase = true)
    (hv : s.readReg maxLimbs r = some v) : ∃ v, stepWith maxLimbs s = answered s rest (.data v) :=
  ⟨v, stepWith_read_permitted hr hp (hoff ▸ haligned) (hoff ▸ hreg) hperm hv⟩

/-- Every read of the list is answered with data (20_memory.md R52, R56, R58). -/
theorem stepWith_read_granted (hmax : maxLimbs ≤ 255) (inv : Inv maxLimbs s)
    (ha : off.toNat % 8 = 0) (granted : readGranted s off) :
    ∃ v, stepWith maxLimbs s = answered s rest (.data v) := by
  rcases granted with h | h | h | ⟨shown, h | h | ⟨lower, upper⟩ | ⟨i, j, a, h, hi, hj⟩⟩
  · exact stepWith_read_at hr hp 0x10 h rfl rfl rfl rfl
  · exact stepWith_read_at hr hp 0x30 h rfl rfl rfl rfl
  · exact stepWith_read_at hr hp 0x38 h rfl rfl rfl rfl
  · exact stepWith_read_at hr hp 0x08 h rfl rfl (decide_eq_true shown) rfl
  · exact stepWith_read_at hr hp 0x18 h rfl rfl (decide_eq_true shown) rfl
  · have index : (off.toNat - 0x80) / 8 < 16 := by omega
    have place : off.toNat = 0x80 + 8 * ((off.toNat - 0x80) / 8) := by omega
    exact ⟨_, stepWith_read_wlen (i := ⟨_, index⟩) hr shown place hp⟩
  · obtain ⟨-, hlen, -⟩ := inv.regs i a hi
    exact stepWith_read_at hr hp _ h (by omega) (portReg_win i.val j i.isLt (by omega))
      (decide_eq_true shown) (State.windowLimb_of_lt_len hi hj)

end Reads

/-! ### Which writes are answered `OKAY` -/

/-- The writes the port answers `OKAY`, by offset, phase and value (20_memory.md R56, R61 to R64).
-/
def writeGranted (maxLimbs : Nat) (s : State) (off : Offset) (v : Limb) : Prop :=
  (off.toNat = 0x00 ∧ s.phase = .idle ∧ v.toNat < 2 ^ 32) ∨
    (off.toNat = 0x08 ∧ s.phase = .idle) ∨
    (off.toNat = 0x20 ∧ s.phase = .load ∧
      ((∃ rd wl, decode maxLimbs s.cmdr = .ok (.ldw32 rd wl)) → v.toNat < 2 ^ 32)) ∨
    (off.toNat = 0x28 ∧ v.toNat ≤ 1)

/-- A beat that is taken is, for LDW32, a 32-bit word (40_construct.md R103). -/
theorem small_of_writeDin {maxLimbs : Nat} {s t : State} {v : Limb}
    (h : s.writeDin maxLimbs v = some t) {rd : Reg} {wl : Nat}
    (hd : decode maxLimbs s.cmdr = .ok (.ldw32 rd wl)) : v.toNat < 2 ^ 32 := by
  refine not_le.1 fun large => ?_
  cases (State.writeDin_ldw32_refuses hd large).symm.trans h

/-- A beat of the load in progress is taken if, for LDW32, it is a 32-bit word
(40_construct.md R102, R103). -/
theorem exists_writeDin {maxLimbs : Nat} {s : State} {v : Limb} (loading : Loading maxLimbs s)
    (small : (∃ rd wl, decode maxLimbs s.cmdr = .ok (.ldw32 rd wl)) → v.toNat < 2 ^ 32) :
    ∃ t, s.writeDin maxLimbs v = some t := by
  rcases loading with ⟨rd, wl, hd, -⟩ | ⟨rd, wl, hd, -⟩
  · exact ⟨_, State.writeDin_ldw64 hd v⟩
  · exact ⟨_, State.writeDin_ldw32 hd (small ⟨rd, wl, hd⟩)⟩

/-- Only a write of the list is taken (20_memory.md R56, R61 to R64). -/
theorem writeGranted_of_busWrite {maxLimbs n : Nat} {s t : State} {off : Offset} {v : Limb}
    (h : s.busWrite maxLimbs off n v = some t) : writeGranted maxLimbs s off v := by
  obtain ⟨-, ⟨rfl, idle, small, -⟩ | ⟨rfl, idle, -⟩ | ⟨rfl, load, beat⟩ | ⟨rfl, rfl, -⟩ |
    ⟨rfl, rfl, -⟩⟩ := busWrite_cases h
  · exact .inl ⟨rfl, idle, small⟩
  · exact .inr (.inl ⟨rfl, idle⟩)
  · exact .inr (.inr (.inl ⟨rfl, load, fun ⟨_, _, hd⟩ => small_of_writeDin beat hd⟩))
  · exact .inr (.inr (.inr ⟨rfl, by decide⟩))
  · exact .inr (.inr (.inr ⟨rfl, by decide⟩))

/-- A write leaves the moves to come and the answers given (20_memory.md R53; log 1, log 9). -/
theorem busWrite_environment {maxLimbs n : Nat} {s t : State} {off : Offset} {v : Limb}
    (h : s.busWrite maxLimbs off n v = some t) :
    t.pending = s.pending ∧ t.answers = s.answers := by
  obtain ⟨-, ⟨-, -, -, rfl⟩ | ⟨-, -, rfl⟩ | ⟨-, -, beat⟩ | ⟨-, -, rfl⟩ | ⟨-, -, rfl⟩⟩ :=
    busWrite_cases h
  case inr.inr.inl =>
    rw [writeDin_frame beat]
    exact ⟨rfl, rfl⟩
  all_goals exact ⟨rfl, rfl⟩

/-- A register at a fixed offset that the phase permits takes what its rule takes
(20_memory.md R53). -/
theorem busWrite_at {maxLimbs : Nat} {s t : State} {off : Offset} {v : Limb} (n : Nat) {r : PortReg}
    (hoff : off.toNat = n) (haligned : n % 8 = 0) (hreg : portReg n = some r)
    (hperm : r.writePermitted s.phase = true) (hw : s.writeReg maxLimbs v r = some t) :
    ∃ t, s.busWrite maxLimbs off 8 v = some t :=
  ⟨t, by rw [busWrite_aligned (hoff ▸ haligned), hoff, hreg, Option.bind_some, if_pos hperm, hw]⟩

/-- Every write of the list is taken (20_memory.md R56, R61 to R64). -/
theorem exists_busWrite_of_granted {maxLimbs : Nat} {s : State} {off : Offset} {v : Limb}
    (inv : Inv maxLimbs s) (granted : writeGranted maxLimbs s off v) :
    ∃ t, s.busWrite maxLimbs off 8 v = some t := by
  rcases granted with ⟨h, idle, small⟩ | ⟨h, idle⟩ | ⟨h, load, small⟩ | ⟨h, hv⟩
  · exact busWrite_at 0x00 h rfl rfl (decide_eq_true idle) (State.writeReg_cmd_accepts s small)
  · exact busWrite_at 0x08 h rfl rfl (decide_eq_true idle) rfl
  · obtain ⟨t, beat⟩ := exists_writeDin (inv.load load) small
    exact busWrite_at 0x20 h rfl rfl (decide_eq_true load) beat
  · rcases Nat.le_one_iff_eq_zero_or_eq_one.1 hv with zero | one
    · cases BitVec.eq_of_toNat_eq (y := (0 : Limb)) zero
      exact busWrite_at 0x28 h rfl rfl rfl (State.writeReg_ctrl_zero maxLimbs s)
    · cases BitVec.eq_of_toNat_eq (y := (1 : Limb)) one
      exact busWrite_at 0x28 h rfl rfl rfl (State.writeReg_ctrl_one maxLimbs s)

/-! ### What an access shows in RUN and LOAD -/

/-- In RUN and LOAD a read shows `STATUS`, `CAP` and `CMDR`, or nothing (20_memory.md R56). -/
theorem busRead_congr_of_busy {maxLimbs n : Nat} {s u : State} {off : Offset}
    (busy : s.phase = .run ∨ s.phase = .load) (hphase : u.phase = s.phase)
    (hstatus : u.status = s.status) (hcmdr : u.cmdr = s.cmdr) :
    u.busRead maxLimbs off n = s.busRead maxLimbs off n := by
  have hidden : decide (s.phase = .idle ∨ s.phase = .fault) = false :=
    decide_eq_false (Phase.not_idle_or_fault_of_busy busy)
  unfold State.busRead
  cases portReg off.toNat with
  | none => rfl
  | some r =>
    cases r <;>
      simp only [PortReg.readPermitted, hphase, hidden, State.readReg, hstatus, hcmdr,
        Bool.false_eq_true, if_false]

/-- Whether a register's rule takes a value depends on the value and on `CMDR`
(20_memory.md R61 to R64). -/
theorem writeReg_isSome_congr {maxLimbs : Nat} {s u : State} (hcmdr : u.cmdr = s.cmdr) (v : Limb)
    (r : PortReg) : (u.writeReg maxLimbs v r).isSome = (s.writeReg maxLimbs v r).isSome := by
  cases r with
  | cmd => simp only [State.writeReg, apply_ite Option.isSome, Option.isSome_some,
      Option.isSome_none]
  | din =>
    simp only [State.writeReg, State.writeDin, hcmdr]
    split <;> simp only [apply_ite Option.isSome, Option.isSome_some,
      Option.isSome_none]
  | ctrl => simp only [State.writeReg, apply_ite Option.isSome, Option.isSome_some,
      Option.isSome_none]
  | imm | status | res | cap | cmdr | wlen i | win i j => rfl

/-- Whether a write is taken depends on the phase and on `CMDR` (20_memory.md R53, R56). -/
theorem busWrite_isSome_congr {maxLimbs n : Nat} {s u : State} {off : Offset} {v : Limb}
    (hphase : u.phase = s.phase) (hcmdr : u.cmdr = s.cmdr) :
    (u.busWrite maxLimbs off n v).isSome = (s.busWrite maxLimbs off n v).isSome := by
  unfold State.busWrite
  cases portReg off.toNat with
  | none => rfl
  | some r => simp only [hphase, apply_ite Option.isSome, writeReg_isSome_congr hcmdr]

/-- The answer to a write says whether it was taken and nothing else (20_memory.md R50, R53). -/
theorem present_write_answers {maxLimbs n : Nat} {s : State} {off : Offset} {v : Limb}
    (hr : s.rst = false) : (s.present maxLimbs (.write off n v)).answers =
      (if (s.busWrite maxLimbs off n v).isSome then .okay else .slverr) :: s.answers := by
  rw [present_write hr]
  cases hb : s.busWrite maxLimbs off n v with
  | none => rfl
  | some t =>
    obtain ⟨-, answers⟩ := busWrite_environment hb
    exact congrArg (Answer.okay :: ·) answers

/-- In RUN and LOAD the answer to an access does not depend on the wide registers, `IMM` and `RES`
(20_memory.md R56; 10_state.md R39). -/
theorem present_answers_of_busy {maxLimbs : Nat} {s u : State} (a : Access)
    (busy : s.phase = .run ∨ s.phase = .load) (hrst : u.rst = s.rst) (hphase : u.phase = s.phase)
    (hstatus : u.status = s.status) (hcmdr : u.cmdr = s.cmdr) (hanswers : u.answers = s.answers) :
    (u.present maxLimbs a).answers = (s.present maxLimbs a).answers := by
  rcases Bool.eq_false_or_eq_true s.rst with asserted | released
  · rw [present_rst a asserted, present_rst a (hrst.trans asserted), State.answer_answers,
      State.answer_answers, hanswers]
  · cases a with
    | read off n =>
      rw [present_read released, present_read (hrst.trans released),
        busRead_congr_of_busy busy hphase hstatus hcmdr, State.answer_answers,
        State.answer_answers, hanswers]
    | write off n v =>
      rw [present_write_answers released, present_write_answers (hrst.trans released),
        busWrite_isSome_congr hphase hcmdr, hanswers]

/-! ### Resets -/

/-- What a reset leaves, hard or soft, from a state that meets the invariant: the block in reset,
and beside it what was there (70_reset_and_hazards.md R260, R261). -/
theorem stepWith_resets {maxLimbs : Nat} {s t : State} {m : Move} {rest : List Move}
    (hm : Spec.resets m) (hp : s.pending = m :: rest) (inv : Inv maxLimbs s)
    (h : stepWith maxLimbs s = .next t) :
    t.toBlock = Block.reset ∧ t.rnd = s.rnd ∧ t.drawn = s.drawn ∧ t.pending = rest ∧
      (m = .rst true → t.rst = true ∧ t.answers = s.answers) ∧
      (m ≠ .rst true → t.rst = s.rst ∧
        t.answers = (if s.rst then .unanswered else .okay) :: s.answers) := by
  rcases hm with rfl | rfl
  · rcases Bool.eq_false_or_eq_true s.rst with asserted | released
    · cases (stepWith_unanswered asserted hp).symm.trans h
      have reset : s.toBlock = Block.reset := (congrArg State.toBlock (inv.held asserted)).symm
      exact ⟨reset, rfl, rfl, rfl, nofun, fun _ => ⟨rfl, by rw [asserted]; rfl⟩⟩
    · obtain ⟨reset, -, -⟩ := ctrlWrite maxLimbs s 1 rest released hp
      cases (reset rfl).symm.trans h
      exact ⟨rfl, rfl, rfl, rfl, nofun, fun _ => ⟨rfl, by rw [released]; rfl⟩⟩
  · cases (stepWith_cons hp).symm.trans h
    exact ⟨rfl, rfl, rfl, rfl, fun _ => ⟨rfl, rfl⟩, fun other => absurd rfl other⟩

/-- Two states are one if their blocks are and what stands beside them is. -/
theorem State.eq_of_fields {s u : State} (block : s.toBlock = u.toBlock) (rst : s.rst = u.rst)
    (rnd : s.rnd = u.rnd) (drawn : s.drawn = u.drawn) (pending : s.pending = u.pending)
    (answers : s.answers = u.answers) : s = u := by
  cases s
  cases u
  simp_all

/-- A block in reset refuses every window read (20_memory.md R58). -/
theorem busRead_winOffset_of_reset {maxLimbs : Nat} {s : State} (h : s.toBlock = Block.reset)
    (i : Reg) {j : Nat} (hj : j ≤ 254) : s.busRead maxLimbs (winOffset i j) 8 = none := by
  have idle : s.phase = .idle := by rw [h]; rfl
  have unconstructed : s.reg i = none := by
    rw [State.reg, h]
    exact State.reset_reg i
  rw [State.busRead_winOffset hj (.inl idle), State.windowLimb_of_none unconstructed]

/-- While `rst` is asserted the block is, and stays, in reset (70_reset_and_hazards.md R260). -/
theorem toBlock_of_step_held {maxLimbs : Nat} {s t : State} (inv : Inv maxLimbs s)
    (asserted : s.rst = true) (h : stepWith maxLimbs s = .next t) : t.toBlock = Block.reset := by
  have reset : s.toBlock = Block.reset := (congrArg State.toBlock (inv.held asserted)).symm
  have idle : s.phase = .idle := by rw [reset]; rfl
  rcases step_cases h with ⟨rest, -, engine⟩ | ⟨a, rest, -, rfl⟩ | ⟨rest, -, rfl⟩ | ⟨rest, -, rfl⟩
  · have not_run : ({ s with pending := rest } : State).phase ≠ .run := by simp [idle]
    cases (engineStep_of_ne_run not_run).symm.trans engine
    exact reset
  · rw [present_rst (s := { s with pending := rest }) a asserted]
    exact reset
  · rfl
  · exact reset

/-! ### The statements -/

/-- Settles O34: the reads of the list are granted by phase and register, and a read that is not on
it is answered with no data. -/
theorem readPermissions : Obligations.ReadPermissions := by
  intro maxLimbs s off rest hr hmax inv ha hp
  refine ⟨stepWith_read_granted hr hp hmax inv ha, fun refused => stepWith_read_slverr hr hp ?_⟩
  exact Option.eq_none_iff_forall_ne_some.2 fun v data => refused (readGranted_of_busRead ha data)

/-- Settles O35: the writes of the list are taken by phase and value, in LOAD by the load that the
invariant puts in `CMDR`, and a write that is not on it is not taken. -/
theorem writePermissions : Obligations.WritePermissions := by
  intro maxLimbs s off v rest hr inv ha hp
  have unlisted : Inv maxLimbs { s with pending := rest } := inv.of_block_eq rfl rfl
  refine ⟨fun granted => ?taken, fun refused => stepWith_write_slverr hr hp ?_⟩
  case taken =>
    obtain ⟨t, ht⟩ := exists_busWrite_of_granted unlisted granted
    obtain ⟨pending, answers⟩ := busWrite_environment ht
    exact ⟨_, stepWith_write_okay hr hp ht, pending, congrArg (Answer.okay :: ·) answers⟩
  exact Option.eq_none_iff_forall_ne_some.2 fun t taken =>
    refused (writeGranted_of_busWrite (s := { s with pending := rest }) taken)

/-- Settles O39: asserting `rst` resets the block, and while it is asserted no move changes the
block. -/
theorem hardReset : Obligations.HardReset := by
  intro maxLimbs s rest
  refine ⟨fun hp => stepWith_cons hp, fun t inv asserted hstep => ⟨?held, fun a hp => ?silent⟩⟩
  case held =>
    exact State.eq_of_fields (toBlock_of_step_held inv asserted hstep).symm rfl rfl rfl rfl rfl
  case silent =>
    cases (stepWith_unanswered asserted hp).symm.trans hstep
    rfl

/-- Settles O50: the answer to an access in RUN or LOAD does not depend on what differs. -/
theorem busyHidesTheRegisters : Obligations.BusyHidesTheRegisters := by
  rintro maxLimbs s u s' u' a rest busy hp ⟨w, imm, res, rfl⟩ hs hu
  cases (stepWith_access hp).symm.trans hs
  cases (stepWith_access (s := { s with w := w, imm := imm, res := res }) hp).symm.trans hu
  exact present_answers_of_busy a busy rfl rfl rfl rfl rfl

/-- Settles O51: a reset leaves the block at its reset values, and of the rest what lay outside it.
-/
theorem resetLeavesNoSecret : Obligations.ResetLeavesNoSecret := by
  intro maxLimbs s u s' u' m rest hm hrst hrnd hdrawn hanswers hps hpu invs invu hs hu
  obtain ⟨block, rnd, drawn, pending, hard, soft⟩ := stepWith_resets hm hps invs hs
  obtain ⟨block', rnd', drawn', pending', hard', soft'⟩ := stepWith_resets hm hpu invu hu
  refine ⟨?one, fun i j => busRead_winOffset_of_reset block i⟩
  have outside : s'.rst = u'.rst ∧ s'.answers = u'.answers := by
    by_cases h : m = .rst true
    · obtain ⟨level, given⟩ := hard h
      obtain ⟨level', given'⟩ := hard' h
      exact ⟨level.trans level'.symm, by rw [given, given', hanswers]⟩
    · obtain ⟨level, given⟩ := soft h
      obtain ⟨level', given'⟩ := soft' h
      exact ⟨by rw [level, level', hrst], by rw [given, given', hrst, hanswers]⟩
  obtain ⟨level, given⟩ := outside
  exact State.eq_of_fields (block.trans block'.symm) level (by rw [rnd, rnd', hrnd])
    (by rw [drawn, drawn', hdrawn]) (pending.trans pending'.symm) given

/-- Settles O33: a misshapen access is refused whatever lies at its offset. -/
theorem misshapenAccessRefused : Obligations.MisshapenAccessRefused := by
  intro maxLimbs s off size v rest hr misshapen
  exact ⟨fun hp => stepWith_read_slverr hr hp (s.busRead_misshapen maxLimbs misshapen),
    fun hp => stepWith_write_slverr hr hp (State.busWrite_misshapen maxLimbs _ misshapen v)⟩

/-- Settles O44: a read is answered, or with `rst` asserted left unanswered, and nothing else
happens. -/
theorem readsChangeNothing : Obligations.ReadsChangeNothing := by
  intro maxLimbs s off size rest hp
  rcases Bool.eq_false_or_eq_true s.rst with asserted | released
  · exact ⟨_, stepWith_unanswered asserted hp⟩
  · exact ⟨_, stepWith_read released hp⟩

end Sys2Proof.Machine
end

section
/-! PROOFS. The step of the block: the engine's step and its place in the order of moves, what every
command changes and how it ends, and who changes `PHASE` and `IMM`. -/

namespace Sys2Proof.Machine

open Sys2Proof.Safety Sys2Proof.Spec

/-! ### A command in RUN, and accesses before it -/

/-- A pending engine's step has its place (20_memory.md R68). -/
theorem stepWith_engine {maxLimbs : Nat} {s : State} {rest : List Move}
    (hp : s.pending = .engine :: rest) :
    stepWith maxLimbs s = ({ s with pending := rest } : State).engineStep maxLimbs :=
  stepWith_cons hp

theorem ne_run_of_other {p : Phase} (h : p = .idle ∨ p = .load ∨ p = .fault) : p ≠ .run := by
  rcases h with rfl | rfl | rfl <;> decide

/-- In RUN an access that is no reset is answered and changes nothing else
(20_memory.md R54, R56). -/
theorem present_in_run (maxLimbs : Nat) {s : State} {a : Access} (hrun : s.phase = .run)
    (hm : ¬ Spec.resets (.access a)) : ∃ x, s.present maxLimbs a = s.answer x := by
  rcases present_cases maxLimbs s a with answer | ⟨-, ⟨v, -, idle, -⟩ | ⟨v, -, idle, -⟩ |
    ⟨v, u, -, load, -⟩ | ⟨rfl, -⟩⟩
  · exact answer
  · cases hrun.symm.trans idle
  · cases hrun.symm.trans idle
  · cases hrun.symm.trans load
  · exact absurd (.inl rfl) hm

theorem core_run_succ {n : Nat} {s t : State} (h : stepWith Config.maxLimbs s = .next t) :
    Host.Core.run core (n + 1) s = Host.Core.run core n t := by
  have first : core.step s = .next t := h
  simp only [Host.Core.run, first]

theorem core_run_one (s : State) : Host.Core.run core 1 s = stepWith Config.maxLimbs s := by
  have step : core.step s = stepWith Config.maxLimbs s := rfl
  simp only [Host.Core.run, step]
  cases stepWith Config.maxLimbs s <;> rfl

/-- In RUN the accesses pending are answered one after the other, and then the engine moves
(20_memory.md R68; log 2). -/
theorem run_accesses_then_command {i : Instr} (accesses : List Move) :
    ∀ s : State, s.pending = accesses → s.phase = .run →
      decode Config.maxLimbs s.cmdr = .ok i →
      (∀ m ∈ accesses, (∃ a, m = .access a) ∧ ¬ Spec.resets m) →
      ∃ given : List Answer, given.length = accesses.length ∧
        Host.Core.run core (accesses.length + 1) s =
          exec i { s with pending := [], answers := given ++ s.answers } := by
  induction accesses with
  | nil =>
    intro s hp hrun hd _
    have unlisted : ({ s with pending := [], answers := [] ++ s.answers } : State) = s :=
      State.eq_of_fields rfl rfl rfl rfl hp.symm rfl
    refine ⟨[], rfl, ?_⟩
    rw [List.length_nil, core_run_one, stepWith_nil hp, engineStep_of_decode_ok hrun hd, unlisted]
  | cons m rest ih =>
    intro s hp hrun hd hms
    obtain ⟨⟨a, rfl⟩, hm⟩ := hms m List.mem_cons_self
    obtain ⟨x, answer⟩ :=
      present_in_run Config.maxLimbs (s := { s with pending := rest }) hrun hm
    obtain ⟨given, hlen, hrest⟩ := ih (({ s with pending := rest } : State).answer x) rfl hrun hd
      fun m hm => hms m (List.mem_cons_of_mem _ hm)
    refine ⟨given ++ [x], by rw [List.length_append, hlen]; rfl, ?_⟩
    rw [List.length_cons, core_run_succ ((stepWith_access hp).trans (congrArg _ answer)), hrest,
      List.append_assoc]
    rfl

/-! ### Who changes `PHASE` -/

/-- A load is the only command that enters LOAD (10_state.md R30). -/
theorem load_of_exec_phase {i : Instr} {s t : State} (h : exec i s = .next t)
    (hload : t.phase = .load) : ∃ rd wl, i = .ldw64 rd wl ∨ i = .ldw32 rd wl := by
  rcases exec_ends i s with ⟨rd, wl, hi, -⟩ | ⟨r, ends, hend⟩
  · exact ⟨rd, wl, hi⟩
  · cases ends with
    | fault f legal cause =>
      cases hend.symm.trans h
      rw [State.takeFault_of_ne s legal] at hload
      cases hload
    | ok w res rnd drawn =>
      cases hend.symm.trans h
      cases hload

/-- The engine's step enters LOAD only by a load in `CMDR` (10_state.md R30). -/
theorem load_of_engineStep_phase {maxLimbs : Nat} {s t : State} (hrun : s.phase = .run)
    (h : s.engineStep maxLimbs = .next t) (hload : t.phase = .load) :
    ∃ rd wl, decode maxLimbs s.cmdr = .ok (.ldw64 rd wl) ∨
      decode maxLimbs s.cmdr = .ok (.ldw32 rd wl) := by
  cases hd : decode maxLimbs s.cmdr with
  | error e =>
    cases (engineStep_of_decode_error hrun hd).symm.trans h
    cases hload
  | ok i =>
    obtain ⟨rd, wl, hi⟩ :=
      load_of_exec_phase ((engineStep_of_decode_ok hrun hd).symm.trans h) hload
    exact ⟨rd, wl, hi.imp (congrArg Except.ok) (congrArg Except.ok)⟩

/-- A counter that has counted up to a number above 0 has not run over (10_state.md R38). -/
theorem lcnt_of_succ_eq {c : BitVec 16} {n : Nat} (hn : 1 ≤ n) (h : (c + 1).toNat = n) :
    c.toNat + 1 = n := by
  have bound := c.isLt
  have one : (1 : BitVec 16).toNat = 1 := rfl
  rw [BitVec.toNat_add, one] at h
  omega

/-- The end of a beat completes the command at the last beat and else leaves the phase
(40_construct.md R102, R103). -/
theorem endBeat_phase (s : State) (rd : Reg) (wl total : Nat) :
    (s.endBeat rd wl total).phase = s.phase ∨
      ((s.endBeat rd wl total).phase = .idle ∧ s.lcnt.toNat = total) := by
  unfold State.endBeat
  split
  case isTrue last => exact .inr ⟨rfl, last⟩
  case isFalse => exact .inl rfl

/-- A beat changes the phase only as the last of its load (10_state.md R30). -/
theorem writeDin_phase {maxLimbs : Nat} {s t : State} {v : Limb}
    (h : s.writeDin maxLimbs v = some t) :
    t.phase = s.phase ∨ t.phase = .idle ∧ ∃ rd wl,
      (decode maxLimbs s.cmdr = .ok (.ldw64 rd wl) ∧ s.lcnt.toNat + 1 = wl) ∨
      (decode maxLimbs s.cmdr = .ok (.ldw32 rd wl) ∧ v.toNat < 2 ^ 32 ∧
        s.lcnt.toNat + 1 = 2 * wl) := by
  have taken := h
  unfold State.writeDin at h
  split at h
  case h_1 rd wl hd =>
    cases h
    obtain ⟨hwl, -⟩ := Laws.RoundTrip.wl_bounds (wellFormed_of_decode hd)
    refine (endBeat_phase _ rd wl wl).imp_right fun ⟨idle, last⟩ => ⟨idle, rd, wl, .inl ⟨hd, ?_⟩⟩
    exact lcnt_of_succ_eq hwl last
  case h_2 rd wl hd =>
    split at h
    case isFalse => cases h
    cases h
    obtain ⟨hwl, -⟩ := Laws.RoundTrip.wl_bounds (wellFormed_of_decode hd)
    refine (endBeat_phase _ rd wl (2 * wl)).imp_right fun ⟨idle, last⟩ =>
      ⟨idle, rd, wl, .inr ⟨hd, small_of_writeDin taken hd, ?_⟩⟩
    exact lcnt_of_succ_eq (by omega) last
  case h_3 => cases h

/-- The engine's step leaves `IMM` (10_state.md R28). -/
theorem engineStep_keeps_imm {maxLimbs : Nat} {s t : State} (h : s.engineStep maxLimbs = .next t) :
    t.imm = s.imm := by
  by_cases hrun : s.phase = .run
  case neg =>
    cases (engineStep_of_ne_run hrun).symm.trans h
    rfl
  case pos =>
    cases hd : decode maxLimbs s.cmdr with
    | ok i =>
      obtain ⟨-, imm⟩ := exec_keeps_cmdr_imm ((engineStep_of_decode_ok hrun hd).symm.trans h)
      exact imm
    | error e =>
      cases (engineStep_of_decode_error hrun hd).symm.trans h
      rfl

/-! ### The statements -/

/-- Settles O6: by induction on the accesses pending. -/
theorem acceptedCommandIsExecuted : Obligations.AcceptedCommandIsExecuted :=
  fun s _ hrun _ hd hms => run_accesses_then_command s.pending s rfl hrun hd hms

/-- Settles O28: a load, a completion and a fault each change what they name. -/
theorem commandFrame : Obligations.CommandFrame := by
  intro i s t h
  rcases exec_ends i s with ⟨rd, wl, hi, hload⟩ | ⟨r, ends, hend⟩
  · cases hload.symm.trans h
    have written : destinations i = [rd] := by rcases hi with rfl | rfl <;> rfl
    refine ⟨fun r hr => ?_, fun _ => rfl, rfl, rfl, rfl, rfl, rfl, fun other => ?_,
      fun _ => ⟨rfl, rfl⟩⟩
    · rw [written, List.mem_singleton] at hr
      exact s.reg_setReg_ne none hr
    · obtain ⟨not64, not32⟩ := other rd wl
      exact (hi.elim not64 not32).elim
  · cases ends with
    | fault f legal cause =>
      cases hend.symm.trans h
      have kept (r : Reg) (hr : r ∉ destinations i) :
          (s.takeFault f (destinations i)).reg r = s.reg r := by
        rw [s.reg_takeFault legal, if_neg hr]
      rw [s.takeFault_of_ne legal] at kept ⊢
      exact ⟨kept, fun _ => rfl, rfl, rfl, rfl, rfl, rfl, fun _ => ⟨rfl, rfl⟩, fun _ => ⟨rfl, rfl⟩⟩
    | ok w res rnd drawn read regs result entropy =>
      cases hend.symm.trans h
      exact ⟨regs, result, rfl, rfl, rfl, rfl, rfl, fun _ => ⟨rfl, rfl⟩, entropy⟩

/-- Settles O29: a load enters LOAD, a completion leaves the code, a fault records one that is not
0. -/
theorem completionOrFault : Obligations.CompletionOrFault := by
  intro i s hcode
  obtain ⟨t, h⟩ := exec_next i s
  refine ⟨t, h, ?_⟩
  rcases exec_ends i s with ⟨rd, wl, hi, hload⟩ | ⟨r, ends, hend⟩
  · cases hload.symm.trans h
    exact .inr (.inr ⟨rfl, rfl, hcode, rd, wl, hi⟩)
  · cases ends with
    | fault f legal cause =>
      cases hend.symm.trans h
      rw [s.takeFault_of_ne legal]
      exact .inr (.inl ⟨rfl, rfl, f.code_ne_zero⟩)
    | ok w res rnd drawn =>
      cases hend.symm.trans h
      exact .inl ⟨rfl, rfl, hcode⟩

/-- Settles O10: the words drawn are those the input supplies, and their value is the sum of the
limbs. -/
theorem ldrndRule : Obligations.LdrndRule := by
  intro maxLimbs s rd wl hmax hwl hle
  refine ⟨Laws.RoundTrip.ldrnd rd wl maxLimbs hmax (legalWl_of_bounds hwl hle), ?_⟩
  have command : exec (.ldrnd rd wl) s = execLdrnd rd wl s := rfl
  have supplied (j : Nat) (hj : j < wl) : ((List.range wl).map s.entropyWord).getD j 0 =
      s.rnd.getD j (Config.draw64 (s.drawn + j)) := by
    rw [List.getD_eq_getElem?_getD, List.getElem?_map, List.getElem?_range hj, Option.map_some,
      Option.getD_some, State.entropyWord, List.getD_eq_getElem?_getD]
    cases s.rnd[j]? <;> rfl
  have value : limbsVal (s.drawLimbs wl).1 = ∑ j ∈ Finset.range wl,
      (s.rnd.getD j (Config.draw64 (s.drawn + j))).toNat * 2 ^ (64 * j) := by
    rw [s.drawLimbs_words, limbsVal_of_length (n := wl) (by simp), sumLimbs]
    exact Finset.sum_congr rfl fun j hj => by rw [supplied j (Finset.mem_range.1 hj)]
  rw [command, execLdrnd, value, s.drawLimbs_state]
  rfl

/-- Settles O48: of the engine's step, the accesses and the changes of `rst` each changes the phase
as the table says. -/
theorem phasesAreLeftOnlyAsStated : Obligations.PhasesAreLeftOnlyAsStated := by
  intro maxLimbs s t hstep hphase
  rcases step_cases hstep with ⟨rest, place, engine⟩ | ⟨a, rest, hp, rfl⟩ | ⟨rest, hp, rfl⟩ |
    ⟨rest, hp, rfl⟩
  · by_cases hrun : s.phase = .run
    · exact .inr (.inr (.inl ⟨hrun, place.imp And.left fun hp => ⟨rest, hp⟩,
        load_of_engineStep_phase (s := { s with pending := rest }) hrun engine⟩))
    · cases (engineStep_of_ne_run (s := { s with pending := rest }) hrun).symm.trans engine
      exact absurd rfl hphase
  · rcases present_cases maxLimbs { s with pending := rest } a with ⟨x, answer⟩ |
      ⟨-, ⟨v, rfl, idle, small, answer⟩ | ⟨v, -, -, answer⟩ | ⟨v, u, rfl, load, beat, answer⟩ |
        ⟨rfl, answer⟩⟩
    all_goals rw [answer] at hphase ⊢
    · exact absurd rfl hphase
    · exact .inr (.inl ⟨idle, rfl, v, rest, hp, small⟩)
    · exact absurd rfl hphase
    · rcases writeDin_phase beat with kept | ⟨idle, rd, wl, last⟩
      · exact absurd kept hphase
      · exact .inr (.inr (.inr ⟨load, idle, v, rest, rd, wl, hp, last⟩))
    · exact .inl ⟨_, rest, hp, .inl rfl, rfl⟩
  · exact .inl ⟨_, rest, hp, .inr rfl, rfl⟩
  · exact absurd rfl hphase

/-- Settles O49: the engine's step and the beats leave `IMM`, and of the accesses only its own write
in IDLE and a reset change it. -/
theorem onlyTheHostWritesImm : Obligations.OnlyTheHostWritesImm := by
  intro maxLimbs s t hstep himm
  rcases step_cases hstep with ⟨rest, -, engine⟩ | ⟨a, rest, hp, rfl⟩ | ⟨rest, hp, rfl⟩ |
    ⟨rest, hp, rfl⟩
  · exact absurd (engineStep_keeps_imm engine) himm
  · rcases present_cases maxLimbs { s with pending := rest } a with ⟨x, answer⟩ |
      ⟨-, ⟨v, -, -, -, answer⟩ | ⟨v, rfl, idle, answer⟩ | ⟨v, u, -, -, beat, answer⟩ |
        ⟨rfl, answer⟩⟩
    all_goals rw [answer] at himm ⊢
    · exact absurd rfl himm
    · exact absurd rfl himm
    · exact .inr ⟨idle, rest, hp⟩
    · rw [writeDin_frame beat] at himm
      exact absurd rfl himm
    · exact .inl ⟨_, rest, hp, .inl rfl⟩
  · exact .inl ⟨_, rest, hp, .inr rfl⟩
  · exact absurd rfl himm

/-- Settles O5: the list of moves says when the engine moves, and its step is the command's in RUN
and none in any other phase. -/
theorem stepRunsDecodedCommand : Obligations.StepRunsDecodedCommand := by
  intro maxLimbs s rest
  refine ⟨fun i hrun hd => ⟨fun hp => ?next, fun hp => ?placed⟩,
    fun other => ⟨fun hp => ?idle, fun hp => ?used⟩⟩
  case next => rw [stepWith_nil hp, engineStep_of_decode_ok hrun hd]
  case placed =>
    rw [stepWith_engine hp, engineStep_of_decode_ok (s := { s with pending := rest }) hrun hd]
  case idle => rw [stepWith_nil hp, engineStep_of_ne_run (ne_run_of_other other)]
  case used =>
    rw [stepWith_engine hp,
      engineStep_of_ne_run (s := { s with pending := rest }) (ne_run_of_other other)]

end Sys2Proof.Machine
end

section
/-! PROOFS. The whole loads of 40_construct.md R102 and R103: the engine's step and every beat after
it. -/

namespace Sys2Proof.Machine

open Sys2Proof.Safety Sys2Proof.Spec

/-! ### The limbs of LDW32 -/

/-- The limbs that pairs of words make, the first word of a pair the high half (40_construct.md
R103). -/
def pairLimbs : List Limb → List Limb
  | high :: low :: ws => (high <<< 32 ||| low) :: pairLimbs ws
  | _ => []

/-- Two 32-bit words in one limb (40_construct.md R103). -/
theorem toNat_shiftLeft_or {high low : Limb} (hh : high.toNat < 2 ^ 32) (hl : low.toNat < 2 ^ 32) :
    (high <<< 32 ||| low).toNat = high.toNat * 2 ^ 32 + low.toNat := by
  have fits : high.toNat * 2 ^ 32 % 2 ^ 64 = high.toNat * 2 ^ 32 := Nat.mod_eq_of_lt (by omega)
  rw [BitVec.toNat_or, BitVec.toNat_shiftLeft, Nat.shiftLeft_eq, fits, mul_comm,
    Nat.two_pow_add_eq_or_of_lt hl]

/-- The value of the limbs that `2 n` words make is the sum of the pairs at their places
(40_construct.md R103). -/
theorem limbsVal_pairLimbs (n : Nat) : ∀ ws : List Limb, ws.length = 2 * n →
    (∀ v ∈ ws, v.toNat < 2 ^ 32) → limbsVal (pairLimbs ws) = sumPairs ws n := by
  induction n with
  | zero =>
    intro ws hlen _
    rw [List.length_eq_zero_iff.1 hlen]
    rfl
  | succ n ih =>
    intro ws hlen small
    match ws with
    | high :: low :: ws =>
      have place (j : Nat) : 2 ^ (64 * (j + 1)) = 2 ^ 64 * 2 ^ (64 * j) := by
        rw [Nat.mul_succ, pow_add, mul_comm]
      have more : ws.length = 2 * n := by
        rw [List.length_cons, List.length_cons] at hlen
        omega
      have next (j : Nat) : 2 * (j + 1) = 2 * j + 1 + 1 := by omega
      rw [pairLimbs, limbsVal, toNat_shiftLeft_or (small high (by simp)) (small low (by simp)),
        ih ws more fun v hv => small v (by simp [hv]), sumPairs, sumPairs, Finset.sum_range_succ',
        Finset.mul_sum, add_comm]
      simp only [place, next, List.getD_cons_zero, List.getD_cons_succ, Nat.mul_zero, pow_zero,
        mul_one, mul_left_comm, zero_add]

/-! ### A load in LOAD as a run of beats -/

/-- How a load of `n` beats ends: the value in the register, the command complete, every beat
answered (40_construct.md R102, R103). -/
def loaded (s : State) (rd : Reg) (wl val n : Nat) (rest : List Move) : Result :=
  .next { s with
    w := s.w.set rd.val (some ⟨wl, val⟩)
    phase := .idle, done := true, lcnt := 0, lbuf := [], pending := rest
    answers := List.replicate n .okay ++ s.answers }

/-- An answer more before `n` answers of `OKAY` is one of `n + 1` of them. -/
theorem replicate_okay_append (n : Nat) (given : List Answer) :
    List.replicate n .okay ++ .okay :: given = List.replicate (n + 1) .okay ++ given := by
  rw [List.replicate_succ', List.append_assoc, List.singleton_append]

/-- A step that answers a beat is one step of a run. -/
theorem core_run_answered {n : Nat} {s t : State} {rest : List Move} {a : Answer}
    (h : stepWith Config.maxLimbs s = answered t rest a) :
    Host.Core.run core (n + 1) s =
      Host.Core.run core n { t with pending := rest, answers := a :: t.answers } :=
  core_run_succ h

/-! The beats of a load that is in step with its counter, whatever the invariant says of the other
registers: a whole load starts from any state in RUN. -/

section Beats

variable {maxLimbs : Nat} {s : State} {rd : Reg} {wl : Nat} {v : Limb} {rest : List Move}
  (hw : wl ≤ 255) (hload : s.phase = .load) (hr : s.rst = false)
  (hp : s.pending = beatMove v :: rest)
include hw hload hr hp

/-- A beat of LDW64, of a load that is in step with its counter (40_construct.md R102). -/
theorem stepWith_beat64_of_loadOk (hd : decode maxLimbs s.cmdr = .ok (.ldw64 rd wl))
    (ok : LoadOk s rd wl 1) :
    (s.lcnt.toNat + 1 = wl → stepWith maxLimbs s = answered { s with
      w := s.w.set rd.val (some ⟨wl, limbsVal (s.lbuf ++ [v])⟩)
      lbuf := [], lcnt := 0, phase := .idle, done := true } rest .okay) ∧
    (s.lcnt.toNat + 1 ≠ wl → stepWith maxLimbs s =
      answered { s with lbuf := s.lbuf ++ [v], lcnt := s.lcnt + 1 } rest .okay) := by
  have taken := State.writeDin_ldw64 (s := { s with pending := rest }) hd v
  rw [beat64_eq (s := { s with pending := rest }) ok hw] at taken
  exact ⟨fun last => stepWith_beat hload hr hp (by rw [taken, if_pos last]),
    fun more => stepWith_beat hload hr hp (by rw [taken, if_neg more])⟩

variable (hd : decode maxLimbs s.cmdr = .ok (.ldw32 rd wl)) (small : v.toNat < 2 ^ 32)
  (ok : LoadOk s rd wl 2)
include hd small ok

/-- The first beat of a pair of LDW32 (40_construct.md R103). -/
theorem stepWith_begin32_of_loadOk (even : s.lcnt.toNat % 2 = 0) :
    stepWith maxLimbs s =
      answered { s with lbuf := s.lbuf ++ [v <<< 32], lcnt := s.lcnt + 1 } rest .okay := by
  have taken := State.writeDin_ldw32 (s := { s with pending := rest }) hd small
  rw [beat32_even (s := { s with pending := rest }) ok hw v even] at taken
  exact stepWith_beat hload hr hp taken

/-- The second beat of a pair of LDW32 (40_construct.md R103). -/
theorem stepWith_finish32_of_loadOk (odd : s.lcnt.toNat % 2 = 1) {buf : List Limb} {l : Limb}
    (hbuf : s.lbuf = buf ++ [l]) :
    (s.lcnt.toNat + 1 = 2 * wl → stepWith maxLimbs s = answered { s with
      w := s.w.set rd.val (some ⟨wl, limbsVal (buf ++ [l ||| v])⟩)
      lbuf := [], lcnt := 0, phase := .idle, done := true } rest .okay) ∧
    (s.lcnt.toNat + 1 ≠ 2 * wl → stepWith maxLimbs s =
      answered { s with lbuf := buf ++ [l ||| v], lcnt := s.lcnt + 1 } rest .okay) := by
  have taken := State.writeDin_ldw32 (s := { s with pending := rest }) hd small
  obtain ⟨buf', l', hbuf', beat⟩ := beat32_odd (s := { s with pending := rest }) ok hw v odd
  obtain ⟨rfl, hl⟩ := List.append_inj' (hbuf.symm.trans hbuf') rfl
  cases hl
  rw [beat] at taken
  exact ⟨fun last => stepWith_beat hload hr hp (by rw [taken, if_pos last]),
    fun more => stepWith_beat hload hr hp (by rw [taken, if_neg more])⟩

end Beats

/-- In LOAD the words of LDW64 that are still to come are the limbs still missing
(40_construct.md R102). -/
theorem run_beats64 {rd : Reg} {wl : Nat} {rest : List Move} (hw : wl ≤ 255) (words : List Limb) :
    ∀ s : State, s.phase = .load → s.rst = false →
      decode Config.maxLimbs s.cmdr = .ok (.ldw64 rd wl) → LoadOk s rd wl 1 →
      s.lcnt.toNat + words.length = wl → s.pending = words.map beatMove ++ rest →
      Host.Core.run core words.length s =
        loaded s rd wl (limbsVal (s.lbuf ++ words)) words.length rest := by
  induction words with
  | nil =>
    intro s _ _ _ ⟨_, below, _⟩ count _
    rw [List.length_nil] at count
    omega
  | cons v words ih =>
    intro s hload hr hd ok count hp
    rw [List.length_cons] at count
    obtain ⟨complete, append⟩ := stepWith_beat64_of_loadOk hw hload hr hp hd ok
    by_cases last : s.lcnt.toNat + 1 = wl
    · obtain rfl : words = [] := List.length_eq_zero_iff.1 (by omega)
      exact core_run_answered (complete last)
    · have counted : (s.lcnt + 1).toNat + words.length = wl := by
        obtain ⟨-, below, -⟩ := ok
        rw [lcnt_succ (by omega)]
        omega
      rw [List.length_cons, core_run_answered (append last)]
      refine (ih _ ?_ ?_ ?_ ?_ ?_ ?_).trans ?_
      case refine_7 =>
        rw [loaded, loaded, replicate_okay_append, List.append_assoc]
        rfl
      exacts [hload, hr, hd, ok.next64 hw last v, counted, rfl]

/-- In LOAD the pairs of words of LDW32 that are still to come are the limbs still missing
(40_construct.md R103). -/
theorem run_beats32 {rd : Reg} {wl : Nat} {rest : List Move} (hw : wl ≤ 255) (n : Nat) :
    ∀ (words : List Limb) (s : State), words.length = 2 * n → (∀ v ∈ words, v.toNat < 2 ^ 32) →
      s.phase = .load → s.rst = false →
      decode Config.maxLimbs s.cmdr = .ok (.ldw32 rd wl) → LoadOk s rd wl 2 →
      s.lcnt.toNat + 2 * n = 2 * wl → s.pending = words.map beatMove ++ rest →
      Host.Core.run core (2 * n) s =
        loaded s rd wl (limbsVal (s.lbuf ++ pairLimbs words)) (2 * n) rest := by
  induction n with
  | zero =>
    intro words s _ _ _ _ _ ⟨_, below, _⟩ count _
    omega
  | succ n ih =>
    intro words s hlen small hload hr hd ok count hp
    match words with
    | high :: low :: words =>
      have even : s.lcnt.toNat % 2 = 0 := by omega
      have counted : (s.lcnt + 1).toNat = s.lcnt.toNat + 1 := lcnt_succ (by omega)
      have odd : (s.lcnt + 1).toNat % 2 = 1 := by omega
      have begun := ok.begin32 hw even (high <<< 32)
      have first := stepWith_begin32_of_loadOk hw hload hr hp hd (small high (by simp)) ok even
      obtain ⟨complete, append⟩ := stepWith_finish32_of_loadOk (maxLimbs := Config.maxLimbs)
        (s := { s with
          lbuf := s.lbuf ++ [high <<< 32], lcnt := s.lcnt + 1
          pending := beatMove low :: (words.map beatMove ++ rest), answers := .okay :: s.answers })
        hw hload hr rfl hd (small low (by simp)) begun odd rfl
      rw [Nat.mul_succ, core_run_answered first]
      by_cases last : (s.lcnt + 1).toNat + 1 = 2 * wl
      · obtain rfl : n = 0 := by omega
        obtain rfl : words = [] := List.length_eq_zero_iff.1 (by simpa using hlen)
        exact core_run_answered (complete last)
      · have second : (s.lcnt + 1 + 1).toNat + 2 * n = 2 * wl := by
          rw [lcnt_succ (by omega)]
          omega
        have more : words.length = 2 * n := by
          rw [List.length_cons, List.length_cons] at hlen
          omega
        refine (core_run_answered (append last)).trans ?_
        refine (ih words _ more ?_ ?_ ?_ ?_ ?_ ?_ ?_).trans ?_
        case refine_8 =>
          rw [loaded, loaded, replicate_okay_append, replicate_okay_append, List.append_assoc]
          rfl
        exacts [fun v hv => small v (by simp [hv]), hload, hr, hd,
          begun.finish32 hw odd last (by simp), second, rfl]

/-- The engine's step of a load, with the beats behind it (40_construct.md R102, R103). -/
theorem stepWith_enterLoad {s : State} {i : Instr} {rd : Reg} {wl : Nat} {moves : List Move}
    (hrun : s.phase = .run) (hp : s.pending = .engine :: moves)
    (hd : decode Config.maxLimbs s.cmdr = .ok i) (hi : i = .ldw64 rd wl ∨ i = .ldw32 rd wl) :
    stepWith Config.maxLimbs s = .next (({ s with pending := moves } : State).enterLoad rd) := by
  rw [stepWith_engine hp, engineStep_of_decode_ok (s := { s with pending := moves }) hrun hd]
  rcases hi with rfl | rfl <;> rfl

/-- The register taken away at entry to LOAD is the one the last beat writes. -/
theorem loaded_enterLoad (s : State) (rd : Reg) (wl val n : Nat) (moves rest : List Move) :
    loaded (({ s with pending := moves } : State).enterLoad rd) rd wl val n rest =
      loaded s rd wl val n rest := by
  rw [loaded, State.enterLoad_w, Vector.set_set]
  rfl

/-! ### The statements -/

/-- Settles O52: the engine's step enters LOAD with no limb, and the beats bring them all. -/
theorem wholeLoadOfLimbs : Obligations.WholeLoadOfLimbs := by
  intro s rd wl words rest hr hrun hwl hle hcmdr hlen hp
  have hd : decode Config.maxLimbs s.cmdr = .ok (.ldw64 rd wl) := by
    rw [hcmdr, decode_word_ldw64 rd (by decide) hwl hle]
  subst hlen
  rw [add_comm, core_run_succ (stepWith_enterLoad hrun hp hd (.inl rfl))]
  rw [run_beats64 (hle.trans (by decide)) words
    (({ s with pending := words.map beatMove ++ rest } : State).enterLoad rd) rfl hr hd
    (loadOk_enterLoad _ rd Nat.one_pos hwl) (Nat.zero_add _) rfl]
  rw [loaded_enterLoad, State.enterLoad_lbuf, List.nil_append, limbsVal_eq_sumLimbs]
  rfl

/-- Settles O53: the engine's step enters LOAD with no limb, and every pair of beats brings one. -/
theorem wholeLoadOfHalfLimbs : Obligations.WholeLoadOfHalfLimbs := by
  intro s rd wl words rest hr hrun hwl hle hcmdr hlen small hp
  have hd : decode Config.maxLimbs s.cmdr = .ok (.ldw32 rd wl) := by
    rw [hcmdr, decode_word_ldw32 rd (by decide) hwl hle]
  rw [add_comm, core_run_succ (stepWith_enterLoad hrun hp hd (.inr rfl))]
  rw [run_beats32 (hle.trans (by decide)) wl words
    (({ s with pending := words.map beatMove ++ rest } : State).enterLoad rd) hlen small rfl hr hd
    (loadOk_enterLoad _ rd Nat.two_pos hwl) (Nat.zero_add _) rfl]
  rw [loaded_enterLoad, State.enterLoad_lbuf, List.nil_append,
    limbsVal_pairLimbs wl words hlen small]
  rfl

end Sys2Proof.Machine
end

section
/-! PROOFS. The algorithms the spec gives beside the values: the limb forms of comparison and
shifts, the ripple-carry adder, shift-and-add multiplication, long division, and the reducer with
what is built on it. -/

namespace Sys2Proof.Machine

open Sys2Proof.Safety Sys2Proof.Spec

/-! ### Limbs of a value -/

/-- The `n + 1` lowest limbs are the `n` lowest and limb `n` above them (00_scope.md R10). -/
theorem mod_succ_limb (v n : Nat) :
    v % 2 ^ (64 * (n + 1)) = v % 2 ^ (64 * n) + 2 ^ (64 * n) * limbOf v n := by
  rw [limbOf, Nat.mul_succ, pow_add, Nat.mod_mul]

/-- The comparison from limb `n - 1` down orders the values of the `n` lowest limbs
(41_predicates.md R123). -/
theorem compareLimbs_eq (a b n : Nat) : compareLimbs a b n =
    if a % 2 ^ (64 * n) < b % 2 ^ (64 * n) then -1
    else if b % 2 ^ (64 * n) < a % 2 ^ (64 * n) then 1 else 0 := by
  induction n with
  | zero => simp [compareLimbs, Nat.mod_one]
  | succ n ih =>
    have ha := Nat.mod_lt a (Nat.two_pow_pos (64 * n))
    have hb := Nat.mod_lt b (Nat.two_pow_pos (64 * n))
    rw [compareLimbs, ih, mod_succ_limb a, mod_succ_limb b]
    generalize 2 ^ (64 * n) = size at ha hb ⊢
    rcases Nat.lt_trichotomy (limbOf a n) (limbOf b n) with below | same | above
    · have gap : size * limbOf a n + size ≤ size * limbOf b n := Nat.mul_le_mul_left size below
      rw [if_pos below, if_pos (by omega)]
    · simp only [same, lt_irrefl, if_false, Nat.add_lt_add_iff_right]
    · have gap : size * limbOf b n + size ≤ size * limbOf a n := Nat.mul_le_mul_left size above
      rw [if_neg above.not_gt, if_pos above, if_neg (by omega), if_pos (by omega)]

/-! ### The limbs of a shift -/

/-- A limb is determined by its 64 bits. -/
theorem eq_of_testBit_lt {x y : Nat} (hx : x < 2 ^ 64) (hy : y < 2 ^ 64)
    (h : ∀ i, i < 64 → x.testBit i = y.testBit i) : x = y := by
  refine Nat.eq_of_testBit_eq fun i => ?_
  by_cases hi : i < 64
  · exact h i hi
  · have beyond : 2 ^ 64 ≤ 2 ^ i := Nat.pow_le_pow_right two_pos (not_lt.1 hi)
    rw [Nat.testBit_lt_two_pow (hx.trans_le beyond), Nat.testBit_lt_two_pow (hy.trans_le beyond)]

theorem limbOf_lt (v j : Nat) : limbOf v j < 2 ^ 64 := Nat.mod_lt _ (by decide)

theorem limbBelow_lt (v j q : Nat) : limbBelow v j q < 2 ^ 64 := by
  unfold limbBelow
  split
  · exact limbOf_lt v (j - q)
  · decide

/-- The limbs above an `L`-limb value are 0, so the index check changes nothing
(42_bitwise.md R142). -/
theorem limbAbove_eq {len v : Nat} (hv : v < 2 ^ (64 * len)) (i : Nat) :
    limbAbove len v i = limbOf v i := by
  unfold limbAbove
  split
  case isTrue => rfl
  case isFalse h =>
    have small : v < 2 ^ (64 * i) := hv.trans_le (Nat.pow_le_pow_right two_pos (by omega))
    rw [limbOf, Nat.div_eq_of_lt small, Nat.zero_mod]


theorem testBit_limbBelow (v j q i : Nat) : (limbBelow v j q).testBit i =
    (decide (q ≤ j) && (decide (i < 64) && v.testBit (64 * (j - q) + i))) := by
  unfold limbBelow
  split
  case isTrue h => rw [testBit_limbOf, decide_eq_true h, Bool.true_and]
  case isFalse h => rw [Nat.zero_testBit, decide_eq_false h, Bool.false_and]

/-- Bit `i` of limb `j` of a left shift is bit `64 j + i - k` of the value, if there is one
(42_bitwise.md R141). -/
theorem testBit_shlLimb (a k j : Nat) {i : Nat} (hi : i < 64) : (shlLimb a k j).testBit i =
    (decide (k ≤ 64 * j + i) && a.testBit (64 * j + i - k)) := by
  have split : 64 * (k / 64) + k % 64 = k := Nat.div_add_mod k 64
  have bound : k % 64 < 64 := Nat.mod_lt k (by decide)
  rw [shlLimb]
  generalize k / 64 = q at split ⊢
  generalize k % 64 = s at split bound ⊢
  rw [Nat.testBit_or, Nat.testBit_mod_two_pow, Nat.testBit_mul_two_pow, testBit_limbBelow]
  by_cases carried : i < s
  case pos => -- the bit comes from the limb below limb `j - q`
    have place : 64 * (j - (q + 1)) + (i + (64 - s)) = 64 * j + i - k ∨ j < q + 1 := by omega
    rw [if_pos (by omega), Nat.testBit_div_two_pow, testBit_limbBelow]
    have reached : (q + 1 ≤ j) ↔ k ≤ 64 * j + i := by omega
    have inside : i + (64 - s) < 64 := by omega
    rcases place with place | none
    · simp [reached, inside, place, Nat.not_le.2 carried]
    · have beyond : ¬ k ≤ 64 * j + i := by omega
      simp [reached, beyond, Nat.not_le.2 carried]
  case neg => -- the bit comes from limb `j - q` itself
    have outside : ¬ i + (64 - s) < 64 := by omega
    have uncarried : (if 0 < s then limbBelow a j (q + 1) / 2 ^ (64 - s) else 0).testBit i =
        false := by
      split
      · simp [Nat.testBit_div_two_pow, testBit_limbBelow, outside]
      · exact Nat.zero_testBit i
    have reached : q ≤ j ↔ k ≤ 64 * j + i := by omega
    have inside : i - s < 64 := by omega
    have shifted : s ≤ i := not_lt.1 carried
    rw [uncarried, Bool.or_false]
    by_cases h : q ≤ j
    · have place : 64 * (j - q) + (i - s) = 64 * j + i - k := by omega
      simp [hi, ← reached, h, inside, shifted, place]
    · simp [← reached, h]

/-- Bit `i` of limb `j` of a right shift of an `L`-limb value is bit `64 j + i + k` of it
(42_bitwise.md R142). -/
theorem testBit_shrLimb {len a : Nat} (ha : a < 2 ^ (64 * len)) (k j : Nat) {i : Nat}
    (hi : i < 64) : (shrLimb len a k j).testBit i = a.testBit (64 * j + i + k) := by
  have split : 64 * (k / 64) + k % 64 = k := Nat.div_add_mod k 64
  have bound : k % 64 < 64 := Nat.mod_lt k (by decide)
  rw [shrLimb, limbAbove_eq ha, limbAbove_eq ha]
  generalize k / 64 = q at split ⊢
  generalize k % 64 = s at split bound ⊢
  rw [Nat.testBit_or, Nat.testBit_div_two_pow, testBit_limbOf]
  by_cases carried : i + s < 64
  case pos => -- the bit comes from limb `j + q`
    have uncarried : (if 0 < s then limbOf a (j + q + 1) * 2 ^ (64 - s) % 2 ^ 64 else 0).testBit i =
        false := by
      split
      · have below : ¬ 64 - s ≤ i := by omega
        rw [Nat.testBit_mod_two_pow, Nat.testBit_mul_two_pow, decide_eq_false below,
          Bool.false_and, Bool.and_false]
      · exact Nat.zero_testBit i
    have place : 64 * (j + q) + (i + s) = 64 * j + i + k := by omega
    rw [uncarried, Bool.or_false, decide_eq_true carried, Bool.true_and, place]
  case neg => -- the bit comes from the limb above it
    have positive : 0 < s := by omega
    have place : 64 * (j + q + 1) + (i - (64 - s)) = 64 * j + i + k := by omega
    have shifted : 64 - s ≤ i := by omega
    have inside : i - (64 - s) < 64 := by omega
    rw [if_pos positive, Nat.testBit_mod_two_pow, Nat.testBit_mul_two_pow, testBit_limbOf, place]
    simp [carried, hi, shifted, inside]

theorem shlLimb_lt (a k j : Nat) : shlLimb a k j < 2 ^ 64 := by
  rw [shlLimb]
  refine Nat.or_lt_two_pow (Nat.mod_lt _ (by decide)) ?_
  split
  · exact (Nat.div_le_self _ _).trans_lt (limbBelow_lt _ _ _)
  · decide

theorem shrLimb_lt {len a : Nat} (ha : a < 2 ^ (64 * len)) (k j : Nat) :
    shrLimb len a k j < 2 ^ 64 := by
  rw [shrLimb, limbAbove_eq ha]
  refine Nat.or_lt_two_pow ((Nat.div_le_self _ _).trans_lt (limbOf_lt _ _)) ?_
  split
  · exact Nat.mod_lt _ (by decide)
  · decide

/-- A limb of the left shift is the limb form of it (42_bitwise.md R141). -/
theorem limbOf_shl (a k : Nat) {len j : Nat} (hj : j < len) :
    limbOf (a * 2 ^ k % 2 ^ (64 * len)) j = shlLimb a k j := by
  refine eq_of_testBit_lt (limbOf_lt _ j) (shlLimb_lt a k j) fun i hi => ?_
  have inside : 64 * j + i < 64 * len := by omega
  rw [testBit_shlLimb a k j hi, testBit_limbOf, Nat.testBit_mod_two_pow, Nat.testBit_mul_two_pow,
    decide_eq_true hi, decide_eq_true inside, Bool.true_and, Bool.true_and]

/-- A limb of the right shift is the limb form of it (42_bitwise.md R142). -/
theorem limbOf_shr {len a : Nat} (ha : a < 2 ^ (64 * len)) (k j : Nat) :
    limbOf (a / 2 ^ k) j = shrLimb len a k j := by
  refine eq_of_testBit_lt (limbOf_lt _ j) (shrLimb_lt ha k j) fun i hi => ?_
  rw [testBit_shrLimb ha k j hi, testBit_limbOf, Nat.testBit_div_two_pow, decide_eq_true hi,
    Bool.true_and]

/-! ### The ripple-carry adder -/

/-- The adder's limbs from limb `j` on are those of the sum of what the operands have from there on
and the carry (43_arith.md R162). -/
theorem ofLimbs_rippleLimbs (a b n : Nat) : ∀ j c, ofLimbs (rippleLimbs a b j c n) =
    (a / 2 ^ (64 * j) + b / 2 ^ (64 * j) + c) % 2 ^ (64 * n) := by
  induction n with
  | zero =>
    intro j c
    rw [Nat.mul_zero, pow_zero, Nat.mod_one]
    rfl
  | succ n ih =>
    intro j c
    have next (v : Nat) : v / 2 ^ (64 * (j + 1)) = v / 2 ^ (64 * j) / 2 ^ 64 := by
      rw [Nat.div_div_eq_div_mul, ← pow_add, Nat.mul_succ]
    have size : 2 ^ (64 * (n + 1)) = 2 ^ 64 * 2 ^ (64 * n) := by
      rw [← pow_add, Nat.mul_succ, Nat.add_comm]
    rw [rippleLimbs, ofLimbs, ih, next, next, size, Nat.mod_mul, limbOf, limbOf]
    generalize a / 2 ^ (64 * j) = x
    generalize b / 2 ^ (64 * j) = y
    have low : (x % 2 ^ 64 + y % 2 ^ 64 + c) % 2 ^ 64 = (x + y + c) % 2 ^ 64 := by omega
    have carry : x / 2 ^ 64 + y / 2 ^ 64 + (x % 2 ^ 64 + y % 2 ^ 64 + c) / 2 ^ 64 =
        (x + y + c) / 2 ^ 64 := by omega
    rw [low, carry]

/-- The adder gives the sum modulo `2^N` (43_arith.md R162). -/
theorem rippleAdd_eq (len a b c : Nat) : rippleAdd len a b c = (a + b + c) % 2 ^ (64 * len) := by
  rw [rippleAdd, ofLimbs_rippleLimbs, Nat.mul_zero, pow_zero, Nat.div_one, Nat.div_one]

section Subtraction

variable {len a b : Nat} (hb : b < 2 ^ (64 * len))
include hb

/-- One pass over the complemented limbs with carry 1 gives the difference (43_arith.md R164). -/
theorem rippleAdd_complement (a : Nat) : rippleAdd len a (2 ^ (64 * len) - 1 - b) 1 =
    (a + 2 ^ (64 * len) - b) % 2 ^ (64 * len) := by
  rw [rippleAdd_eq]
  congr 1
  omega

/-- The two passes of the two's complement give the difference (43_arith.md R164). -/
theorem subByComplement_eq (ha : a < 2 ^ (64 * len)) :
    subByComplement len a b = (a + 2 ^ (64 * len) - b) % 2 ^ (64 * len) := by
  rw [subByComplement]
  split
  case isTrue zero => rw [zero, Nat.sub_zero, Nat.add_mod_right, Nat.mod_eq_of_lt ha]
  case isFalse positive =>
    have negated : ringSize len - 1 - b + 1 + 0 = 2 ^ (64 * len) - b := by
      rw [ringSize]
      omega
    have small : 2 ^ (64 * len) - b < 2 ^ (64 * len) := by omega
    rw [rippleAdd_eq, rippleAdd_eq, negated, Nat.mod_eq_of_lt small, Nat.add_zero,
      Nat.add_sub_assoc hb.le]

end Subtraction

/-! ### Shift-and-add multiplication -/

/-- The multiplier adds the product to the accumulator, modulo the size (43_arith.md R166). -/
theorem mulLoop_eq {size : Nat} (n : Nat) : ∀ x y acc : Nat, y < 2 ^ n → acc < size →
    mulLoop size n x y acc = (acc + x * y) % size := by
  induction n with
  | zero =>
    intro x y acc hy hacc
    obtain rfl : y = 0 := by simpa using hy
    rw [mulLoop, Nat.mul_zero, Nat.add_zero, Nat.mod_eq_of_lt hacc]
  | succ n ih =>
    intro x y acc hy hacc
    have half : y / 2 < 2 ^ n := by
      rw [pow_succ] at hy
      omega
    have doubled : (x * 2 % size * (y / 2)) % size = (x * (2 * (y / 2))) % size := by
      rw [Nat.mod_mul_mod, mul_assoc]
    rw [mulLoop]
    split
    case isTrue zero => rw [zero, Nat.mul_zero, Nat.add_zero, Nat.mod_eq_of_lt hacc]
    case isFalse =>
      split
      case isTrue odd =>
        have parts : y = 1 + 2 * (y / 2) := by omega
        have product : acc + x + x * (2 * (y / 2)) = acc + x * y := by
          rw [add_assoc, ← mul_one_add, ← parts]
        rw [ih _ _ _ half (Nat.mod_lt _ (by omega)), Nat.mod_add_mod, Nat.add_mod, doubled,
          ← Nat.add_mod, product]
      case isFalse even =>
        have parts : y = 2 * (y / 2) := by omega
        rw [ih _ _ _ half hacc, Nat.add_mod, doubled, ← Nat.add_mod, ← parts]

/-- The long multiplier gives the product modulo `2^N` (43_arith.md R166). -/
theorem longMul_eq (len : Nat) : longMul len = mulMod (ringSize len) := by
  funext a b
  rw [longMul, mulLoop_eq _ _ _ _ (lt_two_pow_bitlen b) (ringSize_pos len), Nat.zero_add, mulMod]

/-! ### Long division -/

/-- The divider's loop with `n` turns to go divides what remains by `b`, once the aligned divisor is
`b` shifted by `n - 1` (43_arith.md R168). -/
theorem divLoop_eq {b : Nat} (n : Nat) : ∀ d r q : Nat, r < b * 2 ^ n →
    (n ≠ 0 → 2 * d = b * 2 ^ n) → divLoop n d r q = (q * 2 ^ n + r / b, r % b) := by
  induction n with
  | zero =>
    intro d r q hr _
    have small : r < b := by simpa using hr
    rw [divLoop, Nat.div_eq_of_lt small, Nat.mod_eq_of_lt small, pow_zero, mul_one, Nat.add_zero]
  | succ n ih =>
    intro d r q hr hd
    have aligned : d = b * 2 ^ n := by
      have double := hd n.succ_ne_zero
      rw [pow_succ, ← mul_assoc] at double
      omega
    have half : n ≠ 0 → 2 * (d / 2) = b * 2 ^ n := fun hn => by
      obtain ⟨m, rfl⟩ := Nat.exists_eq_add_one_of_ne_zero hn
      rw [aligned, pow_succ, ← mul_assoc, Nat.mul_div_cancel _ two_pos, mul_comm]
    have below : r < b * 2 ^ n + b * 2 ^ n := by rwa [pow_succ, mul_two, mul_add] at hr
    rw [divLoop]
    split
    case isTrue reached =>
      obtain ⟨rest, rfl⟩ := Nat.exists_eq_add_of_le' (aligned ▸ reached)
      have positive : 0 < b := Nat.pos_of_ne_zero fun zero => by simp [zero] at hr
      have quotient : (q * 2 + 1) * 2 ^ n + rest / b = q * 2 ^ (n + 1) + (rest / b + 2 ^ n) := by
        ring
      rw [ih _ _ _ (by omega) half, aligned, Nat.add_sub_cancel, quotient,
        Nat.add_mul_div_left _ _ positive, Nat.add_mul_mod_self_left]
    case isFalse short =>
      rw [ih _ _ _ (by omega) half, mul_assoc, ← pow_succ']

/-- Aligned to the dividend's bit length, the shifted divisor exceeds the dividend
(90_conflicts.md C3). -/
theorem lt_aligned (a : Nat) {b : Nat} (hb : 0 < b) :
    a < b * 2 ^ (bitlen a - bitlen b + 1) := by
  obtain ⟨k, hk, large, -⟩ := exists_bitlen_eq_succ hb.ne'
  calc a < 2 ^ bitlen a := lt_two_pow_bitlen a
    _ ≤ 2 ^ (k + (bitlen a - bitlen b + 1)) := Nat.pow_le_pow_right two_pos (by omega)
    _ = 2 ^ k * 2 ^ (bitlen a - bitlen b + 1) := pow_add _ _ _
    _ ≤ b * 2 ^ (bitlen a - bitlen b + 1) := Nat.mul_le_mul_right _ large

/-! ### The reducer and the modular algorithms -/

/-- With as many turns as the value the loop reaches the remainder, the modulus being above 0
(44_modular.md R201). -/
theorem reduceLoop_eq {m : Nat} (hm : 0 < m) (n : Nat) : ∀ x, x ≤ n → reduceLoop m n x = x % m := by
  induction n with
  | zero =>
    intro x hx
    rw [Nat.le_zero.1 hx, Nat.zero_mod]
    rfl
  | succ n ih =>
    intro x hx
    rw [reduceLoop]
    split
    case isTrue above => rw [ih _ (by omega), ← Nat.mod_eq_sub_mod above]
    case isFalse below => exact (Nat.mod_eq_of_lt (not_le.1 below)).symm

theorem reduce_eq {m : Nat} (hm : 0 < m) (x : Nat) : reduce x m = x % m :=
  reduceLoop_eq hm x x le_rfl

/-- The loop of MulModCore is that of the long multiplier with the modulus for the size
(44_modular.md R202). -/
theorem mulModLoop_eq_mulLoop {m : Nat} (hm : 0 < m) (n : Nat) :
    ∀ x y acc, mulModLoop m n x y acc = mulLoop m n x y acc := by
  induction n with
  | zero => exact fun _ _ _ => rfl
  | succ n ih =>
    intro x y acc
    rw [mulModLoop, mulLoop, ih, reduce_eq hm, reduce_eq hm]

/-- MulModCore gives the product modulo `m` (44_modular.md R202). -/
theorem mulModCore_eq {m : Nat} (hm : 0 < m) : mulModCore m = mulMod m := by
  funext a b
  rw [mulModCore, mulModLoop_eq_mulLoop hm, mulLoop_eq _ _ _ _ (lt_two_pow_bitlen b) hm,
    Nat.zero_add, reduce_eq hm, Nat.mod_mul_mod, mulMod]

/-! ### The statements -/

/-- Settles O54: the comparison orders the values by their highest differing limb, and the limb
forms of the shifts agree with the values bit by bit. -/
theorem limbForms : Obligations.LimbForms := by
  intro len a b k ha hb
  have order := compareLimbs_eq a b len
  rw [Nat.mod_eq_of_lt ha, Nat.mod_eq_of_lt hb] at order
  refine ⟨fun less => by rw [order, if_pos less], fun equal => ?equal,
    fun greater => by rw [order, if_neg greater.not_gt, if_pos greater],
    fun j hj => ⟨limbOf_shl a k hj, limbOf_shr ha k j⟩⟩
  case equal => rw [order, equal, if_neg (lt_irrefl b), if_neg (lt_irrefl b)]

/-- Settles O55: the adder gives the sum, both subtractions go through it, and the multiplier, which
is multiplication modulo `2^N`, carries the power. -/
theorem rippleCarryArithmetic : Obligations.RippleCarryArithmetic := by
  intro len a b e ha hb
  refine ⟨rippleAdd_eq len a b 0, subByComplement_eq hb ha, rippleAdd_complement hb a, ?product,
    fun limbs => ?power⟩
  case product => rw [longMul_eq, mulMod, ringSize]
  case power =>
    rw [longPow, longMul_eq, squareMultiply_mulMod_of_one_lt (one_lt_ringSize limbs), ringSize]

/-- Settles O56: the loop divides, started at the aligned divisor. -/
theorem longDivision : Obligations.LongDivision := by
  intro a b hb
  have aligned (n : Nat) : 2 * (b * 2 ^ n) = b * 2 ^ (n + 1) := by rw [pow_succ', mul_left_comm]
  rw [longDiv, divLoop_eq _ _ _ _ (lt_aligned a hb) fun _ => aligned _, Nat.zero_mul, Nat.zero_add]

/-- Settles O57: the reducer gives the remainder, MulModCore multiplication modulo `m`, and the
power over it is square-and-multiply. -/
theorem modularAlgorithms : Obligations.ModularAlgorithms := by
  intro m hm
  refine ⟨fun x => ⟨reduce_eq hm x, ?below⟩, fun a b => ?product, fun base e => ?power⟩
  case below =>
    rw [reduce_eq hm]
    exact Nat.mod_lt x hm
  case product => rw [mulModCore_eq hm, mulMod]
  case power =>
    rw [powModCore, mulModCore_eq hm, squareMultiply_mulMod]
    exact ⟨fun zero => if_pos zero, fun positive => if_neg positive⟩

end Sys2Proof.Machine
end

section
/-! PROOFS. Commands one after the other: the shift property of 42_bitwise.md R144, the ring
identities of 43_arith.md R171, and the shared secret of 44_modular.md section 6. -/

namespace Sys2Proof.Machine

open Sys2Proof.Safety Sys2Proof.Spec

/-! ### One command after another -/

/-- After a command that completes with a value the others run from the state that holds it. -/
theorem exists_runCommands {P : State → Prop} {i : Instr} {is : List Instr} {s : State} {rd : Reg}
    {len val : Nat} (h : exec i s = wrote s rd len val)
    (rest : ∃ t, runCommands is (s.setReg rd (some ⟨len, val⟩)).complete = .next t ∧ P t) :
    ∃ t, runCommands (i :: is) s = .next t ∧ P t := by
  rw [runCommands, h]
  exact rest

theorem reg_written_same (s : State) (rd : Reg) (v : Option Wide) :
    (s.setReg rd v).complete.reg rd = v := by
  rw [State.reg_complete, State.reg_setReg_same]

/-! ### The values -/

/-- What a left shift by `k` up to `N` keeps is the low `N - k` bits (42_bitwise.md R144). -/
theorem shl_then_shr (a : Nat) {n k : Nat} (h : k ≤ n) :
    a * 2 ^ k % 2 ^ n / 2 ^ k = a % 2 ^ (n - k) := by
  have width : 2 ^ n = 2 ^ (n - k) * 2 ^ k := by rw [← pow_add, Nat.sub_add_cancel h]
  rw [width, Nat.mul_mod_mul_right, Nat.mul_div_cancel _ (Nat.two_pow_pos k)]

/-- The exact difference modulo the size, as a remainder of a natural number (43_arith.md R163). -/
theorem toNat_sub_emod {a b size : Nat} (ha : a < size) (hb : b < size) :
    (((a : Int) - b) % (size : Int)).toNat = (a + size - b) % size := by
  rcases Nat.lt_or_ge a b with below | above
  · rw [toNat_sub_emod_of_lt hb below, Nat.add_comm size a, Nat.mod_eq_of_lt (by omega)]
  · have wrapped : a + size - b = a - b + size := by omega
    rw [toNat_sub_emod_of_le ha above, wrapped, Nat.add_mod_right, Nat.mod_eq_of_lt (by omega)]

section Ring

variable {a b size : Nat} (ha : a < size) (hb : b < size)
include ha hb

/-- A sum below twice the size is reduced by at most one size (43_arith.md R162). -/
theorem add_mod_cases : (a + b) % size = a + b ∨ (a + b) % size + size = a + b := by
  rcases Nat.lt_or_ge (a + b) size with small | large
  · exact .inl (Nat.mod_eq_of_lt small)
  · rw [Nat.mod_eq_sub_mod large, Nat.mod_eq_of_lt (by omega)]
    exact .inr (by omega)

/-- `(a + b) - b = a` modulo the size (43_arith.md R171). -/
theorem add_sub_mod_self : ((a + b) % size + size - b) % size = a := by
  rcases add_mod_cases ha hb with sum | sum
  · have cancelled : (a + b) % size + size - b = a + size := by omega
    rw [cancelled, Nat.add_mod_right, Nat.mod_eq_of_lt ha]
  · have cancelled : (a + b) % size + size - b = a := by omega
    rw [cancelled, Nat.mod_eq_of_lt ha]

/-- `a - (a + b) = -b` modulo the size (43_arith.md R171). -/
theorem sub_add_mod_self : (a + size - (a + b) % size) % size = (size - b) % size := by
  rcases add_mod_cases ha hb with sum | sum
  · have cancelled : a + size - (a + b) % size = size - b := by omega
    rw [cancelled]
  · have cancelled : a + size - (a + b) % size = size - b + size := by omega
    rw [cancelled, Nat.add_mod_right]

end Ring

/-! ### The commands with the values they write -/

theorem exec_shl_of_source {s : State} {rd ra : Reg} {a : Wide} (ha : s.reg ra = some a) :
    exec (.shl rd ra) s = wrote s rd a.len (a.val * 2 ^ s.imm.toNat % 2 ^ (64 * a.len)) :=
  (commit_source_some ha rd fun a => shlValue a s.scalar).trans
    (congrArg _ (shlValue_eq a s.imm.toNat))

theorem exec_shr_of_source {s : State} {rd ra : Reg} {a : Wide} (ha : s.reg ra = some a)
    (hval : a.val < 2 ^ (64 * a.len)) :
    exec (.shr rd ra) s = wrote s rd a.len (a.val / 2 ^ s.imm.toNat) :=
  (commit_source_some ha rd fun a => shrValue a s.scalar).trans
    (congrArg _ (shrValue_eq hval s.imm.toNat))

theorem exec_not_of_source {s : State} {rd ra : Reg} {a : Wide} (ha : s.reg ra = some a) :
    exec (.not rd ra) s = wrote s rd a.len (ringSize a.len - 1 - a.val) :=
  commit_source_some ha rd fun a => ringSize a.len - 1 - a.val

section SameWidth

variable {s : State} {rd ra rb : Reg} {len a b : Nat} (ha : s.reg ra = some ⟨len, a⟩)
  (hb : s.reg rb = some ⟨len, b⟩)
include ha hb

theorem exec_add_of_sources : exec (.add rd ra rb) s = wrote s rd len ((a + b) % ringSize len) :=
  execSameWidth_of_eq _ rd ha hb rfl

theorem exec_sub_of_sources (la : a < ringSize len) (lb : b < ringSize len) :
    exec (.sub rd ra rb) s = wrote s rd len ((a + ringSize len - b) % ringSize len) := by
  rw [exec_sub, execSameWidth_of_eq _ rd ha hb rfl, toNat_sub_emod la lb]

end SameWidth

/-- POWMOD with a modulus above 1 that passes the check: the identity is reduced already, so the
exponent 0 is no exception (44_modular.md R211, R213). -/
theorem exec_powmod_of_sources {s : State} {rd ra rb rc : Reg} {a e m : Wide} {wl : Nat}
    (ha : s.reg ra = some a) (he : s.reg rb = some e) (hm : s.reg rc = some m)
    (above : 1 < m.val) (fits : (m.val - 1) ^ 2 < ringSize wl) :
    exec (.powmod rd ra rb rc wl) s = wrote s rd wl (a.val ^ e.val % m.val) := by
  rw [exec_powmod, execModular_of_safe_width _ rd ha he hm (by omega) (powWidthSafe_ok fits),
    squareMultiply_mulMod_of_one_lt above]

/-! ### The statements -/

/-- Settles O58: the count is at most the width, so the right shift brings back what the left shift
kept. -/
theorem shiftLeftThenRight : Obligations.ShiftLeftThenRight := by
  intro maxLimbs s rd ra a inv ha hk
  have kept : a.val * 2 ^ s.imm.toNat % 2 ^ (64 * a.len) < 2 ^ (64 * a.len) :=
    Nat.mod_lt _ (Nat.two_pow_pos _)
  refine exists_runCommands (exec_shl_of_source ha) (exists_runCommands
    (exec_shr_of_source (reg_written_same s rd _) kept) ⟨_, rfl, ?_⟩)
  rw [reg_written_same, ← shl_then_shr a.val hk]
  rfl

/-- Settles O59: the five commands have the widths they need, and their values are the identities
modulo `2^N`. -/
theorem ringIdentities : Obligations.RingIdentities := by
  rintro maxLimbs s ⟨len, a⟩ ⟨_, b⟩ one inv ha hb hone ⟨⟩ rfl
  obtain ⟨-, -, la⟩ := inv.regs 0 _ ha
  obtain ⟨-, -, lb⟩ := inv.regs 1 _ hb
  dsimp only at la lb hone
  have sum : (a + b) % ringSize len < ringSize len := Nat.mod_lt _ (ringSize_pos len)
  have negated : ringSize len - 1 - b + 1 = ringSize len - b := by omega
  refine exists_runCommands (exec_add_of_sources ha hb) ?_
  refine exists_runCommands
    (exec_sub_of_sources (len := len) (a := (a + b) % ringSize len) (b := b) ?_ ?_ sum lb) ?_
  case refine_1 | refine_2 => simp [State.reg_setReg, hb]
  rw [add_sub_mod_self la lb]
  refine exists_runCommands
    (exec_sub_of_sources (len := len) (a := a) (b := (a + b) % ringSize len) ?_ ?_ la sum) ?_
  case refine_1 | refine_2 => simp [State.reg_setReg, ha]
  rw [sub_add_mod_self la lb]
  refine exists_runCommands (exec_not_of_source (a := ⟨len, b⟩) ?_) ?_
  case refine_1 => simp [State.reg_setReg, hb]
  refine exists_runCommands
    (exec_add_of_sources (len := len) (a := ringSize len - 1 - b) (b := 1) ?_ ?_) ?_
  case refine_1 | refine_2 => simp [State.reg_setReg, hone]
  rw [negated]
  exact ⟨_, rfl, by simp [State.reg_setReg, ringSize]⟩

/-- Settles O60: both secrets are the generator to the product of the exponents. -/
theorem sharedSecretsAgree : Obligations.SharedSecretsAgree := by
  intro s p g x y wl hp hg hx hy above fits
  have power {s : State} {rd ra rb : Reg} {a e : Wide} (hp : s.reg 0 = some p)
      (ha : s.reg ra = some a) (he : s.reg rb = some e) :
      exec (.powmod rd ra rb 0 wl) s = wrote s rd wl (a.val ^ e.val % p.val) :=
    exec_powmod_of_sources ha he hp above fits
  have secret : ∃ t, runCommands
      [.powmod 4 1 2 0 wl, .powmod 5 1 3 0 wl, .powmod 6 5 2 0 wl, .powmod 7 4 3 0 wl] s = .next t ∧
      t.reg 6 = some ⟨wl, g.val ^ (x.val * y.val) % p.val⟩ ∧
      t.reg 7 = some ⟨wl, g.val ^ (x.val * y.val) % p.val⟩ := by
    refine exists_runCommands (power hp hg hx) ?_
    refine exists_runCommands (power (a := g) (e := y) ?_ ?_ ?_) ?_
    case refine_1 | refine_2 | refine_3 => simp [State.reg_setReg, hp, hg, hy]
    refine exists_runCommands
      (power (a := ⟨wl, g.val ^ y.val % p.val⟩) (e := x) ?_ ?_ ?_) ?_
    case refine_1 | refine_2 | refine_3 => simp [State.reg_setReg, hp, hx]
    refine exists_runCommands
      (power (a := ⟨wl, g.val ^ x.val % p.val⟩) (e := y) ?_ ?_ ?_) ?_
    case refine_1 | refine_2 | refine_3 => simp [State.reg_setReg, hp, hy]
    rw [← Nat.pow_mod, ← Nat.pow_mod, ← pow_mul, ← pow_mul, Nat.mul_comm y.val]
    exact ⟨_, rfl, by simp [State.reg_setReg]⟩
  obtain ⟨t, run, here, there⟩ := secret
  exact ⟨t, _, run, here, there, rfl⟩

end Sys2Proof.Machine
end
